-- ==== Sys2Proof/Word.lean ====
section
/-! DEFINITION. The word types of the machine: 32-bit registers and addresses (rules R20, R23, R25), bytes of data
space (R60) and 16-bit words of program space (R60, "PS word"). -/

namespace Sys2Proof

/-- A 32-bit register or long word (R6, R20). -/
abbrev Word := BitVec 32

/-- `W_BITS` (R7, R23, R66, D26): the width of a W register and of a data address. -/
abbrev wBits : Nat := 32

/-- `PC_BITS` (R7, R25, D27): the width of `pc`. -/
abbrev pcBits : Nat := 32

/-- A W register, or a byte address of data space. -/
abbrev WWord := BitVec wBits

/-- A byte address of program space. -/
abbrev PcWord := BitVec pcBits

/-- One byte of data space or of the program image (R60). -/
abbrev Byte := BitVec 8

/-- A PS word: 16 bits of program space, the unit of the branch literal (R12, R60). -/
abbrev PsWord := BitVec 16

end Sys2Proof
end

