-- ==== Sys2Proof/Syntax.lean ====
section
/-! DEFINITION. The instructions, one constructor per row of spec/opcode_table.json, in the table's order, and the
types of their operands. A field code that the spec reserves has no constructor here: the decoder refuses it. -/

namespace Sys2Proof

/-- A floating-point register number F0 to F31 (R20). -/
abbrev FReg := BitVec 5

/-- A working register number W0 to W15 (R23). -/
abbrev WReg := BitVec 4

/-- The precision suffix `.s` or `.d` (R109, R130). -/
inductive Prec where
  /-- `.s`: 32-bit binary floating point. -/
  | single
  /-- `.d`: 64-bit binary floating point, in an even/odd register pair. -/
  | double
deriving DecidableEq, Repr

/-- The four rounding modes (R133). -/
inductive RoundMode where
  /-- Suffix `e`: to nearest, ties to even. -/
  | nearestEven
  /-- Suffix `z`: toward zero. -/
  | towardZero
  /-- Suffix `p`: toward plus infinity. -/
  | towardPos
  /-- Suffix `n`: toward minus infinity. -/
  | towardNeg
deriving DecidableEq, Repr

/-- The rounding suffix of a conversion: absent, or one of the four modes (R111, R134). -/
inductive RndSel where
  /-- No suffix: the mode of FCR.RND. -/
  | fromFcr
  /-- A suffix that names the mode. -/
  | fixed (m : RoundMode)
deriving DecidableEq, Repr

/-- The special registers that AND and IOR edit (R290, R292). -/
inductive SReg where
  | fsr
  | fcr
  | fear
deriving DecidableEq, Repr

/-- A coprocessor register as a source of `MOV.l` and `PUSH.l` (R260, R267, R272). -/
inductive CopSrc where
  | f (r : FReg)
  | fsr
  /-- The read-only view of FSR's upper half (R33). -/
  | fsrh
  | fcr
  | fear
deriving DecidableEq, Repr

/-- A coprocessor register as a destination of `MOV.l` and `POP.l`: FSRH is not one (R33, R269, R271). -/
inductive CopDst where
  | f (r : FReg)
  | fsr
  | fcr
  | fear
deriving DecidableEq, Repr

/-- A destination of `MOV.l lit32`: an F register, FSR or FCR (R270). -/
inductive LitDst where
  | f (r : FReg)
  | fsr
  | fcr
deriving DecidableEq, Repr

/-- The seven W-operand addressing modes of `MOV.l`, in the order of their codes (R112, R261). -/
inductive WOperand where
  /-- `Wn`: the register itself. -/
  | reg (n : WReg)
  /-- `[Wn]`. -/
  | ind (n : WReg)
  /-- `[Wn++]`. -/
  | postInc (n : WReg)
  /-- `[Wn--]`. -/
  | postDec (n : WReg)
  /-- `[--Wn]`. -/
  | preDec (n : WReg)
  /-- `[++Wn]`. -/
  | preInc (n : WReg)
  /-- `[Wn+Wb]`; `Wb` is W0 to W14 (checked by `Instr.formError`). -/
  | indexed (n b : WReg)
deriving DecidableEq, Repr

/-- One instruction: one constructor per row of spec/opcode_table.json. Operands stand in the source's assembly
order, sources first and destination last (R10, R119). -/
inductive Instr where
  /-- ABS, R170. -/
  | abs (p : Prec) (fs fd : FReg)
  /-- ADD, R171. -/
  | add (p : Prec) (fb fs fd : FReg)
  /-- AND, R290. -/
  | andLit (lit : BitVec 16) (r : SReg)
  /-- COS, R250; single precision only. -/
  | cos (fs fd : FReg)
  /-- CPQ, R201. -/
  | cpq (p : Prec) (fb fs : FReg)
  /-- CPS, R202. -/
  | cps (p : Prec) (fb fs : FReg)
  /-- DI2F, R232. -/
  | di2f (p : Prec) (rnd : RndSel) (fs fd : FReg)
  /-- DIV, R172. -/
  | div (p : Prec) (fb fs fd : FReg)
  /-- FLIM, R203. -/
  | flim (p : Prec) (fb fs fd : FReg)
  /-- F2DI, R233. -/
  | f2di (p : Prec) (rnd : RndSel) (fs fd : FReg)
  /-- F2LI, R234. -/
  | f2li (p : Prec) (rnd : RndSel) (fs fd : FReg)
  /-- FBRA, R291: condition code and signed PS-word offset. -/
  | fbra (cond : BitVec 4) (slit20 : BitVec 20)
  /-- IOR, R292. -/
  | iorLit (lit : BitVec 16) (r : SReg)
  /-- LI2F, R235. -/
  | li2f (p : Prec) (rnd : RndSel) (fs fd : FReg)
  /-- MAC, R173. -/
  | mac (p : Prec) (fb fs fd : FReg)
  /-- MAX, R204. -/
  | max (p : Prec) (fb fs fd : FReg)
  /-- MAXNM, R205. -/
  | maxnm (p : Prec) (fb fs fd : FReg)
  /-- MIN, R206. -/
  | min (p : Prec) (fb fs fd : FReg)
  /-- MINNM, R207. -/
  | minnm (p : Prec) (fb fs fd : FReg)
  /-- `MOV.l Fs, [Wnd+Slit14]`, R262; `k12` is the literal in long words (R105). -/
  | movStore (fs : FReg) (wnd : WReg) (k12 : BitVec 12)
  /-- `MOV.s Fs, Fd` and `MOV.d Fs, Fd`, R263. -/
  | movF (p : Prec) (fs fd : FReg)
  /-- MOVC, R264. -/
  | movc (p : Prec) (index : BitVec 5) (fd : FReg)
  /-- `MOV.l` from a coprocessor register to a W operand, R267. -/
  | movFromCop (src : CopSrc) (dst : WOperand)
  /-- `MOV.l [Wns+Slit14], Fd`, R268. -/
  | movLoad (wns : WReg) (k12 : BitVec 12) (fd : FReg)
  /-- `MOV.l` from a W operand to a coprocessor register, R269. -/
  | movToCop (src : WOperand) (dst : CopDst)
  /-- `MOV.l lit32, {Fd | FSR | FCR}`, R270: the whole two-word instruction. -/
  | movLit (lit : BitVec 32) (dst : LitDst)
  /-- The second word of `MOV.l lit32` met on its own (R115 (a), R270): its literal field is `lit32[31:20]`. -/
  | movLitWord2 (hi : BitVec 12) (dst : LitDst)
  /-- MUL, R174. -/
  | mul (p : Prec) (fb fs fd : FReg)
  /-- NEG, R175. -/
  | neg (p : Prec) (fs fd : FReg)
  /-- `POP.l`, R271. -/
  | pop (dst : CopDst)
  /-- `PUSH.l`, R272. -/
  | push (src : CopSrc)
  /-- SIN, R251; single precision only. -/
  | sin (fs fd : FReg)
  /-- SQRT, R176. -/
  | sqrt (p : Prec) (fs fd : FReg)
  /-- SUB, R177. -/
  | sub (p : Prec) (fb fs fd : FReg)
  /-- TST, R208. -/
  | tst (p : Prec) (fs : FReg)
deriving DecidableEq, Repr

/-- The length of an instruction in bytes: 2 for PUSH and POP, 8 for `MOV.l lit32`, 4 for every other form (R26, R90). -/
def Instr.bytes : Instr → Nat
  | .push _ | .pop _ => 2
  | .movLit _ _ => 8
  | .abs _ _ _ | .add _ _ _ _ | .andLit _ _ | .cos _ _ | .cpq _ _ _ | .cps _ _ _ | .di2f _ _ _ _ | .div _ _ _ _
  | .flim _ _ _ _ | .f2di _ _ _ _ | .f2li _ _ _ _ | .fbra _ _ | .iorLit _ _ | .li2f _ _ _ _ | .mac _ _ _ _
  | .max _ _ _ _ | .maxnm _ _ _ _ | .min _ _ _ _ | .minnm _ _ _ _ | .movStore _ _ _ | .movF _ _ _ | .movc _ _ _
  | .movFromCop _ _ | .movLoad _ _ _ | .movToCop _ _ | .movLitWord2 _ _ | .mul _ _ _ _ | .neg _ _ _ | .sin _ _
  | .sqrt _ _ _ | .sub _ _ _ _ | .tst _ _ => 4

end Sys2Proof
end

