-- ==== Sys2Proof/Config.lean ====
section
/-! DEFINITION. What the spec leaves open: the parameters it marks OPEN or uninterpreted (R7: `MAC_FUSED`, `FBRA_COND`,
`TRIG_S`) and the values it answers by a `draw` (R9). Each is an opaque constant: nothing in Lean can evaluate it, so a
claim holds for every value of it.

The parameters that have a default in rule R7 are one named definition each, in the file that uses it: in
Sys2Proof/Decode.lean `pDouble` (`P_DOUBLE`), `s32` (`S_32`), `rSpecial` (`R_SPECIAL`), `SReg.code`, `CopSrc.code`
(`SREG_CODE`), `RndSel.code` (`RND_FIELD`), `WOperand.mode` (`AMODE_CODE`), `ifetch` (`IFETCH`), `endian` (`ENDIAN`); in
Sys2Proof/Machine/Flags.lean `Kind.bit`, `Relation.bit`, `testWord` (`FSR_LAYOUT`), `stickyOffset` (`STICKY_POS`),
`statusPolicy` (`STATUS_POLICY`), `roundModeOf` (`FCR_RND`), `trapEnabled` (`TRAP_ENABLED`); in
Sys2Proof/Machine/Float.lean `tininess` (`TININESS`), `dqnan` (`DQNAN_S`, `DQNAN_D`), `drawnNaN` of Ops.lean over
`quietNaN` (`NAN_PAYLOAD`); in Sys2Proof/Machine/Operands.lean `wbScale` (`WB_SCALE`); in Sys2Proof/Word.lean `wBits`
(`W_BITS`) and `pcBits` (`PC_BITS`). The types of those that are a choice between ways of working stand here.

A draw is "a value under no law, chosen afresh at each use" (R9): the streams below are read at `State.draws`, a counter
that every completed instruction advances, so that no two instructions read a stream at one place (notes/assumptions/14). -/

namespace Sys2Proof

/-- The values of `ENDIAN` (R62, D24). -/
inductive ByteOrder where
  /-- The low byte at the lowest address. -/
  | little
  /-- The high byte at the lowest address. -/
  | big
deriving DecidableEq, Repr

/-- The values of `IFETCH` (R72, D29): which half of a 32-bit instruction its first PS word holds. -/
inductive PsOrder where
  /-- Bits 31:16, so that the length bit is in the first PS word (R91). -/
  | upperFirst
  /-- Bits 15:0. -/
  | lowerFirst
deriving DecidableEq, Repr

/-- The values of `STATUS_POLICY` (R141, D14): what a listed status flag whose kind is not signalled becomes. -/
inductive StatusPolicy where
  /-- It is cleared. -/
  | overwrite
  /-- It keeps its value. -/
  | accumulate
deriving DecidableEq, Repr

/-- The values of `TININESS` (R136, D19): whether underflow looks at the exact value or at the value rounded with an
unbounded exponent. -/
inductive TininessPoint where
  | beforeRounding
  | afterRounding
deriving DecidableEq, Repr

end Sys2Proof

namespace Sys2Proof.Config

/-- `MAC_FUSED` (R173, D22, OPEN): whether MAC rounds once. -/
opaque macFused : Bool

/-- `FBRA_COND` (R113, R293, D11, OPEN), the whole partial map, for a code the launch says nothing about: a predicate on
FSR[31:16], or none where the map is undefined and FBRA is refused (notes/assumptions/9). -/
opaque fbraCond : BitVec 4 → Option (BitVec 16 → Bool)

/-- The value part of `TRIG_S.cos` (R252, D23) away from the source's example point, as a function of the FCR value
and the operand. The result is a sign and a magnitude up to that of an infinity: every single-precision pattern that
is not a NaN, and no other. -/
opaque trigCos : BitVec 32 → BitVec 32 → Bool × Fin 0x7F800001

/-- The value part of `TRIG_S.sin` (R252, D23) away from the source's example point. -/
opaque trigSin : BitVec 32 → BitVec 32 → Bool × Fin 0x7F800001

/-- The flag part of `TRIG_S.cos` (R252): whether INX and whether UDF is signalled. -/
opaque trigCosFlags : BitVec 32 → BitVec 32 → Bool × Bool

/-- The flag part of `TRIG_S.sin` (R252): whether INX and whether UDF is signalled. -/
opaque trigSinFlags : BitVec 32 → BitVec 32 → Bool × Bool

/-- The sign and payload of a quiet NaN that the spec answers by a draw (R139, `NAN_PAYLOAD`, D20). -/
opaque freeNaN : Nat → BitVec 64

/-- The value FEAR holds after an instruction that signalled an exception (R35, D33). -/
opaque freeFear : Nat → BitVec 32

/-- The bytes of a long word of data memory that the launch did not fix and that is read for the first time (R75). -/
opaque freeLong : Nat → BitVec 32

end Sys2Proof.Config
end

