-- ==== Sys2Proof/WellFormed.lean ====
section
/-! DEFINITION. Which instruction terms the spec's operand sets admit: a 64-bit operand names an even register
(R117), and the offset register of `[Wn+Wb]` is W0 to W14 (R112). Every other restriction of the operand sets is in
the types of Sys2Proof/Syntax.lean. -/

namespace Sys2Proof

/-- Why a term is outside the spec's operand sets; the names are those of rule R115. -/
inductive FormError where
  /-- R117: an odd register number where a 64-bit operand stands. -/
  | oddPairRegister
  /-- R112: W15 as the offset register of `[Wn+Wb]`. -/
  | reservedField
deriving DecidableEq, Repr

/-- An even register number, the name of a pair (R21). -/
def FReg.even (r : FReg) : Bool := !r.getLsbD 0

/-- A register operand of precision `p`: any register for `.s`, an even one for `.d` (R117). -/
def Prec.admits (p : Prec) (r : FReg) : Bool :=
  match p with
  | .single => true
  | .double => r.even

/-- `oddPairRegister` unless every listed operand check holds. -/
def pairCheck (ok : Bool) : Option FormError := if ok then none else some .oddPairRegister

/-- The operand check of an addressing mode (R112). -/
def WOperand.formError : WOperand → Option FormError
  | .indexed _ b => if b = 15#4 then some .reservedField else none
  | .reg _ | .ind _ | .postInc _ | .postDec _ | .preDec _ | .preInc _ => none

/-- What is wrong with an instruction term, if anything: the table of rule R117 row by row, and rule R112 for the two
indirect `MOV.l` forms. -/
def Instr.formError : Instr → Option FormError
  | .add p fb fs fd | .sub p fb fs fd | .mul p fb fs fd | .div p fb fs fd | .mac p fb fs fd
  | .max p fb fs fd | .maxnm p fb fs fd | .min p fb fs fd | .minnm p fb fs fd | .flim p fb fs fd =>
    pairCheck (p.admits fb && p.admits fs && p.admits fd)
  | .abs p fs fd | .neg p fs fd | .sqrt p fs fd | .movF p fs fd => pairCheck (p.admits fs && p.admits fd)
  | .cos _ _ | .sin _ _ => none
  | .cpq p fb fs | .cps p fb fs => pairCheck (p.admits fb && p.admits fs)
  | .tst p fs => pairCheck (p.admits fs)
  | .movc p _ fd => pairCheck (p.admits fd)
  | .di2f p _ fs fd => pairCheck (fs.even && p.admits fd)
  | .f2di p _ fs fd => pairCheck (p.admits fs && fd.even)
  | .f2li p _ fs _ => pairCheck (p.admits fs)
  | .li2f p _ _ fd => pairCheck (p.admits fd)
  | .movFromCop _ dst => dst.formError
  | .movToCop src _ => src.formError
  | .andLit _ _ | .iorLit _ _ | .fbra _ _ | .movStore _ _ _ | .movLoad _ _ _ | .movLit _ _ | .movLitWord2 _ _
  | .pop _ | .push _ => none

/-- The instruction terms that the spec gives an encoding. -/
def Instr.wellFormed (i : Instr) : Bool := i.formError.isNone

end Sys2Proof
end

