-- ==== Sys2Proof/Decode.lean ====
section
/-! DEFINITION. The machine words: field positions, the decoder (total, every word yields an instruction or a named
refusal, R116), the encoder, written from the formats R92 to R103, and `decodeTableWord`, which reads a row of
spec/opcode_table.json. The codes that the source lost (`P_DOUBLE`, `S_32`, `R_SPECIAL`, `SREG_CODE`, `RND_FIELD`,
`AMODE_CODE`; R7) are the spec's defaults, each said once (notes/assumptions/16), and so are the layouts `IFETCH` and
`ENDIAN` (notes/assumptions/29). -/

namespace Sys2Proof

/-- Why the decoder gives a word no instruction (R115). -/
inductive DecodeRefusal where
  /-- R115 (a), (h): no row of the opcode map matches. -/
  | noSuchOpcode
  /-- R115 (b), R107: `zz` is not `00`. -/
  | notThisCoprocessor
  /-- R115 (c), R108: a `U` bit is 1. -/
  | nonZeroU
  /-- R115 (d), R117: an odd register number where a 64-bit operand stands. -/
  | oddPairRegister
  /-- R115 (e): a reserved value in a field. -/
  | reservedField
  /-- R115 (f): the 16-bit form of an indirect `MOV.l`, whose layout the source does not give. -/
  | shortFormNotGiven
  /-- The words given end before the instruction does: not a refusal of the spec but of the caller's input; the step
  turns it into its fetch fault. -/
  | truncated
deriving DecidableEq, Repr

/-- The outcome of decoding. -/
abbrev Decoded := Except DecodeRefusal Instr

/-! ## Parameters of the encoding (R7) -/

/-- `P_DOUBLE` (R109, D2): the value of bit `P` that selects double precision. -/
def pDouble : BitVec 1 := 1#1

/-- `S_32` (R91, D3): the value of the length bit of a 32-bit encoding, the top bit of its first PS word. -/
def s32 : BitVec 1 := 1#1

/-- `R_SPECIAL` (R110, D6): the value of bit `R` that selects the special registers. -/
def rSpecial : BitVec 1 := 1#1

/-- `IFETCH` (R72, D29): the first PS word of a 32-bit instruction holds bits 31:16. The length bit is bit 31, so this is
the only order in which the first PS word tells the length. -/
def ifetch : PsOrder := .upperFirst

/-- `ENDIAN` (R62, D24): little-endian, in data space and for a PS word in the bytes of program space (R72). -/
def endian : ByteOrder := .little

/-! ## Field codes -/

/-- Bit `P` as a precision (R109). -/
def precOfBit (b : BitVec 1) : Prec := if b = pDouble then .double else .single

/-- The `P` bit of a precision (R109, D2). -/
def Prec.bit : Prec → BitVec 1
  | .single => ~~~pDouble
  | .double => pDouble

/-- `RND_FIELD` (R111, D8): the `eee` field; 001, 010 and 011 are reserved. -/
def rndOfCode (e : BitVec 3) : Except DecodeRefusal RndSel :=
  if e = 0b000#3 then .ok .fromFcr
  else if e = 0b100#3 then .ok (.fixed .nearestEven)
  else if e = 0b101#3 then .ok (.fixed .towardZero)
  else if e = 0b110#3 then .ok (.fixed .towardPos)
  else if e = 0b111#3 then .ok (.fixed .towardNeg)
  else .error .reservedField

/-- The `eee` code of a rounding suffix (R111, D8). -/
def RndSel.code : RndSel → BitVec 3
  | .fromFcr => 0b000#3
  | .fixed .nearestEven => 0b100#3
  | .fixed .towardZero => 0b101#3
  | .fixed .towardPos => 0b110#3
  | .fixed .towardNeg => 0b111#3

/-- `SREG_CODE` in the `ss` field of AND and IOR (R110, D7): FSR 0, FCR 2, FEAR 3; 1 is reserved. -/
def sregOfCode (c : BitVec 2) : Except DecodeRefusal SReg :=
  if c = 0#2 then .ok .fsr
  else if c = 2#2 then .ok .fcr
  else if c = 3#2 then .ok .fear
  else .error .reservedField

/-- The `ss` code of a special register (R110, D7). -/
def SReg.code : SReg → BitVec 2
  | .fsr => 0#2
  | .fcr => 2#2
  | .fear => 3#2

/-- `R_SPECIAL` and `SREG_CODE` for a source (R110, D6, D7): FSR 0, FSRH 1, FCR 2, FEAR 3. -/
def copSrcOf (r : BitVec 1) (n : BitVec 5) : Except DecodeRefusal CopSrc :=
  if r ≠ rSpecial then .ok (.f n)
  else if n = 0#5 then .ok .fsr
  else if n = 1#5 then .ok .fsrh
  else if n = 2#5 then .ok .fcr
  else if n = 3#5 then .ok .fear
  else .error .reservedField

/-- The `R` bit of a source. -/
def CopSrc.rBit : CopSrc → BitVec 1
  | .f _ => ~~~rSpecial
  | .fsr | .fsrh | .fcr | .fear => rSpecial

/-- The 5-bit field of a source. -/
def CopSrc.code : CopSrc → BitVec 5
  | .f r => r
  | .fsr => 0#5
  | .fsrh => 1#5
  | .fcr => 2#5
  | .fear => 3#5

/-- A destination (R110, R33): as a source, but FSRH is reserved. -/
def copDstOf (r : BitVec 1) (n : BitVec 5) : Except DecodeRefusal CopDst :=
  if r ≠ rSpecial then .ok (.f n)
  else if n = 0#5 then .ok .fsr
  else if n = 2#5 then .ok .fcr
  else if n = 3#5 then .ok .fear
  else .error .reservedField

/-- The `R` bit of a destination. -/
def CopDst.rBit : CopDst → BitVec 1
  | .f _ => ~~~rSpecial
  | .fsr | .fcr | .fear => rSpecial

/-- The 5-bit field of a destination. -/
def CopDst.code : CopDst → BitVec 5
  | .f r => r
  | .fsr => 0#5
  | .fcr => 2#5
  | .fear => 3#5

/-- A destination of `MOV.l lit32` (R110, R270, D44): FSRH and FEAR are reserved. -/
def litDstOf (r : BitVec 1) (n : BitVec 5) : Except DecodeRefusal LitDst :=
  if r ≠ rSpecial then .ok (.f n)
  else if n = 0#5 then .ok .fsr
  else if n = 2#5 then .ok .fcr
  else .error .reservedField

/-- The `R` bit of a literal's destination. -/
def LitDst.rBit : LitDst → BitVec 1
  | .f _ => ~~~rSpecial
  | .fsr | .fcr => rSpecial

/-- The 5-bit field of a literal's destination. -/
def LitDst.code : LitDst → BitVec 5
  | .f r => r
  | .fsr => 0#5
  | .fcr => 2#5

/-- `AMODE_CODE` with the `wwww` field (R112, D10): modes 0 to 6; 7 is reserved, `wwww` is 0 unless the mode is 6, and
is not 15 with mode 6. -/
def wOperandOf (mode : BitVec 3) (n b : WReg) : Except DecodeRefusal WOperand :=
  if mode = 6#3 then (if b = 15#4 then .error .reservedField else .ok (.indexed n b))
  else if b ≠ 0#4 then .error .reservedField
  else if mode = 0#3 then .ok (.reg n)
  else if mode = 1#3 then .ok (.ind n)
  else if mode = 2#3 then .ok (.postInc n)
  else if mode = 3#3 then .ok (.postDec n)
  else if mode = 4#3 then .ok (.preDec n)
  else if mode = 5#3 then .ok (.preInc n)
  else .error .reservedField

/-- The mode code of a W operand (R112, D10). -/
def WOperand.mode : WOperand → BitVec 3
  | .reg _ => 0#3
  | .ind _ => 1#3
  | .postInc _ => 2#3
  | .postDec _ => 3#3
  | .preDec _ => 4#3
  | .preInc _ => 5#3
  | .indexed _ _ => 6#3

/-- The W register a W operand names. -/
def WOperand.base : WOperand → WReg
  | .reg n | .ind n | .postInc n | .postDec n | .preDec n | .preInc n | .indexed n _ => n

/-- The `wwww` field of a W operand: the offset register, 0 where the mode has none. -/
def WOperand.offset : WOperand → WReg
  | .indexed _ b => b
  | .reg _ | .ind _ | .postInc _ | .postDec _ | .preDec _ | .preInc _ => 0#4

/-! ## The grid of the FP formats (R114, second table) -/

/-- A cell of the grid of bits 31:25 against bits 3:0. -/
inductive FpOp where
  | add | sub | max | maxnm | min | minnm | mac | mul | div | movF | movc | abs | neg | sqrt | cpq | cps
  | sin | cos | f2li | f2di | li2f | di2f | andLit | iorLit | flim | tst
deriving DecidableEq, Repr

/-- Bits 31:25 of a cell. -/
def FpOp.group : FpOp → BitVec 7
  | .add | .sub => 0b1000000#7
  | .max | .maxnm | .min | .minnm => 0b1000001#7
  | .mac | .mul | .div => 0b1000010#7
  | .movF | .movc => 0b1000011#7
  | .abs | .neg | .sqrt => 0b1000100#7
  | .cpq | .cps => 0b1000101#7
  | .sin | .cos => 0b1000110#7
  | .f2li | .f2di | .li2f | .di2f => 0b1000111#7
  | .andLit | .iorLit => 0b1001000#7
  | .flim => 0b1001001#7
  | .tst => 0b1001010#7

/-- Bits 3:0 of a cell. -/
def FpOp.minor : FpOp → BitVec 4
  | .add | .max | .mac | .movF | .abs | .sin | .f2li | .andLit | .flim | .tst => 0b0010#4
  | .sub | .maxnm | .mul | .movc | .neg | .cos | .f2di | .iorLit => 0b0110#4
  | .min | .div | .sqrt | .cpq | .li2f => 0b1010#4
  | .minnm | .cps | .di2f => 0b1110#4

/-- Every cell that holds an instruction. -/
def FpOp.all : List FpOp :=
  [.add, .sub, .max, .maxnm, .min, .minnm, .mac, .mul, .div, .movF, .movc, .abs, .neg, .sqrt, .cpq, .cps,
    .sin, .cos, .f2li, .f2di, .li2f, .di2f, .andLit, .iorLit, .flim, .tst]

/-- The cell that bits 31:25 and 3:0 select; the other cells hold no instruction (R115 (a)). -/
def fpOpOf (group : BitVec 7) (minor : BitVec 4) : Option FpOp :=
  FpOp.all.find? fun op => op.group == group && op.minor == minor

/-- The `U` positions of a cell's row (R108, R114: the column `u_mask`). -/
def FpOp.uMask : FpOp → BitVec 32
  | .add | .sub | .max | .maxnm | .min | .minnm | .mac | .mul | .div | .flim => 0x00000070#32
  | .abs | .neg | .sqrt | .sin | .cos | .movF => 0x00000FF0#32
  | .cpq | .cps => 0x003E0070#32
  | .tst => 0x003E0FF0#32
  | .f2li | .f2di | .li2f | .di2f => 0x00000F80#32
  | .movc => 0x0001FE00#32
  | .andLit | .iorLit => 0x01000000#32

/-! ## Fields -/

/-- Bit `P`, 24. -/
def fieldP (w : BitVec 32) : Prec := precOfBit (w.extractLsb' 24 1)
/-- Field `Fd`, 21:17. -/
def fieldD (w : BitVec 32) : FReg := w.extractLsb' 17 5
/-- Field `Fs`, 16:12. -/
def fieldS (w : BitVec 32) : FReg := w.extractLsb' 12 5
/-- Field `Fb`, 11:7. -/
def fieldB (w : BitVec 32) : FReg := w.extractLsb' 7 5

/-! ## The decoder (R116) -/

/-- The parity and offset-register check on a decoded term (R117), last in the order of R116 (4). -/
def checkForm (i : Instr) : Decoded :=
  match i.formError with
  | none => .ok i
  | some .oddPairRegister => .error .oddPairRegister
  | some .reservedField => .error .reservedField

/-- A conversion: its `eee` field, then the term (R96, R111). -/
def conversion (w : BitVec 32) (mk : RndSel → Instr) : Decoded :=
  match rndOfCode (w.extractLsb' 4 3) with
  | .error e => .error e
  | .ok r => .ok (mk r)

/-- COS and SIN: `P` = double is reserved (R115 (e)). -/
def singleOnly (w : BitVec 32) (i : Instr) : Decoded :=
  match fieldP w with
  | .single => .ok i
  | .double => .error .reservedField

/-- AND and IOR: the `ss` field, then the term (R98, R104). -/
def specialLit (w : BitVec 32) (mk : BitVec 16 → SReg → Instr) : Decoded :=
  match sregOfCode (w.extractLsb' 20 2) with
  | .error e => .error e
  | .ok r => .ok (mk (w.extractLsb' 4 16) r)

/-- The term of a word whose cell is known: fields of the cell's format, reserved field values refused. -/
def fpTerm (op : FpOp) (w : BitVec 32) : Decoded :=
  match op with
  | .add => .ok (.add (fieldP w) (fieldB w) (fieldS w) (fieldD w))
  | .sub => .ok (.sub (fieldP w) (fieldB w) (fieldS w) (fieldD w))
  | .max => .ok (.max (fieldP w) (fieldB w) (fieldS w) (fieldD w))
  | .maxnm => .ok (.maxnm (fieldP w) (fieldB w) (fieldS w) (fieldD w))
  | .min => .ok (.min (fieldP w) (fieldB w) (fieldS w) (fieldD w))
  | .minnm => .ok (.minnm (fieldP w) (fieldB w) (fieldS w) (fieldD w))
  | .mac => .ok (.mac (fieldP w) (fieldB w) (fieldS w) (fieldD w))
  | .mul => .ok (.mul (fieldP w) (fieldB w) (fieldS w) (fieldD w))
  | .div => .ok (.div (fieldP w) (fieldB w) (fieldS w) (fieldD w))
  | .flim => .ok (.flim (fieldP w) (fieldB w) (fieldS w) (fieldD w))
  | .movF => .ok (.movF (fieldP w) (fieldS w) (fieldD w))
  | .abs => .ok (.abs (fieldP w) (fieldS w) (fieldD w))
  | .neg => .ok (.neg (fieldP w) (fieldS w) (fieldD w))
  | .sqrt => .ok (.sqrt (fieldP w) (fieldS w) (fieldD w))
  | .sin => singleOnly w (.sin (fieldS w) (fieldD w))
  | .cos => singleOnly w (.cos (fieldS w) (fieldD w))
  | .cpq => .ok (.cpq (fieldP w) (fieldB w) (fieldS w))
  | .cps => .ok (.cps (fieldP w) (fieldB w) (fieldS w))
  | .tst => .ok (.tst (fieldP w) (fieldS w))
  | .movc => .ok (.movc (fieldP w) (w.extractLsb' 4 5) (fieldD w))
  | .f2li => conversion w fun r => .f2li (fieldP w) r (fieldS w) (fieldD w)
  | .f2di => conversion w fun r => .f2di (fieldP w) r (fieldS w) (fieldD w)
  | .li2f => conversion w fun r => .li2f (fieldP w) r (fieldS w) (fieldD w)
  | .di2f => conversion w fun r => .di2f (fieldP w) r (fieldS w) (fieldD w)
  | .andLit => specialLit w .andLit
  | .iorLit => specialLit w .iorLit

/-- The checks of R116 (4) in their order: `zz`, the `U` bits, reserved field values (in `term`), register parity. -/
def checked (zz : BitVec 2) (uBits : BitVec 32) (term : Decoded) : Decoded :=
  if zz ≠ 0#2 then .error .notThisCoprocessor
  else if uBits ≠ 0#32 then .error .nonZeroU
  else match term with
    | .error e => .error e
    | .ok i => checkForm i

/-- The FP formats (R92 to R98): `zz` at 23:22. -/
def decodeFp (w : BitVec 32) : Decoded :=
  match fpOpOf (w.extractLsb' 25 7) (w.extractLsb' 0 4) with
  | none => .error .noSuchOpcode
  | some op => checked (w.extractLsb' 22 2) (w &&& op.uMask) (fpTerm op w)

/-- Format FBR (R99): `zz` at 3:2, no `U` bit. -/
def decodeFbr (w : BitVec 32) : Decoded :=
  checked (w.extractLsb' 2 2) 0#32 (.ok (.fbra (w.extractLsb' 24 4) (w.extractLsb' 4 20)))

/-- Format MVO (R100), and the second word of format MVL met on its own, which stands for no instruction of the map:
where it has the shape of such a word it is the term whose meaning is the refusal (R115 (a), notes/assumptions/19). -/
def decodeMvo (w : BitVec 32) : Decoded :=
  if w.extractLsb' 25 7 = 0b1000011#7 then
    checked (w.extractLsb' 2 2) 0#32
      (.ok (.movStore (w.extractLsb' 20 5) (w.extractLsb' 16 4) (w.extractLsb' 4 12)))
  else if w.extractLsb' 25 7 = 0b1000010#7 then
    checked (w.extractLsb' 2 2) 0#32
      (.ok (.movLoad (w.extractLsb' 16 4) (w.extractLsb' 4 12) (w.extractLsb' 20 5)))
  else if w.extractLsb' 25 7 = 0b1000001#7 ∧ w.extractLsb' 0 3 = 0b101#3 ∧ w &&& 0x00081C00#32 = 0#32 then
    match litDstOf (w.extractLsb' 3 1) (w.extractLsb' 20 5) with
    | .error _ => .error .noSuchOpcode
    | .ok d => .ok (.movLitWord2 (w.extractLsb' 13 6 ++ w.extractLsb' 4 6) d)
  else .error .noSuchOpcode

/-- The term of a word of format MVX, from coprocessor (R101, R267). -/
def movFromCopTerm (w : BitVec 32) : Decoded :=
  match copSrcOf (w.extractLsb' 5 1) (w.extractLsb' 20 5),
      wOperandOf (w.extractLsb' 10 3) (w.extractLsb' 16 4) (w.extractLsb' 6 4) with
  | .ok c, .ok o => .ok (.movFromCop c o)
  | .error e, _ => .error e
  | _, .error e => .error e

/-- The term of a word of format MVX, to coprocessor (R101, R269). -/
def movToCopTerm (w : BitVec 32) : Decoded :=
  match copDstOf (w.extractLsb' 5 1) (w.extractLsb' 20 5),
      wOperandOf (w.extractLsb' 13 3) (w.extractLsb' 16 4) (w.extractLsb' 6 4) with
  | .ok c, .ok o => .ok (.movToCop o c)
  | .error e, _ => .error e
  | _, .error e => .error e

/-- Bits 31:25 of format MVX from coprocessor (R101), the `S` bit on top. -/
def mvxOutGroup : BitVec 7 := s32 ++ 0b000011#6

/-- Bits 31:25 of format MVX to coprocessor (R101), the `S` bit on top. -/
def mvxInGroup : BitVec 7 := s32 ++ 0b000010#6

/-- Format MVX (R101) with `S` = `S_32` (D3): `zz` at 3:2. -/
def decodeMvx (w : BitVec 32) : Decoded :=
  if w.extractLsb' 25 7 = mvxOutGroup then
    checked (w.extractLsb' 2 2) (w &&& 0x0000E010#32) (movFromCopTerm w)
  else if w.extractLsb' 25 7 = mvxInGroup then
    checked (w.extractLsb' 2 2) (w &&& 0x00001C10#32) (movToCopTerm w)
  else .error .noSuchOpcode

/-- A 32-bit word that is not the first word of format MVL (R116 (3)). -/
def decode32 (w : BitVec 32) : Decoded :=
  if w.extractLsb' 0 2 = 0b10#2 then
    (if w.extractLsb' 28 4 = 0b1011#4 then decodeFbr w else decodeFp w)
  else if w.extractLsb' 0 2 = 0b01#2 then decodeMvo w
  else if w.extractLsb' 0 2 = 0b00#2 then decodeMvx w
  else .error .noSuchOpcode

/-- The first word of format MVL, `zz` apart (R102, R116 (3)). -/
def isMvlFirst (w : BitVec 32) : Bool := w.extractLsb' 25 7 == 0b1000001#7 && w.extractLsb' 0 3 == 0b001#3

/-- The two words of format MVL (R102, R106): `zz` is split over bits 24 and 3 of the first word, and a second word
that does not match its row makes the whole `noSuchOpcode` (R115 (h)). -/
def decodeMvl (w w2 : BitVec 32) : Decoded :=
  if w2.extractLsb' 25 7 = 0b1000001#7 ∧ w2.extractLsb' 0 3 = 0b101#3 then
    checked (w.extractLsb' 24 1 ++ w.extractLsb' 3 1) (w2 &&& 0x00081C00#32)
      (match litDstOf (w2.extractLsb' 3 1) (w2.extractLsb' 20 5) with
        | .error e => .error e
        | .ok d => .ok (.movLit (w2.extractLsb' 13 6 ++ w2.extractLsb' 4 6 ++ w.extractLsb' 4 20) d))
  else .error .noSuchOpcode

/-- A 16-bit instruction (R103, R116 (2)); format MVX with the other `S` bit, `0000 010x` and `0000 011x`, is the short
form of `MOV.l` (R115 (f)). -/
def decode16 (h : PsWord) : Decoded :=
  if h.extractLsb' 9 7 = 0b0010011#7 then
    checked (h.extractLsb' 2 2) ((h &&& 0x0001#16).setWidth 32)
      (match copSrcOf (h.extractLsb' 1 1) (h.extractLsb' 4 5) with
        | .error e => .error e
        | .ok c => .ok (.push c))
  else if h.extractLsb' 9 7 = 0b0010111#7 then
    checked (h.extractLsb' 2 2) ((h &&& 0x0001#16).setWidth 32)
      (match copDstOf (h.extractLsb' 1 1) (h.extractLsb' 4 5) with
        | .error e => .error e
        | .ok c => .ok (.pop c))
  else if h.extractLsb' 9 7 = ~~~s32 ++ 0b000010#6 ∨ h.extractLsb' 9 7 = ~~~s32 ++ 0b000011#6 then .error .shortFormNotGiven
  else .error .noSuchOpcode

/-- A 32-bit word from its PS words in fetch order (R72, `IFETCH`). -/
def joinHalves (first second : PsWord) : BitVec 32 :=
  match ifetch with
  | .upperFirst => first ++ second
  | .lowerFirst => second ++ first

/-- The decoder on PS words in fetch order (R72, R91, R116): bit 15 of the first tells the length, and only the first word of format MVL asks for two more PS words. -/
def decode : List PsWord → Decoded
  | [] => .error .truncated
  | h :: rest =>
    if h.extractLsb' 15 1 ≠ s32 then decode16 h
    else match rest with
      | [] => .error .truncated
      | l :: rest' =>
        if isMvlFirst (joinHalves h l) then
          match rest' with
          | h2 :: l2 :: _ => decodeMvl (joinHalves h l) (joinHalves h2 l2)
          | [_] | [] => .error .truncated
        else decode32 (joinHalves h l)

/-- A PS word from its bytes in address order (R72, `ENDIAN`). -/
def psWordOf (first second : Byte) : PsWord :=
  match endian with
  | .little => second ++ first
  | .big => first ++ second

/-- The bytes of a PS word in address order (R72, `ENDIAN`). -/
def bytesOf (h : PsWord) : List Byte :=
  match endian with
  | .little => [h.extractLsb' 0 8, h.extractLsb' 8 8]
  | .big => [h.extractLsb' 8 8, h.extractLsb' 0 8]

/-- PS words from the bytes of program space. -/
def psWords : List Byte → List PsWord
  | a :: b :: rest => psWordOf a b :: psWords rest
  | [_] | [] => []

/-- The bytes of PS words, in the order `psWords` reads them. -/
def psBytes : List PsWord → List Byte
  | [] => []
  | h :: rest => bytesOf h ++ psBytes rest

/-- The decoder on the bytes of program space. -/
def decodeBytes (bs : List Byte) : Decoded := decode (psWords bs)

/-! ## The encoder -/

/-- Formats FP3, FP2, FPC, FPT and FPV (R92 to R96), the fields a format lacks being its `U` bits, 0. -/
def fpWord (op : FpOp) (p : Prec) (d s b : FReg) (e : BitVec 3) : BitVec 32 :=
  op.group ++ p.bit ++ 0#2 ++ d ++ s ++ b ++ e ++ op.minor

/-- Format FPK (R97). -/
def fpkWord (op : FpOp) (p : Prec) (d : FReg) (index : BitVec 5) : BitVec 32 :=
  op.group ++ p.bit ++ 0#2 ++ d ++ 0#8 ++ index ++ op.minor

/-- Format FPL (R98). -/
def fplWord (op : FpOp) (r : SReg) (lit : BitVec 16) : BitVec 32 :=
  op.group ++ 0#1 ++ 0#2 ++ r.code ++ lit ++ op.minor

/-- Format FBR (R99). -/
def fbrWord (cond : BitVec 4) (slit20 : BitVec 20) : BitVec 32 := 0b1011#4 ++ cond ++ slit20 ++ 0#2 ++ 0b10#2

/-- Format MVO (R100); `group` tells the store (`1000 011`) from the load (`1000 010`). -/
def mvoWord (group : BitVec 7) (f : FReg) (w : WReg) (k12 : BitVec 12) : BitVec 32 :=
  group ++ f ++ w ++ k12 ++ 0#2 ++ 0b01#2

/-- Format MVX from coprocessor (R101): `qqq` at 12:10. -/
def mvxOutWord (c : CopSrc) (o : WOperand) : BitVec 32 :=
  mvxOutGroup ++ c.code ++ o.base ++ 0#3 ++ o.mode ++ o.offset ++ c.rBit ++ 0#1 ++ 0#2 ++ 0b00#2

/-- Format MVX to coprocessor (R101): `ppp` at 15:13. -/
def mvxInWord (o : WOperand) (c : CopDst) : BitVec 32 :=
  mvxInGroup ++ c.code ++ o.base ++ o.mode ++ 0#3 ++ o.offset ++ c.rBit ++ 0#1 ++ 0#2 ++ 0b00#2

/-- Format MVL, first word (R102, R106): `lit32[19:0]`. -/
def mvlWord1 (lit : BitVec 32) : BitVec 32 :=
  0b1000001#7 ++ 0#1 ++ lit.extractLsb' 0 20 ++ 0#1 ++ 0b001#3

/-- Format MVL, second word (R102, R106), from `lit32[31:20]`. -/
def mvlWord2 (hi : BitVec 12) (d : LitDst) : BitVec 32 :=
  0b1000001#7 ++ d.code ++ 0#1 ++ hi.extractLsb' 6 6 ++ 0#3 ++ hi.extractLsb' 0 6 ++ d.rBit ++ 0b101#3

/-- Format STK (R103); `group` tells PUSH (`0010 011`) from POP (`0010 111`). -/
def stkWord (group : BitVec 7) (c : BitVec 5) (r : BitVec 1) : PsWord := group ++ c ++ 0#2 ++ r ++ 0#1

/-- A 32-bit word as PS words in fetch order (R72, `IFETCH`). -/
def halves (w : BitVec 32) : List PsWord :=
  match ifetch with
  | .upperFirst => [w.extractLsb' 16 16, w.extractLsb' 0 16]
  | .lowerFirst => [w.extractLsb' 0 16, w.extractLsb' 16 16]

/-- The machine words of an instruction, every `zz` and `U` bit 0, as PS words in fetch order. -/
def encode : Instr → List PsWord
  | .abs p fs fd => halves (fpWord .abs p fd fs 0#5 0#3)
  | .add p fb fs fd => halves (fpWord .add p fd fs fb 0#3)
  | .andLit lit r => halves (fplWord .andLit r lit)
  | .cos fs fd => halves (fpWord .cos .single fd fs 0#5 0#3)
  | .cpq p fb fs => halves (fpWord .cpq p 0#5 fs fb 0#3)
  | .cps p fb fs => halves (fpWord .cps p 0#5 fs fb 0#3)
  | .di2f p rnd fs fd => halves (fpWord .di2f p fd fs 0#5 rnd.code)
  | .div p fb fs fd => halves (fpWord .div p fd fs fb 0#3)
  | .flim p fb fs fd => halves (fpWord .flim p fd fs fb 0#3)
  | .f2di p rnd fs fd => halves (fpWord .f2di p fd fs 0#5 rnd.code)
  | .f2li p rnd fs fd => halves (fpWord .f2li p fd fs 0#5 rnd.code)
  | .fbra cond slit20 => halves (fbrWord cond slit20)
  | .iorLit lit r => halves (fplWord .iorLit r lit)
  | .li2f p rnd fs fd => halves (fpWord .li2f p fd fs 0#5 rnd.code)
  | .mac p fb fs fd => halves (fpWord .mac p fd fs fb 0#3)
  | .max p fb fs fd => halves (fpWord .max p fd fs fb 0#3)
  | .maxnm p fb fs fd => halves (fpWord .maxnm p fd fs fb 0#3)
  | .min p fb fs fd => halves (fpWord .min p fd fs fb 0#3)
  | .minnm p fb fs fd => halves (fpWord .minnm p fd fs fb 0#3)
  | .movStore fs wnd k12 => halves (mvoWord 0b1000011#7 fs wnd k12)
  | .movF p fs fd => halves (fpWord .movF p fd fs 0#5 0#3)
  | .movc p index fd => halves (fpkWord .movc p fd index)
  | .movFromCop c o => halves (mvxOutWord c o)
  | .movLoad wns k12 fd => halves (mvoWord 0b1000010#7 fd wns k12)
  | .movToCop o c => halves (mvxInWord o c)
  | .movLit lit d => halves (mvlWord1 lit) ++ halves (mvlWord2 (lit.extractLsb' 20 12) d)
  | .movLitWord2 hi d => halves (mvlWord2 hi d)
  | .mul p fb fs fd => halves (fpWord .mul p fd fs fb 0#3)
  | .neg p fs fd => halves (fpWord .neg p fd fs 0#5 0#3)
  | .pop c => [stkWord 0b0010111#7 c.code c.rBit]
  | .push c => [stkWord 0b0010011#7 c.code c.rBit]
  | .sin fs fd => halves (fpWord .sin .single fd fs 0#5 0#3)
  | .sqrt p fs fd => halves (fpWord .sqrt p fd fs 0#5 0#3)
  | .sub p fb fs fd => halves (fpWord .sub p fd fs fb 0#3)
  | .tst p fs => halves (fpWord .tst p 0#5 fs 0#5 0#3)

/-! ## Table words -/

/-- The four PS words of the longest instruction (8 bytes) that a row's bits `w` stand for, `nbits` of them, the rest
0: a 16-bit row is one PS word; otherwise bits 31:0 are the first 32-bit word and bits 63:32 the second. -/
def tableWords (nbits w : Nat) : List PsWord :=
  let v := w % 2 ^ nbits
  if nbits ≤ 16 then [BitVec.ofNat 16 v, 0#16, 0#16, 0#16]
  else halves (BitVec.ofNat 32 v) ++ halves (BitVec.ofNat 32 (v >>> 32))

/-- The instruction the decoder reads from a row's bits, laid out as program space stores them. -/
def decodeTableWord (nbits w : Nat) : Option Instr := (decodeBytes (psBytes (tableWords nbits w))).toOption

end Sys2Proof
end

