-- ==== Sys2Proof/Machine/State.lean ====
section
/-! DEFINITION. The state of the machine as plain data, the outcomes in which a step can stop, and the state after
reset. The fields down to `mem` are the spec's own (10_state.md, 20_memory.md); those after it are the launch
parameters of rule R341 and the draw counter, which are the model's own fields (notes/assumptions/4 to 9, 14). -/

namespace Sys2Proof.Machine

/-- Bytes by address, in one canonical form (`Memory.wf`): addresses strictly rising, all below 2^32. An unlisted
address holds no value, so no entry repeats what an unlisted address reads as. -/
abbrev Memory := List Host.Cell

/-- The seven floating-point exception kinds (R311). -/
inductive Kind where
  /-- Invalid operation. -/
  | inval
  /-- Divide by zero. -/
  | div0
  /-- Overflow. -/
  | ovf
  /-- Underflow. -/
  | udf
  /-- Inexact. -/
  | inx
  /-- A converted integer is out of range. -/
  | hugi
  /-- A source operand is subnormal. -/
  | subo
deriving DecidableEq, Repr

/-- A set of exception kinds: the Status Affected list of an instruction, or what one execution signals (R141). -/
structure Kinds where
  inval : Bool := false
  div0 : Bool := false
  ovf : Bool := false
  udf : Bool := false
  inx : Bool := false
  hugi : Bool := false
  subo : Bool := false
deriving DecidableEq, Repr

/-- A range of data addresses, part of the launch memory (R75). -/
structure Region where
  base : Nat
  size : Nat
deriving DecidableEq, Repr

/-- A test on FSR[31:16]: the bits of `mask` have the values of `value` (R293). -/
structure FlagTest where
  mask : BitVec 16
  value : BitVec 16
deriving DecidableEq, Repr

/-- A predicate on FSR[31:16]: one of the tests holds. Every predicate on 16 bits is a list of such tests (R293). -/
abbrev Condition := List FlagTest

/-- What the launch says of `FBRA_COND` at one code (R293, R341; notes/assumptions/9). -/
inductive CondEntry where
  /-- The launch says nothing: the map is what the uninterpreted `Config.fbraCond` says, a predicate or nothing. -/
  | unstated
  /-- The map is undefined here: FBRA is refused (`UnknownCondition`). -/
  | absent
  /-- The predicate. -/
  | given (c : Condition)
deriving DecidableEq, Repr

/-- The machine's state. -/
structure State where
  /-- F0 to F31 (R20). -/
  f : Vector Word 32
  /-- W0 to W15; W15 is the stack pointer (R23, R24). -/
  w : Vector WWord 16
  /-- The byte address, in program space, of the next instruction (R25). -/
  pc : PcWord
  /-- Exception status [6:0], sticky status [14:8], compare flags [19:16], test flags [28:24]; the other bits are
  storage (R27 to R32). -/
  fsr : Word
  /-- Exception masks [6:0], rounding mode [9:8]; the other bits are storage (R34). -/
  fcr : Word
  /-- The third special register (R35). -/
  fear : Word
  /-- Data memory: the bytes of data space that hold a known value (R60, R75). -/
  mem : Memory
  /-- The program image, in bytes (R72); no instruction writes it. -/
  prog : Memory
  /-- Launch memory: the data addresses that may be read (R75). -/
  readable : List Region
  /-- Launch memory: the data addresses that may be written (R75). -/
  writable : List Region
  /-- `FBRA_COND`, as far as the launch gives it (R293, R341). -/
  condTable : Vector CondEntry 16
  /-- The end address of the launch (R343). -/
  endAddr : Option PcWord
  /-- An instruction has completed with `pc` at the end address: the run is complete (R343). -/
  complete : Bool
  /-- The place at which the next instruction reads the streams of drawn values (R9; the model's own field). -/
  draws : Nat
deriving DecidableEq, Repr

/-- The ways a step stops with a fault. -/
inductive Fault where
  /-- R314: an instruction signalled the kinds `sig` and one of them is trap-enabled. Raised by every instruction that
  calls `Signal`, in `trapOr`. The spec gives no handler, and no claim may read the state there. Safe: the
  spec ends the run. -/
  | fpuTrap (sig : Kinds)
  /-- R63, R64: a long-word access at an address that is not a multiple of 4. Raised by the memory forms of `MOV.l`, by
  `POP.l` and `PUSH.l`. Safe: nothing is said of what follows. -/
  | addressError (addr : WWord)
  /-- R64, R75: the stuck state of an access that the launch memory does not admit. Raised by the same instructions.
  Safe: the spec gives the agent no step. -/
  | notAdmitted (addr : WWord)
  /-- R72, U22: the stuck state of a fetch from an address the program image does not define. Raised by the step.
  Safe: the spec gives the agent no step. -/
  | fetchUndefined (pc : PcWord)
  /-- R343: the run is complete; the instruction at the end address is not executed. Raised by the step. Not an error:
  the final state is the state in which it is raised. Safe. -/
  | runComplete
deriving DecidableEq, Repr

/-- The ways a step is refused: the spec gives the word no meaning (R115). -/
inductive Refusal where
  /-- No meaning has been written for the instruction: raised by an arm of `exec` only, and by none when every
  instruction is modelled. Safe. -/
  | notModelled (mnemonic : String)
  /-- R115 (a), (h): no row of the opcode map. Raised by the decoder, and by the meaning of a second word of
  `MOV.l lit32` met on its own. Safe: no step is claimed. -/
  | noSuchOpcode
  /-- R115 (b), R107: another coprocessor's word. Raised by the decoder. Safe. -/
  | notThisCoprocessor
  /-- R115 (c), R108: a 1 in a `U` position. Raised by the decoder. Safe. -/
  | nonZeroU
  /-- R115 (d), R117: an odd register number for a 64-bit operand. Raised by the decoder, and by `withForm` on a
  term that no word decodes to. Safe. -/
  | oddPairRegister
  /-- R115 (e): a reserved field value. Raised by the decoder, and by `withForm` on a term that no word decodes to.
  Safe. -/
  | reservedField
  /-- R115 (f): a 16-bit form of an indirect `MOV.l`. Raised by the decoder. Safe. -/
  | shortFormNotGiven
  /-- R115 (g), R293: `FBRA_COND` is undefined at the condition code. Raised by FBRA. Safe. -/
  | unknownCondition
deriving DecidableEq, Repr

/-- The outcome of an instruction or of a step. -/
abbrev Outcome := Host.Outcome State Fault Refusal

/-- The whole 32-bit data space as one region. -/
def wholeSpace : Region := { base := 0, size := 2 ^ 32 }

/-- The machine right after reset. The spec gives no reset value for anything (R39, R340); the values here are the
model's choices: registers zero (notes/assumptions/1), FSR and FCR at the start state of the spec's vectors, with every
exception masked (notes/assumptions/2), `pc` zero (notes/assumptions/3), no program (notes/assumptions/4), the whole
data space admitted and no byte of it fixed (notes/assumptions/5, 6), no end address (notes/assumptions/8), no
condition stated (notes/assumptions/9). -/
def State.reset : State where
  f := Vector.replicate 32 0
  w := Vector.replicate 16 0
  pc := 0
  fsr := 0
  fcr := 0x0000007F
  fear := 0
  mem := []
  prog := []
  readable := [wholeSpace]
  writable := [wholeSpace]
  condTable := Vector.replicate 16 .unstated
  endAddr := none
  complete := false
  draws := 0

end Sys2Proof.Machine
end

