-- ==== Sys2Proof/Machine/Float.lean ====
section
/-! DEFINITION. The numbers: formats, classes and exact values (R130 to R132), rounding (R135 to R137), the order of
values (R146), the arithmetic cores of ADD, MUL, MAC, DIV and SQRT (R171 to R176), the conversions to and from integers
(R230, R231) and `TRIG_S` (R252).

An exact value is an integer over a power of two: every finite pattern of a format is a whole number of QUANTA, the
format's smallest subnormal 2^(emin - M), so that sums, products and quotients of values are exact fractions of
integers. -/

namespace Sys2Proof

/-- The width of a format in bits (R130). -/
abbrev Prec.width : Prec → Nat
  | .single => 32
  | .double => 64

/-- `M_f`, the width of the fraction field (R130). -/
def Prec.manBits : Prec → Nat
  | .single => 23
  | .double => 52

/-- `E_f`, the width of the exponent field (R130). -/
def Prec.expBits : Prec → Nat
  | .single => 8
  | .double => 11

/-- `bias_f` (R130). -/
def Prec.bias : Prec → Nat
  | .single => 127
  | .double => 1023

/-- `emin_f = 1 - bias_f` (R130). -/
def Prec.emin (p : Prec) : Int := 1 - (p.bias : Int)

/-- `M_f - emin_f`: a finite value is its quanta divided by two to this power. -/
def Prec.scale : Prec → Nat
  | .single => 149
  | .double => 1074

/-- The exponent field of all ones (R131). -/
def Prec.expMax (p : Prec) : Nat := 2 ^ p.expBits - 1

/-- The magnitude bits of an infinity (R131). -/
def Prec.infMag (p : Prec) : Nat := p.expMax * 2 ^ p.manBits

/-- A bit pattern of a format. -/
abbrev Prec.Pattern (p : Prec) : Type := BitVec p.width

/-- The top bit alone: the sign bit of a pattern (R130). -/
def Prec.signBit (p : Prec) : p.Pattern := BitVec.ofNat p.width (2 ^ (p.width - 1))

end Sys2Proof

namespace Sys2Proof.Machine

variable {p : Prec}

/-! ## Fields, classes, values -/

/-- `sign(x)`: the top bit, for every class (R131). -/
def signOf (x : p.Pattern) : Bool := x.msb

/-- The exponent field (R130). -/
def expField (x : p.Pattern) : Nat := x.toNat / 2 ^ p.manBits % 2 ^ p.expBits

/-- The fraction field (R130). -/
def manField (x : p.Pattern) : Nat := x.toNat % 2 ^ p.manBits

/-- The six classes of patterns (R131). -/
inductive FClass where
  | zero
  | sub
  | norm
  | inf
  | snan
  | qnan
deriving DecidableEq, Repr

/-- `class_f` (R131). -/
def classOf (x : p.Pattern) : FClass :=
  if expField x = 0 then (if manField x = 0 then .zero else .sub)
  else if expField x = p.expMax then
    (if manField x = 0 then .inf else if manField x < 2 ^ (p.manBits - 1) then .snan else .qnan)
  else .norm

/-- Class `snan` or `qnan` (R131). -/
def isNaN (x : p.Pattern) : Bool := classOf x == .snan || classOf x == .qnan

/-- Class `inf` (R131). -/
def isInf (x : p.Pattern) : Bool := classOf x == .inf

/-- Class `zero` (R131). -/
def isZero (x : p.Pattern) : Bool := classOf x == .zero

/-- Class `sub` (R131). -/
def isSub (x : p.Pattern) : Bool := classOf x == .sub

/-- Class `snan` (R131). -/
def isSNaN (x : p.Pattern) : Bool := classOf x == .snan

/-- A finite pattern: class `zero`, `sub` or `norm` (R132). -/
def isFinite (x : p.Pattern) : Bool := isZero x || isSub x || classOf x == .norm

/-- The magnitude of `val_f(x)` in quanta (R132): the fraction for exponent field 0, else the fraction with its leading
one, shifted by the exponent field less one. -/
def magQuanta (x : p.Pattern) : Nat :=
  if expField x = 0 then manField x else (2 ^ p.manBits + manField x) * 2 ^ (expField x - 1)

/-- `val_f(x)` in quanta (R132): `val_f(x) = quanta x / 2^scale`. -/
def quanta (x : p.Pattern) : Int := if signOf x then -(magQuanta x : Int) else (magQuanta x : Int)

/-! ## Patterns -/

/-- The pattern of a sign and magnitude bits. -/
def pack (p : Prec) (neg : Bool) (mag : Nat) : p.Pattern :=
  BitVec.ofNat p.width ((if neg then 2 ^ (p.width - 1) else 0) + mag)

/-- The zero of a sign (R135 step 1). -/
def zeroOf (p : Prec) (neg : Bool) : p.Pattern := pack p neg 0

/-- The infinity of a sign (R131). -/
def infOf (p : Prec) (neg : Bool) : p.Pattern := pack p neg p.infMag

/-- The largest finite number of a sign (R135 step 5). -/
def maxFiniteOf (p : Prec) (neg : Bool) : p.Pattern := pack p neg (p.infMag - 1)

/-- The distinguished qNaN (R140): `DQNAN_S` as the examples print it, `DQNAN_D` the spec's choice (D21). -/
def dqnan : (p : Prec) → p.Pattern
  | .single => 0x7FC00001#32
  | .double => 0x7FF8000000000001#64

/-- The quiet NaN with a given sign and payload: as the bits vary, every pattern of class `qnan` (R131, R139). -/
def quietNaN : (p : Prec) → BitVec 64 → p.Pattern
  | .single, v => v.extractLsb' 22 1 ++ 0x1FF#9 ++ v.extractLsb' 0 22
  | .double, v => v.extractLsb' 51 1 ++ 0xFFF#12 ++ v.extractLsb' 0 51

/-- A pattern with its sign bit inverted (R175, R177). -/
def negate (x : p.Pattern) : p.Pattern := x ^^^ p.signBit

/-- A pattern with its sign bit clear (R170). -/
def magnitude (x : p.Pattern) : p.Pattern := x &&& ~~~p.signBit

/-! ## Sets of kinds -/

/-- The empty set of kinds. -/
def Kinds.none : Kinds := {}

/-- The union of two sets of kinds. -/
def Kinds.union (a b : Kinds) : Kinds where
  inval := a.inval || b.inval
  div0 := a.div0 || b.div0
  ovf := a.ovf || b.ovf
  udf := a.udf || b.udf
  inx := a.inx || b.inx
  hugi := a.hugi || b.hugi
  subo := a.subo || b.subo

/-- Whether a kind is in a set. -/
def Kinds.has (s : Kinds) : Kind → Bool
  | .inval => s.inval
  | .div0 => s.div0
  | .ovf => s.ovf
  | .udf => s.udf
  | .inx => s.inx
  | .hugi => s.hugi
  | .subo => s.subo

/-- A result pattern and the kinds signalled with it. -/
abbrev Result (p : Prec) : Type := p.Pattern × Kinds

/-- The outcome of an invalid operation on non-NaN operands (R140). -/
def invalid (p : Prec) : Result p := (dqnan p, { inval := true })

/-! ## Rounding (R135) -/

/-- `floor(log2 (a / d))` for positive `a` and `d`. -/
def floorLog2 (a d : Nat) : Int :=
  if d ≤ a then ((a / d).log2 : Int) else -((((a + d - 1) / a - 1).log2 : Int) + 1)

/-- R135 step 3, R230 (d): whether the quotient `n` with remainder `r` over `d` is increased by one. -/
def roundsUp (rm : RoundMode) (neg : Bool) (n r d : Nat) : Bool :=
  match rm with
  | .nearestEven => decide (d < 2 * r) || (decide (2 * r = d) && n % 2 == 1)
  | .towardZero => false
  | .towardPos => !neg && decide (0 < r)
  | .towardNeg => neg && decide (0 < r)

/-- `n / d` rounded to a natural number, the sign of the whole being `neg`. -/
def roundQuotient (rm : RoundMode) (neg : Bool) (n d : Nat) : Nat :=
  if roundsUp rm neg (n / d) (n % d) d then n / d + 1 else n / d

/-- R135 step 5: the result of an overflow. -/
def overflowed (p : Prec) (rm : RoundMode) (neg : Bool) : p.Pattern :=
  match rm, neg with
  | .nearestEven, _ | .towardPos, false | .towardNeg, true => infOf p neg
  | .towardZero, _ | .towardPos, true | .towardNeg, false => maxFiniteOf p neg

/-- `qe = max(ex, emin_f)` of R135 step 2. -/
def roundExp (p : Prec) (a d : Nat) : Int := max (floorLog2 a d) p.emin

/-- The numerator of `a / d / ulp`, `ulp = 2^(qe - M_f)` (R135 step 2). -/
def ulpNum (p : Prec) (a d : Nat) : Nat := a * 2 ^ ((p.manBits : Int) - roundExp p a d).toNat

/-- The denominator of `a / d / ulp`. -/
def ulpDen (p : Prec) (a d : Nat) : Nat := d * 2 ^ (roundExp p a d - (p.manBits : Int)).toNat

/-- The magnitude bits of the rounded value, before the overflow test: `n` units in the last place at exponent `qe` are
`(qe - emin_f) * 2^M_f + n` patterns above zero, subnormal or normal, a carry into the exponent included. -/
def roundedMag (p : Prec) (rm : RoundMode) (neg : Bool) (a d : Nat) : Nat :=
  (roundExp p a d - p.emin).toNat * 2 ^ p.manBits + roundQuotient rm neg (ulpNum p a d) (ulpDen p a d)

/-- `TININESS` (R136, D19): tininess is detected before rounding. -/
def tininess : TininessPoint := .beforeRounding

/-- `tiny` of R135 step 2 for the nonzero magnitude `a / d`: below 2^emin, exactly or, under the other value of
`TININESS`, once rounded to the format's precision with an unbounded exponent. -/
def isTiny (p : Prec) (rm : RoundMode) (neg : Bool) (a d : Nat) : Bool :=
  match tininess with
  | .beforeRounding => decide (floorLog2 a d < p.emin)
  | .afterRounding =>
    decide (floorLog2 a d < p.emin - 1) ||
      (decide (floorLog2 a d = p.emin - 1) &&
        decide (roundQuotient rm neg (a * 2 ^ ((p.manBits : Int) + 1 - p.emin).toNat) d < 2 ^ (p.manBits + 1)))

/-- `round_f(rm, q, zs)` for `q = num / den` (R135): UDF when tiny, and only with INX (R136), INX when the delivered
result is not exact (R137). -/
def round (p : Prec) (rm : RoundMode) (num : Int) (den : Nat) (zs : Bool) : Result p :=
  if num = 0 then (zeroOf p zs, Kinds.none)
  else if p.infMag ≤ roundedMag p rm (decide (num < 0)) num.natAbs den then
    (overflowed p rm (decide (num < 0)), { ovf := true, inx := true })
  else
    (pack p (decide (num < 0)) (roundedMag p rm (decide (num < 0)) num.natAbs den),
      { inx := decide (ulpNum p num.natAbs den % ulpDen p num.natAbs den ≠ 0),
        udf := decide (ulpNum p num.natAbs den % ulpDen p num.natAbs den ≠ 0) &&
          isTiny p rm (decide (num < 0)) num.natAbs den })

/-! ## Order (R146) -/

/-- `lt_f(x, y)` (R146). -/
def fLt (x y : p.Pattern) : Bool :=
  !isNaN x && !isNaN y &&
    ((isInf x && signOf x && !(isInf y && signOf y)) ||
      (isInf y && !signOf y && !(isInf x && !signOf x)) ||
      (isFinite x && isFinite y && decide (quanta x < quanta y)))

/-- `eq_f(x, y)` (R146). -/
def fEq (x y : p.Pattern) : Bool := !isNaN x && !isNaN y && !fLt x y && !fLt y x

/-- `tlt_f(x, y)` (R146): `lt_f`, with -0 below +0. -/
def tLt (x y : p.Pattern) : Bool := fLt x y || (isZero x && signOf x && isZero y && !signOf y)

/-! ## Arithmetic cores, for operands that are no NaN -/

/-- The sign of a zero that is the exact sum of addends of signs `a` and `b` (R171 (c)). -/
def zeroSumSign (rm : RoundMode) (a b : Bool) : Bool := if a = b then a else rm == .towardNeg

/-- `add_core_f` (R171). -/
def addCore (p : Prec) (rm : RoundMode) (x y : p.Pattern) : Result p :=
  if isInf x && isInf y && signOf x != signOf y then invalid p
  else if isInf x then (x, Kinds.none)
  else if isInf y then (y, Kinds.none)
  else round p rm (quanta x + quanta y) (2 ^ p.scale) (zeroSumSign rm (signOf x) (signOf y))

/-- `mul_core_f` (R174). -/
def mulCore (p : Prec) (rm : RoundMode) (x y : p.Pattern) : Result p :=
  if (isZero x && isInf y) || (isInf x && isZero y) then invalid p
  else if isInf x || isInf y then (infOf p (signOf x != signOf y), Kinds.none)
  else round p rm (quanta x * quanta y) (2 ^ (2 * p.scale)) (signOf x != signOf y)

/-- `div_core_f` (R172): `x / y`. -/
def divCore (p : Prec) (rm : RoundMode) (x y : p.Pattern) : Result p :=
  if (isZero x && isZero y) || (isInf x && isInf y) then invalid p
  else if isInf x then (infOf p (signOf x != signOf y), Kinds.none)
  else if isInf y then (zeroOf p (signOf x != signOf y), Kinds.none)
  else if isZero y then (infOf p (signOf x != signOf y), { div0 := true })
  else round p rm (quanta x * (quanta y).sign) (quanta y).natAbs (signOf x != signOf y)

/-- `mac_core_f` with `MAC_FUSED` false (R173): the product is rounded, then the sum, and both sets of kinds are reported.
DESIGN CHOICE (notes/assumptions/40): where the rounded product overflows to an infinity opposite to an infinite addend
that set is OVF, INX and INVAL, by R173's `sig = s1 + s2` and against the remark of R315 that INVAL never appears with
OVF or INX. -/
def macUnfused (p : Prec) (rm : RoundMode) (x y c : p.Pattern) : Result p :=
  if (mulCore p rm x y).1 = dqnan p then invalid p
  else ((addCore p rm c (mulCore p rm x y).1).1, (mulCore p rm x y).2.union (addCore p rm c (mulCore p rm x y).1).2)

/-- `mac_core_f` with `MAC_FUSED` true (R173): one rounding. -/
def macFusedCore (p : Prec) (rm : RoundMode) (x y c : p.Pattern) : Result p :=
  if (isZero x && isInf y) || (isInf x && isZero y) then invalid p
  else if isInf x || isInf y then
    (if isInf c && signOf c != (signOf x != signOf y) then invalid p
      else (infOf p (signOf x != signOf y), Kinds.none))
  else if isInf c then (c, Kinds.none)
  else round p rm (quanta c * 2 ^ p.scale + quanta x * quanta y) (2 ^ (2 * p.scale))
    (zeroSumSign rm (signOf x != signOf y) (signOf c))

/-- `mac_core_f` (R173) under the open parameter `MAC_FUSED`. Where both settings give the same result that result is
answered before the parameter is asked, so that a run through such a MAC can be evaluated; the value is that of the
setting in every case (`macCore_fused`, `macCore_unfused`). -/
def macCore (p : Prec) (rm : RoundMode) (x y c : p.Pattern) : Result p :=
  if macFusedCore p rm x y c = macUnfused p rm x y c then macUnfused p rm x y c
  else if Config.macFused then macFusedCore p rm x y c
  else macUnfused p rm x y c

/-- The integer square root of `k`, for `k < 4^fuel`: one binary digit a level. -/
def isqrt (k : Nat) : Nat → Nat
  | 0 => 0
  | fuel + 1 =>
    if (2 * isqrt (k / 4) fuel + 1) * (2 * isqrt (k / 4) fuel + 1) ≤ k then 2 * isqrt (k / 4) fuel + 1
    else 2 * isqrt (k / 4) fuel

/-- The shift that makes `quanta * 2^shift` the `k` of R176: `k >= 2^(2 M_f + 4)`, and the shift plus the scale is even. -/
def sqrtShift : Prec → Nat
  | .single => 51
  | .double => 108

/-- The `k` of R176 with `val_f(x) = k * 2^(2t)`, `2t = -(scale + shift)`. -/
def sqrtRadicand (x : p.Pattern) : Nat := magQuanta x * 2 ^ sqrtShift p

/-- Twice the integer root of the radicand, and one more when it is not exact: a number on the same side of every
rounding boundary as twice the real root (R176). -/
def stickyRoot (k : Nat) : Nat :=
  2 * isqrt k (k.log2 / 2 + 1) +
    (if isqrt k (k.log2 / 2 + 1) * isqrt k (k.log2 / 2 + 1) = k then 0 else 1)

/-- SQRT of an operand that is no NaN (R176). -/
def sqrtCore (p : Prec) (rm : RoundMode) (x : p.Pattern) : Result p :=
  if isZero x then (x, Kinds.none)
  else if signOf x then invalid p
  else if isInf x then (x, Kinds.none)
  else round p rm (stickyRoot (sqrtRadicand x) : Int) (2 ^ ((p.scale + sqrtShift p) / 2 + 1)) false

/-! ## Conversions -/

/-- `val_f(x)` rounded to an integer by `rm` (R230 (d)). -/
def roundToInt (rm : RoundMode) (x : p.Pattern) : Int :=
  if signOf x then -(roundQuotient rm true (magQuanta x) (2 ^ p.scale) : Int)
  else (roundQuotient rm false (magQuanta x) (2 ^ p.scale) : Int)

/-- `ToInt_f(rm, x, N)` (R230). -/
def toInt (rm : RoundMode) (x : p.Pattern) (n : Nat) : BitVec n × Kinds :=
  if isNaN x || isInf x then (BitVec.ofNat n (2 ^ (n - 1)), { inval := true })
  else if isSub x then (0, { subo := true, inx := true })
  else if isZero x then (0, Kinds.none)
  else if (2 : Int) ^ (n - 1) - 1 < roundToInt rm x then
    (BitVec.ofNat n (2 ^ (n - 1) - 1), { hugi := true, inval := true })
  else if roundToInt rm x < -(2 : Int) ^ (n - 1) then
    (BitVec.ofNat n (2 ^ (n - 1)), { hugi := true, inval := true })
  else (BitVec.ofInt n (roundToInt rm x), { inx := decide (magQuanta x % 2 ^ p.scale ≠ 0) })

/-- `FromInt_f(rm, i)` (R231). -/
def fromInt (p : Prec) (rm : RoundMode) (i : Int) : Result p := round p rm i 1 false

/-! ## `TRIG_S` (R252) -/

/-- The single-precision pattern of a sign and a magnitude that is no NaN's. -/
def trigValue (v : Bool × Fin 0x7F800001) : Prec.single.Pattern := pack .single v.1 v.2.val

/-- `TRIG_S.cos` (R252): uninterpreted but for the source's example point; the value is never a NaN. -/
def trigCos (fcr : Word) (x : Prec.single.Pattern) : Result .single :=
  (if x = 0x4016DB6E#32 then 0xBF3530E2#32 else trigValue (Config.trigCos fcr x),
    { inx := (Config.trigCosFlags fcr x).1, udf := (Config.trigCosFlags fcr x).2 })

/-- `TRIG_S.sin` (R252): uninterpreted but for the source's example point; the value is never a NaN. -/
def trigSin (fcr : Word) (x : Prec.single.Pattern) : Result .single :=
  (if x = 0x3F492492#32 then 0x3F351398#32 else trigValue (Config.trigSin fcr x),
    { inx := (Config.trigSinFlags fcr x).1, udf := (Config.trigSinFlags fcr x).2 })

/-- COS and SIN of an operand that is no NaN: an infinity is invalid (R250 (b)). -/
def trigCore (t : Word → Prec.single.Pattern → Result .single) (fcr : Word) (x : Prec.single.Pattern) :
    Result .single :=
  if isInf x then invalid .single else t fcr x

end Sys2Proof.Machine
end

