-- ==== Sys2Proof/Machine/Flags.lean ====
section
/-! DEFINITION. The fields of FSR and FCR and everything that computes them: the exception status and sticky flags
(`Signal`, R141 to R143), the compare flags (R200), the test flags (R208), the mask bits and the rounding mode (R34),
and the Status Affected lists of the instructions. `FSR_LAYOUT`, `STICKY_POS`, `STATUS_POLICY`, `FCR_RND` and `TRAP_ENABLED` are the
spec's defaults (notes/assumptions/20, 21, 22). -/

namespace Sys2Proof.Machine

/-! ## Bit positions -/

/-- The position of a kind in FSR[7:0] and of its mask in FCR (R28, R311, R314; DIV0 and HUGI chosen, D12). -/
def Kind.bit : Kind → Nat
  | .inval => 0
  | .div0 => 1
  | .ovf => 2
  | .udf => 3
  | .inx => 4
  | .hugi => 5
  | .subo => 6

/-- `STICKY_POS` (R31, D13): how far above its status flag the sticky flag of a kind stands. -/
def stickyOffset : Nat := 8

/-- The position of a kind's sticky flag (R31). -/
def Kind.stickyBit (k : Kind) : Nat := k.bit + stickyOffset

/-- The seven kinds. -/
def Kind.all : List Kind := [.inval, .div0, .ovf, .udf, .inx, .hugi, .subo]

/-- The exception status flag of a kind. -/
def statusFlag (fsr : Word) (k : Kind) : Bool := fsr.getLsbD k.bit

/-- The sticky flag of a kind. -/
def stickyFlag (fsr : Word) (k : Kind) : Bool := fsr.getLsbD k.stickyBit

/-- A set of kinds as a word: bit `k.bit` is 1 for each kind `k` of the set. -/
def Kinds.word (s : Kinds) : Word :=
  (BitVec.ofBool s.subo ++ BitVec.ofBool s.hugi ++ BitVec.ofBool s.inx ++ BitVec.ofBool s.udf ++
    BitVec.ofBool s.ovf ++ BitVec.ofBool s.div0 ++ BitVec.ofBool s.inval).setWidth 32

/-! ## Status Affected lists -/

/-- ABS, NEG (R170, R175). -/
def listSign : Kinds := { subo := true }
/-- ADD, SUB, MUL, MAC (R171, R173, R174, R177). -/
def listArith : Kinds := { subo := true, inx := true, udf := true, ovf := true, inval := true }
/-- DIV (R172). -/
def listDiv : Kinds := { subo := true, inx := true, udf := true, ovf := true, div0 := true, inval := true }
/-- SQRT (R176). -/
def listSqrt : Kinds := { subo := true, inx := true, inval := true }
/-- CPQ, CPS, FLIM, MAX, MAXNM, MIN, MINNM (R201 to R207). -/
def listSelect : Kinds := { subo := true, inval := true }
/-- F2DI, F2LI (R233, R234). -/
def listToInt : Kinds := { subo := true, hugi := true, inx := true, inval := true }
/-- DI2F, LI2F (R232, R235). -/
def listFromInt : Kinds := { inx := true }
/-- COS, SIN (R250, R251). -/
def listTrig : Kinds := { subo := true, inx := true, udf := true, inval := true }

/-! ## FCR -/

/-- `FCR_RND` (R34, D9): FCR[9:8]; 0 e, 1 z, 2 p, 3 n. -/
def roundModeOf (fcr : Word) : RoundMode :=
  match fcr.getLsbD 9, fcr.getLsbD 8 with
  | false, false => .nearestEven
  | false, true => .towardZero
  | true, false => .towardPos
  | true, true => .towardNeg

/-- The effective rounding mode of a conversion (R134 (a)). -/
def convMode (r : RndSel) (fcr : Word) : RoundMode :=
  match r with
  | .fromFcr => roundModeOf fcr
  | .fixed m => m

/-- `TRAP_ENABLED(FCR, k)` (R143, R314, D15): the mask bit of the kind is 0. -/
def trapEnabled (fcr : Word) (k : Kind) : Bool := !fcr.getLsbD k.bit

/-- Whether a set of signalled kinds traps: some kind in it is trap-enabled (R141 step 1, R315). -/
def traps (fcr : Word) (sig : Kinds) : Bool := Kind.all.any fun k => trapEnabled fcr k && sig.has k

/-! ## FSR -/

/-- `STATUS_POLICY` (R141 step 2, D14): a listed status flag whose kind is not signalled is cleared. -/
def statusPolicy : StatusPolicy := .overwrite

/-- FSR with the status flags of `list` as `STATUS_POLICY` leaves them before the signalled ones are set. -/
def listedCleared (fsr : Word) (list : Kinds) : Word :=
  match statusPolicy with
  | .overwrite => fsr &&& ~~~list.word
  | .accumulate => fsr

/-- `Signal(L, sig)` steps 2 and 3 on FSR (R141): the status and the sticky flag of each signalled kind are set, a listed
status flag not signalled is as `STATUS_POLICY` says, every other bit keeps its value. -/
def statusWord (fsr : Word) (list sig : Kinds) : Word :=
  listedCleared fsr list ||| sig.word ||| (sig.word <<< stickyOffset)

/-- The four relations of `Compare` (R200). -/
inductive Relation where
  | un
  | eq
  | lt
  | gt
deriving DecidableEq, Repr

/-- `Compare(x, y)` (R200): the sign of `x - y`, or unordered. -/
def compareValues {p : Prec} (x y : p.Pattern) : Relation :=
  if isNaN x || isNaN y then .un
  else if fLt x y then .lt
  else if fLt y x then .gt
  else .eq

/-- The position of a relation's flag in FSR (R29; EQ and GT chosen, D12). -/
def Relation.bit : Relation → Nat
  | .un => 16
  | .eq => 17
  | .lt => 18
  | .gt => 19

/-- The compare flags written as a group: the flag of the relation 1, the other three 0 (R200). -/
def compareWord (fsr : Word) (r : Relation) : Word := (fsr &&& 0xFFF0FFFF#32) ||| (1#32 <<< r.bit)

/-- The five test flags, bits 28 SUB, 27 INF, 26 FN, 25 FZ, 24 FNAN (R30, R208; SUB and FZ chosen, D12); FN is the sign
bit of every class (D45). -/
def testWord {p : Prec} (fsr : Word) (x : p.Pattern) : Word :=
  (fsr &&& 0xE0FFFFFF#32) |||
    ((BitVec.ofBool (isSub x) ++ BitVec.ofBool (isInf x) ++ BitVec.ofBool (signOf x) ++ BitVec.ofBool (isZero x) ++
      BitVec.ofBool (isNaN x)).setWidth 32 <<< 24)

/-- FSRH, the read-only view of FSR (R33). -/
def fsrhOf (fsr : Word) : Word := fsr &&& 0xFFFF0000#32

/-! ## Branch conditions (R293) -/

/-- Whether a test holds of FSR[31:16]. -/
def FlagTest.holds (t : FlagTest) (hi : BitVec 16) : Bool := hi &&& t.mask == t.value

/-- Whether a condition holds of FSR[31:16]. -/
def Condition.holds (c : Condition) (hi : BitVec 16) : Bool := c.any fun t => t.holds hi

/-- FSR[31:16], all that a condition reads (R293). -/
def fsrHigh (fsr : Word) : BitVec 16 := fsr.extractLsb' 16 16

end Sys2Proof.Machine
end

