-- ==== Sys2Proof/Machine/Ops.lean ====
section
/-! DEFINITION. The named operations over registers and memory (R9, R64, R75), the end of an instruction (R26), the
check of a term's form (R117), `Signal` with the taking of a floating-point exception (R141, R314), and the fetch of an
instruction's bytes (R72).

RETURN FROM AN EXCEPTION: the spec has none (R316: "no return-from-exception instruction"; a trap is the terminal
fault of R314), so there is no such operation. -/

namespace Sys2Proof.Machine

/-! ## Registers -/

/-- `F[i]` (R9). -/
def State.readF (s : State) (r : FReg) : Word := s.f[r.toNat]'(r.isLt)

/-- `F[i] <- v` (R9). -/
def State.writeF (s : State) (r : FReg) (v : Word) : State := { s with f := s.f.set r.toNat v (r.isLt) }

/-- `FD[i]` (R9, R21), for even `i`. -/
def State.readFD (s : State) (r : FReg) : BitVec 64 := s.readF (r + 1) ++ s.readF r

/-- `FD[i] <- v` (R9, R21), for even `i`. -/
def State.writeFD (s : State) (r : FReg) (v : BitVec 64) : State :=
  (s.writeF r (v.extractLsb' 0 32)).writeF (r + 1) (v.extractLsb' 32 32)

/-- `RF(i)` (41_arithmetic.md): `F[i]` for `.s`, `FD[i]` for `.d`. -/
def State.readFP (s : State) (p : Prec) (r : FReg) : p.Pattern :=
  match p with
  | .single => s.readF r
  | .double => s.readFD r

/-- `RF(i) <- v`. -/
def State.writeFP (s : State) (p : Prec) (r : FReg) (v : p.Pattern) : State :=
  match p, v with
  | .single, v => s.writeF r v
  | .double, v => s.writeFD r v

/-- `W[i]` (R9). -/
def State.readW (s : State) (r : WReg) : WWord := s.w[r.toNat]'(r.isLt)

/-- `W[i] <- v` (R9). -/
def State.writeW (s : State) (r : WReg) (v : WWord) : State := { s with w := s.w.set r.toNat v (r.isLt) }

/-- The number of the stack pointer, W15 (R24). -/
def sp : WReg := 15#4

/-- The effective mode of FCR.RND (R134 (b)). -/
def State.rm (s : State) : RoundMode := roundModeOf s.fcr

/-! ## The end of an instruction -/

/-- `pc <- pc + len` (R26), and the next place of the drawn values. -/
def State.retire (s : State) (len : Nat) : State :=
  { s with pc := s.pc + BitVec.ofNat pcBits len, draws := s.draws + 1 }

/-- `pc <- target` (R26, R291), and the next place of the drawn values. -/
def State.jump (s : State) (target : PcWord) : State := { s with pc := target, draws := s.draws + 1 }

/-- An instruction whose term is outside the operand sets is refused by the name of R115; no word decodes to one. -/
def withForm (i : Instr) (o : Outcome) : Outcome :=
  match i.formError with
  | none => o
  | some .oddPairRegister => .refused .oddPairRegister
  | some .reservedField => .refused .reservedField

/-! ## Floating-point exceptions -/

/-- TAKING A FLOATING-POINT EXCEPTION (R141 step 1, R314): where a signalled kind is trap-enabled the outcome is the
fault `FpuTrap(sig)`, nothing is written and `pc` still addresses the instruction; otherwise the instruction goes on
to `t`. -/
def trapOr (s : State) (sig : Kinds) (t : State) : Outcome :=
  if traps s.fcr sig then .fault (.fpuTrap sig) else .next t

/-- `Signal(L, sig)` steps 2 to 4 (R141): FSR's status and sticky flags, and FEAR, which is unspecified after any
signalled kind (R35, D33): a drawn value. -/
def State.signalled (s : State) (list sig : Kinds) : State :=
  { s with
    fsr := statusWord s.fsr list sig
    fear := if sig = Kinds.none then s.fear else Config.freeFear s.draws }

/-- The end of a floating-point instruction: `Signal`, then the destination (R141), then `pc` (R26). -/
def deliver (p : Prec) (list : Kinds) (fd : FReg) (r : Result p) (s : State) : Outcome :=
  trapOr s r.2 (((s.signalled list r.2).writeFP p fd r.1).retire 4)

/-- {SUBO} when some operand has class `sub` (R138). -/
def subKinds {p : Prec} (ops : List p.Pattern) : Kinds := { subo := ops.any isSub }

/-- {INVAL} when some operand has class `snan` (R139). -/
def snanKinds {p : Prec} (ops : List p.Pattern) : Kinds := { inval := ops.any isSNaN }

/-- A drawn quiet NaN (R139, `NAN_PAYLOAD`). -/
def drawnNaN (p : Prec) (s : State) : p.Pattern := quietNaN p (Config.freeNaN s.draws)

/-- `NaNcase(L, ops)` of 41_arithmetic.md, and the rule's own result where no operand is a NaN. -/
def arith (p : Prec) (list : Kinds) (fd : FReg) (ops : List p.Pattern) (core : Result p) (s : State) : Outcome :=
  if ops.any isNaN then
    deliver p list fd (drawnNaN p s, (subKinds ops).union (snanKinds ops)) s
  else deliver p list fd (core.1, core.2.union (subKinds ops)) s

/-! ## Memory -/

/-- The value of a byte, if it holds one. -/
def Memory.read : Memory → Nat → Option Byte
  | [], _ => none
  | (k, b) :: m, a => if k = a then some b else Memory.read m a

/-- A byte stored, in address order. -/
def Memory.write : Memory → Nat → Byte → Memory
  | [], a, b => [(a, b)]
  | (k, c) :: m, a, b =>
    if a < k then (a, b) :: (k, c) :: m
    else if a = k then (a, b) :: m
    else (k, c) :: Memory.write m a b

/-- The canonical form of a memory: addresses strictly rising and below 2^32. An unlisted address holds no value, so no
entry can repeat what it reads as. -/
abbrev Memory.wf (m : Memory) : Prop :=
  (m.map Prod.fst).Pairwise (· < ·) ∧ ∀ a ∈ m.map Prod.fst, a < 2 ^ 32

/-- A byte that holds no value yet takes `b`; one that holds a value keeps it (R75). -/
def Memory.settleByte (m : Memory) (a : Nat) (b : Byte) : Memory :=
  match m.read a with
  | some _ => m
  | none => m.write a b

/-- The four bytes of a long word, lowest address first (R62, `ENDIAN`). -/
def longBytes (v : Word) : Byte × Byte × Byte × Byte :=
  match endian with
  | .little => (v.extractLsb' 0 8, v.extractLsb' 8 8, v.extractLsb' 16 8, v.extractLsb' 24 8)
  | .big => (v.extractLsb' 24 8, v.extractLsb' 16 8, v.extractLsb' 8 8, v.extractLsb' 0 8)

/-- The long word of four bytes, lowest address first (R62, `ENDIAN`). -/
def longOf (b0 b1 b2 b3 : Byte) : Word :=
  match endian with
  | .little => b3 ++ b2 ++ b1 ++ b0
  | .big => b0 ++ b1 ++ b2 ++ b3

/-- The bytes of a long word that hold no value yet take those of `v` (R75: drawn at the first read, then kept). -/
def Memory.settleLong (m : Memory) (a : Nat) (v : Word) : Memory :=
  (((m.settleByte a (longBytes v).1).settleByte (a + 1) (longBytes v).2.1).settleByte (a + 2)
    (longBytes v).2.2.1).settleByte (a + 3) (longBytes v).2.2.2

/-- The long word stored at `a`; every byte of it holds a value where this is used. -/
def Memory.readLong (m : Memory) (a : Nat) : Word :=
  longOf ((m.read a).getD 0) ((m.read (a + 1)).getD 0) ((m.read (a + 2)).getD 0) ((m.read (a + 3)).getD 0)

/-- A long word stored at `a` (R62). -/
def Memory.writeLong (m : Memory) (a : Nat) (v : Word) : Memory :=
  (((m.write a (longBytes v).1).write (a + 1) (longBytes v).2.1).write (a + 2) (longBytes v).2.2.1).write (a + 3)
    (longBytes v).2.2.2

/-- Whether an address is in a region. -/
def Region.contains (r : Region) (a : Nat) : Bool := decide (r.base ≤ a) && decide (a < r.base + r.size)

/-- Whether an address is in a set of the launch memory (R75). -/
def inRegions (rs : List Region) (a : Nat) : Bool := rs.any fun r => r.contains a

/-- Whether the four bytes of the long word at `a` are in a set of the launch memory (R75). -/
def admits (rs : List Region) (a : WWord) : Bool :=
  inRegions rs a.toNat && inRegions rs (a.toNat + 1) && inRegions rs (a.toNat + 2) && inRegions rs (a.toNat + 3)

/-- Whether an address is a multiple of 4 (R63). -/
def aligned (a : WWord) : Bool := a.extractLsb' 0 2 == 0#2

/-- `MemRead(addr, 4)` (R64, R75): the alignment check, the admission check, then the value; a byte the launch did not
fix is drawn here and kept. -/
def memRead (s : State) (a : WWord) : Except Fault (Word × State) :=
  if !aligned a then .error (.addressError a)
  else if !admits s.readable a then .error (.notAdmitted a)
  else .ok ((s.mem.settleLong a.toNat (Config.freeLong s.draws)).readLong a.toNat,
    { s with mem := s.mem.settleLong a.toNat (Config.freeLong s.draws) })

/-- `MemWrite(addr, 4, v)` (R64): the same two checks for a write, then the four bytes. -/
def memWrite (s : State) (a : WWord) (v : Word) : Except Fault State :=
  if !aligned a then .error (.addressError a)
  else if !admits s.writable a then .error (.notAdmitted a)
  else .ok { s with mem := s.mem.writeLong a.toNat v }

/-- A load and what follows it; a fault of the access ends the instruction with nothing changed (R317). -/
def loading (s : State) (a : WWord) (next : Word → State → Outcome) : Outcome :=
  match memRead s a with
  | .error e => .fault e
  | .ok (v, t) => next v t

/-- A store and what follows it; a fault of the access ends the instruction with nothing changed (R317). -/
def storing (s : State) (a : WWord) (v : Word) (next : State → Outcome) : Outcome :=
  match memWrite s a v with
  | .error e => .fault e
  | .ok t => next t

/-! ## Program space -/

/-- Up to `n` bytes of the program image from an address on, as far as the image defines them (R72). -/
def Memory.bytesFrom (m : Memory) (a : PcWord) : Nat → List Byte
  | 0 => []
  | n + 1 =>
    match m.read a.toNat with
    | none => []
    | some b => b :: Memory.bytesFrom m (a + 1) n

/-- The bytes of the instruction at `pc`: as many as the longest instruction has (R72, R90). -/
def fetchBytes (s : State) : List Byte := s.prog.bytesFrom s.pc 8

/-- Bytes stored from an address on. -/
def Memory.writeBytes (m : Memory) (a : PcWord) : List Byte → Memory
  | [] => m
  | b :: bs => Memory.writeBytes (m.write a.toNat b) (a + 1) bs

/-- The refusal of a word that decodes to nothing, by the name of R115; a word cut short has none: the step faults. -/
def refusalOf : DecodeRefusal → Outcome
  | .noSuchOpcode => .refused .noSuchOpcode
  | .notThisCoprocessor => .refused .notThisCoprocessor
  | .nonZeroU => .refused .nonZeroU
  | .oddPairRegister => .refused .oddPairRegister
  | .reservedField => .refused .reservedField
  | .shortFormNotGiven => .refused .shortFormNotGiven
  | .truncated => .refused .noSuchOpcode

/-- What stops a step whose fetch or decoding fails (R72, R115). -/
def stopOf (s : State) : DecodeRefusal → Outcome
  | .truncated => .fault (.fetchUndefined s.pc)
  | e => refusalOf e

/-- The run is complete when `pc` is the end address after an instruction completes (R343). -/
def State.noteEnd (s : State) : State := { s with complete := decide (s.endAddr = some s.pc) }

/-- What the step does after an instruction: nothing to a stop, the end test to a next state. -/
def afterExec (o : Outcome) : Outcome :=
  match o with
  | .next t => .next t.noteEnd
  | .fault e => .fault e
  | .refused r => .refused r

end Sys2Proof.Machine
end

