-- ==== Sys2Proof/Machine/Operands.lean ====
section
/-! DEFINITION. The operand forms: coprocessor registers (R260), W operands with their addresses and updates (R261), the
literal offset (R105), the special registers of AND and IOR (R290), the branch target and condition (R291, R293). -/

namespace Sys2Proof.Machine

/-- `CopRead` (R260). -/
def copRead (s : State) : CopSrc → Word
  | .f r => s.readF r
  | .fsr => s.fsr
  | .fsrh => fsrhOf s.fsr
  | .fcr => s.fcr
  | .fear => s.fear

/-- `CopWrite` (R260, D32): a special register is written whole, and nothing is signalled. -/
def copWrite (s : State) (d : CopDst) (v : Word) : State :=
  match d with
  | .f r => s.writeF r v
  | .fsr => { s with fsr := v }
  | .fcr => { s with fcr := v }
  | .fear => { s with fear := v }

/-- `CopWrite` for the destinations of `MOV.l lit32` (R270). -/
def litWrite (s : State) (d : LitDst) (v : Word) : State :=
  match d with
  | .f r => s.writeF r v
  | .fsr => { s with fsr := v }
  | .fcr => { s with fcr := v }

/-- `SREG[ss]` (R290). -/
def sregRead (s : State) : SReg → Word
  | .fsr => s.fsr
  | .fcr => s.fcr
  | .fear => s.fear

/-- `SREG[ss] <- v` (R290). -/
def sregWrite (s : State) (r : SReg) (v : Word) : State :=
  match r with
  | .fsr => { s with fsr := v }
  | .fcr => { s with fcr := v }
  | .fear => { s with fear := v }

/-- `WB_SCALE` (R261, D28): the offset register of `[Wn+Wb]` counts bytes. -/
def wbScale : WWord := 1

/-- The long-word address of a W operand (R261); the register form has none. -/
def operandAddr (s : State) : WOperand → Option WWord
  | .reg _ => none
  | .ind n | .postInc n | .postDec n => some (s.readW n)
  | .preDec n => some (s.readW n - 4)
  | .preInc n => some (s.readW n + 4)
  | .indexed n b => some (s.readW n + wbScale * s.readW b)

/-- The update of the address register of a W operand, after the access (R261). -/
def operandUpdate (s : State) : WOperand → State
  | .reg _ | .ind _ | .indexed _ _ => s
  | .postInc n | .preInc n => s.writeW n (s.readW n + 4)
  | .postDec n | .preDec n => s.writeW n (s.readW n - 4)

/-- `Slit14 = sext_14({k12, 2'b00})` as a 32-bit byte offset (R105). -/
def slit14 (k12 : BitVec 12) : WWord := (k12 ++ 0#2).signExtend wBits

/-- The effective address `W[n] + sext_32(Slit14)` (R105, R262, R268). -/
def offsetAddr (s : State) (n : WReg) (k12 : BitVec 12) : WWord := s.readW n + slit14 k12

/-- The target of a taken FBRA, `pc + 4 + 2 * sext_32(slit20)` (R291). -/
def branchTarget (s : State) (slit20 : BitVec 20) : PcWord := s.pc + 4 + 2 * slit20.signExtend pcBits

/-- `FBRA_COND(bbbb)` (R113, R293): what the launch gives, the uninterpreted map where it says nothing; none where the map
is undefined. -/
def fbraCond (s : State) (b : BitVec 4) : Option (BitVec 16 → Bool) :=
  match s.condTable[b.toNat]'(b.isLt) with
  | .unstated => Config.fbraCond b
  | .absent => none
  | .given c => some fun hi => c.holds hi

end Sys2Proof.Machine
end

