-- ==== Sys2Proof/Machine/Arith.lean ====
section
/-! DEFINITION. The arithmetic instructions ABS, ADD, DIV, MAC, MUL, NEG, SQRT, SUB (41_arithmetic.md). -/

namespace Sys2Proof.Machine

/-- ABS (R170): the sign bit cleared, on the bit pattern; SUBO the only kind. -/
def execAbs (p : Prec) (fs fd : FReg) (s : State) : Outcome :=
  withForm (.abs p fs fd)
    (deliver p listSign fd (magnitude (s.readFP p fs), subKinds [s.readFP p fs]) s)

/-- ADD (R171). -/
def execAdd (p : Prec) (fb fs fd : FReg) (s : State) : Outcome :=
  withForm (.add p fb fs fd)
    (arith p listArith fd [s.readFP p fb, s.readFP p fs] (addCore p s.rm (s.readFP p fb) (s.readFP p fs)) s)

/-- DIV (R172): Fb is the dividend. -/
def execDiv (p : Prec) (fb fs fd : FReg) (s : State) : Outcome :=
  withForm (.div p fb fs fd)
    (arith p listDiv fd [s.readFP p fb, s.readFP p fs] (divCore p s.rm (s.readFP p fb) (s.readFP p fs)) s)

/-- MAC (R173): Fd is the addend and the destination. -/
def execMac (p : Prec) (fb fs fd : FReg) (s : State) : Outcome :=
  withForm (.mac p fb fs fd)
    (arith p listArith fd [s.readFP p fb, s.readFP p fs, s.readFP p fd]
      (macCore p s.rm (s.readFP p fb) (s.readFP p fs) (s.readFP p fd)) s)

/-- MUL (R174). -/
def execMul (p : Prec) (fb fs fd : FReg) (s : State) : Outcome :=
  withForm (.mul p fb fs fd)
    (arith p listArith fd [s.readFP p fb, s.readFP p fs] (mulCore p s.rm (s.readFP p fb) (s.readFP p fs)) s)

/-- NEG (R175): the sign bit inverted, on the bit pattern; SUBO the only kind. -/
def execNeg (p : Prec) (fs fd : FReg) (s : State) : Outcome :=
  withForm (.neg p fs fd)
    (deliver p listSign fd (negate (s.readFP p fs), subKinds [s.readFP p fs]) s)

/-- SQRT (R176). -/
def execSqrt (p : Prec) (fs fd : FReg) (s : State) : Outcome :=
  withForm (.sqrt p fs fd)
    (arith p listSqrt fd [s.readFP p fs] (sqrtCore p s.rm (s.readFP p fs)) s)

/-- SUB (R177): Fb - Fs, as the sum with Fs's sign inverted. -/
def execSub (p : Prec) (fb fs fd : FReg) (s : State) : Outcome :=
  withForm (.sub p fb fs fd)
    (arith p listArith fd [s.readFP p fb, s.readFP p fs]
      (addCore p s.rm (s.readFP p fb) (negate (s.readFP p fs))) s)

end Sys2Proof.Machine
end

