-- ==== Sys2Proof/Machine/Control.lean ====
section
/-! DEFINITION. The special-register logic AND and IOR, and the branch FBRA (46_control_special.md). -/

namespace Sys2Proof.Machine

/-- AND (R290): bits 15:0 of the register, bits 31:16 unchanged; nothing is signalled. -/
def execAndLit (lit : BitVec 16) (r : SReg) (s : State) : Outcome :=
  .next ((sregWrite s r
    ((sregRead s r).extractLsb' 16 16 ++ ((sregRead s r).extractLsb' 0 16 &&& lit))).retire 4)

/-- IOR (R292): bits 15:0 of the register, bits 31:16 unchanged; nothing is signalled. -/
def execIorLit (lit : BitVec 16) (r : SReg) (s : State) : Outcome :=
  .next ((sregWrite s r
    ((sregRead s r).extractLsb' 16 16 ++ ((sregRead s r).extractLsb' 0 16 ||| lit))).retire 4)

/-- FBRA (R291): the branch where the condition holds of FSR[31:16], the next instruction where it does not. The skip
forms of the Operation row are the same targets (R291), and an aborted speculation leaves no effect (R345). -/
def execFbra (cond : BitVec 4) (slit20 : BitVec 20) (s : State) : Outcome :=
  match fbraCond s cond with
  | none => .refused .unknownCondition
  | some c => .next (s.jump (if c (fsrHigh s.fsr) then branchTarget s slit20 else s.pc + 4))

end Sys2Proof.Machine
end

