-- ==== Sys2Proof/Machine/Convert.lean ====
section
/-! DEFINITION. The conversions DI2F, F2DI, F2LI, LI2F (43_convert.md). -/

namespace Sys2Proof.Machine

/-- DI2F (R232): a signed 64-bit integer to floating point. -/
def execDi2f (p : Prec) (rnd : RndSel) (fs fd : FReg) (s : State) : Outcome :=
  withForm (.di2f p rnd fs fd)
    (deliver p listFromInt fd (fromInt p (convMode rnd s.fcr) (s.readFD fs).toInt) s)

/-- LI2F (R235): a signed 32-bit integer to floating point. -/
def execLi2f (p : Prec) (rnd : RndSel) (fs fd : FReg) (s : State) : Outcome :=
  withForm (.li2f p rnd fs fd)
    (deliver p listFromInt fd (fromInt p (convMode rnd s.fcr) (s.readF fs).toInt) s)

/-- F2DI (R233): floating point to a signed 64-bit integer, in the pair of Fd. -/
def execF2di (p : Prec) (rnd : RndSel) (fs fd : FReg) (s : State) : Outcome :=
  withForm (.f2di p rnd fs fd)
    (trapOr s (toInt (convMode rnd s.fcr) (s.readFP p fs) 64).2
      (((s.signalled listToInt (toInt (convMode rnd s.fcr) (s.readFP p fs) 64).2).writeFD fd
        (toInt (convMode rnd s.fcr) (s.readFP p fs) 64).1).retire 4))

/-- F2LI (R234): floating point to a signed 32-bit integer. -/
def execF2li (p : Prec) (rnd : RndSel) (fs fd : FReg) (s : State) : Outcome :=
  withForm (.f2li p rnd fs fd)
    (trapOr s (toInt (convMode rnd s.fcr) (s.readFP p fs) 32).2
      (((s.signalled listToInt (toInt (convMode rnd s.fcr) (s.readFP p fs) 32).2).writeF fd
        (toInt (convMode rnd s.fcr) (s.readFP p fs) 32).1).retire 4))

end Sys2Proof.Machine
end

