-- ==== Sys2Proof/Machine/Move.lean ====
section
/-! DEFINITION. The move instructions: the six forms of MOV, MOVC, POP and PUSH (45_moves.md). None of them interprets the
data it moves, signals an exception or changes a status flag but by writing FSR as a whole. -/

namespace Sys2Proof.Machine

/-- `CONST_S` (R265). -/
def constS : List Word :=
  [0x41200000, 0x3F800000, 0x40000000, 0x40C90FDB, 0x40490FDB, 0x3FC90FDB, 0x3F490FDB, 0x402DF854] ++
  [0x3F317218, 0x40549A78, 0x3FB504F3, 0x3F3504F3, 0xFFFFFFFF, 0xFFC00000, 0xFFBFFFFF, 0xFF800001] ++
  [0xFF800000, 0xFF7FFFFF, 0x80800000, 0x807FFFFF, 0x80000001, 0x80000000, 0x00000000, 0x00000001] ++
  [0x007FFFFF, 0x00800000, 0x7F7FFFFF, 0x7F800000, 0x7F800001, 0x7FBFFFFF, 0x7FC00000, 0x7FFFFFFF]

/-- `CONST_D` (R266). -/
def constD : List (BitVec 64) :=
  [0x4024000000000000, 0x3FF0000000000000, 0x4000000000000000, 0x401921FB54442D18] ++
  [0x400921FB54442D18, 0x3FF921FB54442D18, 0x3FE921FB54442D18, 0x4005BF0A8B145769] ++
  [0x3FE62E42FEFA39EF, 0x400A934F0979A371, 0x3FF6A09E667F3BCD, 0x3FE6A09E667F3BCD] ++
  [0xFFFFFFFFFFFFFFFF, 0xFFF8000000000000, 0xFFF7FFFFFFFFFFFF, 0xFFF0000000000001] ++
  [0xFFF0000000000000, 0xFFEFFFFFFFFFFFFF, 0x8010000000000000, 0x800FFFFFFFFFFFFF] ++
  [0x8000000000000001, 0x8000000000000000, 0x0000000000000000, 0x0000000000000001] ++
  [0x000FFFFFFFFFFFFF, 0x0010000000000000, 0x7FEFFFFFFFFFFFFF, 0x7FF0000000000000] ++
  [0x7FF0000000000001, 0x7FF7FFFFFFFFFFFF, 0x7FF8000000000000, 0x7FFFFFFFFFFFFFFF]

/-- The constant of a precision at an index (R264). -/
def constOf : (p : Prec) → BitVec 5 → p.Pattern
  | .single, i => constS.getD i.toNat 0
  | .double, i => constD.getD i.toNat 0

/-- `MOV.l Fs, [Wnd+Slit14]` (R262). -/
def execMovStore (fs : FReg) (wnd : WReg) (k12 : BitVec 12) (s : State) : Outcome :=
  storing s (offsetAddr s wnd k12) (s.readF fs) fun t => .next (t.retire 4)

/-- `MOV.s Fs, Fd` and `MOV.d Fs, Fd` (R263): a raw copy. -/
def execMovF (p : Prec) (fs fd : FReg) (s : State) : Outcome :=
  withForm (.movF p fs fd) (.next ((s.writeFP p fd (s.readFP p fs)).retire 4))

/-- MOVC (R264). -/
def execMovc (p : Prec) (index : BitVec 5) (fd : FReg) (s : State) : Outcome :=
  withForm (.movc p index fd) (.next ((s.writeFP p fd (constOf p index)).retire 4))

/-- `MOV.l` from a coprocessor register to a W operand (R267). -/
def execMovFromCop (src : CopSrc) (dst : WOperand) (s : State) : Outcome :=
  withForm (.movFromCop src dst)
    (match operandAddr s dst with
      | none => .next ((s.writeW dst.base (copRead s src)).retire 4)
      | some a => storing s a (copRead s src) fun t => .next ((operandUpdate t dst).retire 4))

/-- `MOV.l [Wns+Slit14], Fd` (R268). -/
def execMovLoad (wns : WReg) (k12 : BitVec 12) (fd : FReg) (s : State) : Outcome :=
  loading s (offsetAddr s wns k12) fun v t => .next ((t.writeF fd v).retire 4)

/-- `MOV.l` from a W operand to a coprocessor register (R269). -/
def execMovToCop (src : WOperand) (dst : CopDst) (s : State) : Outcome :=
  withForm (.movToCop src dst)
    (match operandAddr s src with
      | none => .next ((copWrite s dst (s.readW src.base)).retire 4)
      | some a => loading s a fun v t => .next ((copWrite (operandUpdate t src) dst v).retire 4))

/-- `MOV.l lit32, {Fd | FSR | FCR}` (R270). -/
def execMovLit (lit : BitVec 32) (dst : LitDst) (s : State) : Outcome :=
  .next ((litWrite s dst lit).retire 8)

/-- The second word of `MOV.l lit32` met on its own: it stands for no instruction (R115 (a), R270, D44). -/
def execMovLitWord2 (_hi : BitVec 12) (_dst : LitDst) (_s : State) : Outcome := .refused .noSuchOpcode

/-- `POP.l` (R271): the long word below W15, which then addresses it. -/
def execPop (dst : CopDst) (s : State) : Outcome :=
  loading s (s.readW sp - 4) fun v t => .next ((copWrite (t.writeW sp (s.readW sp - 4)) dst v).retire 2)

/-- `PUSH.l` (R272): the long word at W15, which then goes up by 4. -/
def execPush (src : CopSrc) (s : State) : Outcome :=
  storing s (s.readW sp) (copRead s src) fun t => .next ((t.writeW sp (s.readW sp + 4)).retire 2)

end Sys2Proof.Machine
end

