-- ==== Sys2Proof/Machine/Select.lean ====
section
/-! DEFINITION. The compare, limit, select and test instructions CPQ, CPS, FLIM, MAX, MAXNM, MIN, MINNM, TST
(42_compare_select.md). -/

namespace Sys2Proof.Machine

/-- The end of a compare: `Signal`, then the compare flags (R200 to R202). -/
def compareEnd {p : Prec} (sig : Kinds) (x y : p.Pattern) (s : State) : Outcome :=
  trapOr s sig
    ({ s.signalled listSelect sig with
        fsr := compareWord (s.signalled listSelect sig).fsr (compareValues x y) }.retire 4)

/-- CPQ (R201): INVAL for an sNaN operand only. -/
def execCpq (p : Prec) (fb fs : FReg) (s : State) : Outcome :=
  withForm (.cpq p fb fs)
    (compareEnd ((subKinds [s.readFP p fb, s.readFP p fs]).union (snanKinds [s.readFP p fb, s.readFP p fs]))
      (s.readFP p fb) (s.readFP p fs) s)

/-- CPS (R202): INVAL for any NaN operand. -/
def execCps (p : Prec) (fb fs : FReg) (s : State) : Outcome :=
  withForm (.cps p fb fs)
    (compareEnd ((subKinds [s.readFP p fb, s.readFP p fs]).union
        { inval := isNaN (s.readFP p fb) || isNaN (s.readFP p fs) })
      (s.readFP p fb) (s.readFP p fs) s)

/-- FLIM of operands that are no NaN (R203 (b) to (e)). -/
def limitCore (p : Prec) (lo hi c : p.Pattern) : Result p :=
  if fLt hi lo then invalid p
  else if fLt hi c then (hi, Kinds.none)
  else if fLt c lo then (lo, Kinds.none)
  else (c, Kinds.none)

/-- FLIM (R203): Fb the minimum, Fs the maximum, Fd tested and written. -/
def execFlim (p : Prec) (fb fs fd : FReg) (s : State) : Outcome :=
  withForm (.flim p fb fs fd)
    (arith p listSelect fd [s.readFP p fb, s.readFP p fs, s.readFP p fd]
      (limitCore p (s.readFP p fb) (s.readFP p fs) (s.readFP p fd)) s)

/-- MAX of operands that are no NaN (R204 (b), (c)): Fs unless it is below Fb, -0 below +0. -/
def maxValue {p : Prec} (x y : p.Pattern) : p.Pattern := if tLt y x then x else y

/-- MIN of operands that are no NaN (R206 (b), (c)). -/
def minValue {p : Prec} (x y : p.Pattern) : p.Pattern := if tLt x y then x else y

/-- MAX (R204). -/
def execMax (p : Prec) (fb fs fd : FReg) (s : State) : Outcome :=
  withForm (.max p fb fs fd)
    (arith p listSelect fd [s.readFP p fb, s.readFP p fs]
      (maxValue (s.readFP p fb) (s.readFP p fs), Kinds.none) s)

/-- MIN (R206). -/
def execMin (p : Prec) (fb fs fd : FReg) (s : State) : Outcome :=
  withForm (.min p fb fs fd)
    (arith p listSelect fd [s.readFP p fb, s.readFP p fs]
      (minValue (s.readFP p fb) (s.readFP p fs), Kinds.none) s)

/-- MAXNM and MINNM (R205, R207): a drawn quiet NaN for two NaNs, the other operand for one, `pick` for none; INVAL for
an sNaN operand in every case. -/
def selectNumber (p : Prec) (fd : FReg) (x y pick : p.Pattern) (s : State) : Outcome :=
  deliver p listSelect fd
    (if isNaN x && isNaN y then drawnNaN p s else if isNaN x then y else if isNaN y then x else pick,
      (subKinds [x, y]).union (snanKinds [x, y])) s

/-- MAXNM (R205). -/
def execMaxnm (p : Prec) (fb fs fd : FReg) (s : State) : Outcome :=
  withForm (.maxnm p fb fs fd)
    (selectNumber p fd (s.readFP p fb) (s.readFP p fs) (maxValue (s.readFP p fb) (s.readFP p fs)) s)

/-- MINNM (R207). -/
def execMinnm (p : Prec) (fb fs fd : FReg) (s : State) : Outcome :=
  withForm (.minnm p fb fs fd)
    (selectNumber p fd (s.readFP p fb) (s.readFP p fs) (minValue (s.readFP p fb) (s.readFP p fs)) s)

/-- TST (R208): five bits of FSR; nothing is signalled. -/
def execTst (p : Prec) (fs : FReg) (s : State) : Outcome :=
  withForm (.tst p fs) (.next ({ s with fsr := testWord s.fsr (s.readFP p fs) }.retire 4))

end Sys2Proof.Machine
end

