-- ==== Sys2Proof/Machine/Trig.lean ====
section
/-! DEFINITION. The transcendental instructions COS and SIN, single precision only (44_transcendental.md). -/

namespace Sys2Proof.Machine

/-- COS (R250). -/
def execCos (fs fd : FReg) (s : State) : Outcome :=
  withForm (.cos fs fd)
    (arith .single listTrig fd [s.readFP .single fs] (trigCore trigCos s.fcr (s.readFP .single fs)) s)

/-- SIN (R251). -/
def execSin (fs fd : FReg) (s : State) : Outcome :=
  withForm (.sin fs fd)
    (arith .single listTrig fd [s.readFP .single fs] (trigCore trigSin s.fcr (s.readFP .single fs)) s)

end Sys2Proof.Machine
end

