-- ==== Sys2Proof/Machine/Dispatch.lean ====
section
/-! DEFINITION. One arm per instruction: the direct call of its meaning. -/

namespace Sys2Proof.Machine

def exec (i : Instr) (s : State) : Host.Outcome State Fault Refusal :=
  match i with
  | .abs p fs fd => Sys2Proof.Machine.execAbs p fs fd s
  | .add p fb fs fd => Sys2Proof.Machine.execAdd p fb fs fd s
  | .andLit lit r => Sys2Proof.Machine.execAndLit lit r s
  | .cos fs fd => Sys2Proof.Machine.execCos fs fd s
  | .cpq p fb fs => Sys2Proof.Machine.execCpq p fb fs s
  | .cps p fb fs => Sys2Proof.Machine.execCps p fb fs s
  | .di2f p rnd fs fd => Sys2Proof.Machine.execDi2f p rnd fs fd s
  | .div p fb fs fd => Sys2Proof.Machine.execDiv p fb fs fd s
  | .flim p fb fs fd => Sys2Proof.Machine.execFlim p fb fs fd s
  | .f2di p rnd fs fd => Sys2Proof.Machine.execF2di p rnd fs fd s
  | .f2li p rnd fs fd => Sys2Proof.Machine.execF2li p rnd fs fd s
  | .fbra cond slit20 => Sys2Proof.Machine.execFbra cond slit20 s
  | .iorLit lit r => Sys2Proof.Machine.execIorLit lit r s
  | .li2f p rnd fs fd => Sys2Proof.Machine.execLi2f p rnd fs fd s
  | .mac p fb fs fd => Sys2Proof.Machine.execMac p fb fs fd s
  | .max p fb fs fd => Sys2Proof.Machine.execMax p fb fs fd s
  | .maxnm p fb fs fd => Sys2Proof.Machine.execMaxnm p fb fs fd s
  | .min p fb fs fd => Sys2Proof.Machine.execMin p fb fs fd s
  | .minnm p fb fs fd => Sys2Proof.Machine.execMinnm p fb fs fd s
  | .movStore fs wnd k12 => Sys2Proof.Machine.execMovStore fs wnd k12 s
  | .movF p fs fd => Sys2Proof.Machine.execMovF p fs fd s
  | .movc p index fd => Sys2Proof.Machine.execMovc p index fd s
  | .movFromCop src dst => Sys2Proof.Machine.execMovFromCop src dst s
  | .movLoad wns k12 fd => Sys2Proof.Machine.execMovLoad wns k12 fd s
  | .movToCop src dst => Sys2Proof.Machine.execMovToCop src dst s
  | .movLit lit dst => Sys2Proof.Machine.execMovLit lit dst s
  | .movLitWord2 hi dst => Sys2Proof.Machine.execMovLitWord2 hi dst s
  | .mul p fb fs fd => Sys2Proof.Machine.execMul p fb fs fd s
  | .neg p fs fd => Sys2Proof.Machine.execNeg p fs fd s
  | .pop dst => Sys2Proof.Machine.execPop dst s
  | .push src => Sys2Proof.Machine.execPush src s
  | .sin fs fd => Sys2Proof.Machine.execSin fs fd s
  | .sqrt p fs fd => Sys2Proof.Machine.execSqrt p fs fd s
  | .sub p fb fs fd => Sys2Proof.Machine.execSub p fb fs fd s
  | .tst p fs => Sys2Proof.Machine.execTst p fs s

end Sys2Proof.Machine
end

