-- ==== Sys2Proof/Machine/Step.lean ====
section
/-! DEFINITION. One step: fetch, decode, execute, and the test for the end of the run (R72, R116, R343). -/

namespace Sys2Proof.Machine

/-- One step of the machine. A complete run has no further instruction (R343); a fetch the image does not define is
stuck (R72), a word that decodes to nothing is refused (R115). -/
def step (s : State) : Host.Outcome State Fault Refusal :=
  if s.complete then .fault .runComplete
  else match decodeBytes (fetchBytes s) with
    | .error e => stopOf s e
    | .ok i => afterExec (exec i s)

/-- A row's instruction placed where the next step fetches: in the program image at `pc`, eight bytes, in a run that is
not complete. -/
def State.withFetchWord (s : State) (nbits w : Nat) : State :=
  { s with prog := s.prog.writeBytes s.pc (psBytes (tableWords nbits w)), complete := false }

end Sys2Proof.Machine
end

