-- ==== Sys2Proof/Safety.lean ====
section
/-! DEFINITION. Runs and what counts as a safe one: a run is complete at the end address of its launch (R343), and a
state is safe as long as its step is neither refused nor a fault other than the completion of the run. Then the terms
the statements of Sys2Proof/Certificates/Slice0/Obligations.lean are written in: what an instruction wrote and what
it left alone, said through reads of registers, flags and bytes. -/

namespace Sys2Proof

open Sys2Proof.Machine

/-! ## Runs -/

/-- `n` steps lead from one state to another. -/
inductive Reaches : Nat → State → State → Prop where
  | refl (s : State) : Reaches 0 s s
  | step {n : Nat} {s t u : State} : Machine.step s = .next t → Reaches n t u → Reaches (n + 1) s u

/-- A final state: the run is complete (R343). A fault, a stuck state and a refusal are not final (R317). -/
def Final (s : State) : Prop := s.complete = true

/-- The step of a state does not go wrong: it goes on, or the run is complete. -/
def GoesOn (s : State) : Prop := (∃ t, Machine.step s = .next t) ∨ Machine.step s = .fault .runComplete

/-- Every state that a state's run reaches goes on. -/
def Safe (s : State) : Prop := ∀ n t, Reaches n s t → GoesOn t

/-- The invariant of the machine: both memories are in canonical form (`Memory.wf`) and `pc` is even (R25). -/
structure Inv (s : State) : Prop where
  mem_wf : s.mem.wf
  prog_wf : s.prog.wf
  pc_even : s.pc.getLsbD 0 = false

/-! ## Conditions on a state -/

/-- Every mask bit of FCR is 1, so no exception kind is trap-enabled (R314). -/
abbrev Masked (s : State) : Prop := s.fcr.extractLsb' 0 7 = 0x7F#7

/-- A long word at `a` may be accessed: `a` is a multiple of 4 and the launch memory's set has its four bytes
(R64, R75). -/
abbrev Admitted (rs : List Region) (a : Word) : Prop :=
  a.extractLsb' 0 2 = 0#2 ∧ ∀ i < 4, inRegions rs (a.toNat + i) = true

/-! ## Registers -/

/-- The F registers that an operand of precision `p` named `r` occupies: `r`, or the pair of `r` (R21). -/
def Prec.covers (p : Prec) (r q : FReg) : Bool :=
  match p with
  | .single => q == r
  | .double => q == r || q == r + 1

/-- A destination as a source, to read back what was written to it. -/
def CopDst.asSrc : CopDst → CopSrc
  | .f r => .f r
  | .fsr => .fsr
  | .fcr => .fcr
  | .fear => .fear

/-- A destination of `MOV.l lit32` among the destinations of the other moves. -/
def LitDst.asDst : LitDst → CopDst
  | .f r => .f r
  | .fsr => .fsr
  | .fcr => .fcr

/-- A special register of AND and IOR among the destinations of the moves. -/
def SReg.asDst : SReg → CopDst
  | .fsr => .fsr
  | .fcr => .fcr
  | .fear => .fear

/-! ## What an instruction did -/

/-- Everything outside the F registers, FSR, FCR, FEAR, the data memory and `pc` is as before, but for the W registers
that `ww` names, and the draw counter has advanced by one. -/
structure RestKept (ww : WReg → Bool) (s t : State) : Prop where
  w : ∀ r, ww r = false → t.readW r = s.readW r
  prog : t.prog = s.prog
  readable : t.readable = s.readable
  writable : t.writable = s.writable
  condTable : t.condTable = s.condTable
  endAddr : t.endAddr = s.endAddr
  complete : t.complete = s.complete
  draws : t.draws = s.draws + 1

/-- No F register and no special register changed. -/
structure CopKept (s t : State) : Prop where
  f : ∀ r, t.readF r = s.readF r
  fsr : t.fsr = s.fsr
  fcr : t.fcr = s.fcr
  fear : t.fear = s.fear

/-- The coprocessor register `d` holds `v`, and no other one changed (R260). -/
structure CopWritten (d : CopDst) (v : Word) (s t : State) : Prop where
  value : copRead t d.asSrc = v
  f : ∀ r, d ≠ .f r → t.readF r = s.readF r
  fsr : d ≠ .fsr → t.fsr = s.fsr
  fcr : d ≠ .fcr → t.fcr = s.fcr
  fear : d ≠ .fear → t.fear = s.fear

/-- Every byte of data memory reads as before. -/
def MemKept (s t : State) : Prop := ∀ a, t.mem.read a = s.mem.read a

/-- The long word `v` stands at `a`, its low byte lowest (R62), and every other byte reads as before. -/
structure Stored (a : Word) (v : Word) (s t : State) : Prop where
  bytes : ∀ i < 4, t.mem.read (a.toNat + i) = some (v.extractLsb' (8 * i) 8)
  outside : ∀ b, b < a.toNat ∨ a.toNat + 4 ≤ b → t.mem.read b = s.mem.read b

/-- The long word read at `a` is `v` (R62): the four bytes hold it now, a byte that held a value holds the same value,
and no byte outside the long word changed (R75: only a byte of it that held none can have taken one). -/
structure Loaded (a : Word) (v : Word) (s t : State) : Prop where
  bytes : ∀ i < 4, t.mem.read (a.toNat + i) = some (v.extractLsb' (8 * i) 8)
  known : ∀ b x, s.mem.read b = some x → t.mem.read b = some x
  outside : ∀ b, b < a.toNat ∨ a.toNat + 4 ≤ b → t.mem.read b = s.mem.read b

/-- What `Signal(list, sig)` does to FSR's exception flags and to FEAR (R141, R142, R35): a listed status flag tells
whether its kind was signalled, an unlisted one is kept, a sticky flag is set by a signalled kind and never cleared,
and FEAR is kept where nothing was signalled. -/
structure Signalled (list sig : Kinds) (s t : State) : Prop where
  listed : ∀ k, list.has k = true → statusFlag t.fsr k = sig.has k
  unlisted : ∀ k, list.has k = false → statusFlag t.fsr k = statusFlag s.fsr k
  sticky : ∀ k, stickyFlag t.fsr k = (stickyFlag s.fsr k || sig.has k)
  fear : sig = Kinds.none → t.fear = s.fear

/-- The bits of FSR that `changed` does not name are as before. -/
def FsrKept (changed : Nat → Bool) (s t : State) : Prop :=
  ∀ i, changed i = false → t.fsr.getLsbD i = s.fsr.getLsbD i

/-- The status and sticky flags of FSR (R28, R31): bits 0 to 6 and 8 to 14. -/
def exceptionBits (i : Nat) : Bool := decide (i < 15) && decide (i ≠ 7)

/-- A floating-point instruction has completed: its destination `fd` of precision `p` holds a value that `ok` admits,
`Signal(list, sig)` was done, the other bits of FSR, FCR, the other F registers, every W register and every byte of
memory are as before, and `pc` is past the instruction. -/
structure FpDone (p : Prec) (fd : FReg) (list sig : Kinds) (ok : p.Pattern → Prop) (s t : State) : Prop where
  value : ok (t.readFP p fd)
  signal : Signalled list sig s t
  fsr : FsrKept exceptionBits s t
  f : ∀ r, p.covers fd r = false → t.readF r = s.readF r
  fcr : t.fcr = s.fcr
  mem : MemKept s t
  rest : RestKept (fun _ => false) s t
  pc : t.pc = s.pc + 4

/-- An instruction that writes nothing but bits of FSR has completed: `changed` names the bits it may change. -/
structure FlagsDone (changed : Nat → Bool) (s t : State) : Prop where
  fsr : FsrKept changed s t
  f : ∀ r, t.readF r = s.readF r
  fcr : t.fcr = s.fcr
  mem : MemKept s t
  rest : RestKept (fun _ => false) s t
  pc : t.pc = s.pc + 4

/-! ## Terms for the rules of single instructions -/

/-- The instructions that call `Signal` (R37, R310): the others list no exception (R312). -/
def Instr.signals : Instr → Bool
  | .abs _ _ _ | .add _ _ _ _ | .cos _ _ | .cpq _ _ _ | .cps _ _ _ | .di2f _ _ _ _ | .div _ _ _ _ | .flim _ _ _ _
  | .f2di _ _ _ _ | .f2li _ _ _ _ | .li2f _ _ _ _ | .mac _ _ _ _ | .max _ _ _ _ | .maxnm _ _ _ _ | .min _ _ _ _
  | .minnm _ _ _ _ | .mul _ _ _ _ | .neg _ _ _ | .sin _ _ | .sqrt _ _ _ | .sub _ _ _ _ => true
  | .andLit _ _ | .fbra _ _ | .iorLit _ _ | .movStore _ _ _ | .movF _ _ _ | .movc _ _ _ | .movFromCop _ _
  | .movLoad _ _ _ | .movToCop _ _ | .movLit _ _ | .movLitWord2 _ _ | .pop _ | .push _ | .tst _ _ => false

/-- A software write of FSR (R36). -/
def Instr.writesFsr : Instr → Bool
  | .andLit _ .fsr | .iorLit _ .fsr | .movToCop _ .fsr | .movLit _ .fsr | .pop .fsr => true
  | _ => false

/-- A software write of FEAR (R36). -/
def Instr.writesFear : Instr → Bool
  | .andLit _ .fear | .iorLit _ .fear | .movToCop _ .fear | .pop .fear => true
  | _ => false

/-- `2^(emax + 1)` in quanta: the smallest magnitude above every finite number's binade, where overflow begins (R135
step 5). -/
def Prec.overflowBound (p : Prec) : Nat := 2 ^ (2 * p.bias + p.manBits)

/-- What COS or SIN of `x` signals (R250, R251): INVAL for a signalling NaN or an infinity, SUBO for a subnormal, INX and
UDF, which `TRIG_S` decides, only for a finite operand, and nothing else. -/
def TrigSignal (x : Prec.single.Pattern) (sig : Kinds) : Prop :=
  sig.inval = (isSNaN x || isInf x) ∧ sig.subo = isSub x ∧ (isFinite x = false → sig.inx = false ∧ sig.udf = false) ∧
    sig.ovf = false ∧ sig.div0 = false ∧ sig.hugi = false

/-- Whether a W operand's mode updates the register `r` (R261). -/
def WOperand.modifies (o : WOperand) (r : WReg) : Bool :=
  match o with
  | .postInc n | .postDec n | .preDec n | .preInc n => r == n
  | .reg _ | .ind _ | .indexed _ _ => false

/-- The Status Affected list of ADD, SUB, MUL and MAC (R171, R173, R174, R177). -/
def listOfArith : Kinds := { subo := true, inx := true, udf := true, ovf := true, inval := true }

/-- The Status Affected list of DIV (R172). -/
def listOfDiv : Kinds := { subo := true, inx := true, udf := true, ovf := true, div0 := true, inval := true }

/-- The Status Affected list of F2LI and F2DI (R233, R234). -/
def listOfToInt : Kinds := { subo := true, hugi := true, inx := true, inval := true }

/-- The Status Affected list of COS and SIN (R250, R251). -/
def listOfTrig : Kinds := { subo := true, inx := true, udf := true, inval := true }

/-- ADD's rule (R171) for the addends `x` and `y`, `sub` telling whether a source is subnormal: a NaN; opposite
infinities; an infinity; two finite numbers, whose exact sum is rounded, a zero sum taking the common sign, or the
minus sign in mode `n` only. -/
def SumDone (p : Prec) (fd : FReg) (rm : RoundMode) (x y : p.Pattern) (sub : Bool) (s t : State) : Prop :=
  (isNaN x = true ∨ isNaN y = true →
    FpDone p fd listOfArith { inval := isSNaN x || isSNaN y, subo := sub } (fun r => classOf r = .qnan) s t) ∧
  (isInf x = true → isInf y = true → signOf x ≠ signOf y →
    FpDone p fd listOfArith { inval := true, subo := sub } (· = dqnan p) s t) ∧
  (isInf x = true → isNaN y = false → (isInf y = true → signOf x = signOf y) →
    FpDone p fd listOfArith { subo := sub } (· = x) s t) ∧
  (isFinite x = true → isInf y = true → FpDone p fd listOfArith { subo := sub } (· = y) s t) ∧
  (isFinite x = true → isFinite y = true →
    FpDone p fd listOfArith
      { (Machine.round p rm (quanta x + quanta y) (2 ^ p.scale)
          (if signOf x = signOf y then signOf x else rm == .towardNeg)).2 with subo := sub }
      (· = (Machine.round p rm (quanta x + quanta y) (2 ^ p.scale)
          (if signOf x = signOf y then signOf x else rm == .towardNeg)).1) s t)

end Sys2Proof
end

