-- ==== Sys2Proof/Certificates/Slice0/Obligations.lean ====
section
/-! DEFINITION. The statements for the provers, each a `Prop`. `FpDone`, `FlagsDone`, `CopWritten`, `Stored`, `Loaded`
and the like (Sys2Proof/Safety.lean) are the frames: what an instruction wrote, and that nothing else changed. -/

open Sys2Proof Sys2Proof.Machine

/-! ## Encoding -/

/-- R92 to R103, R110 to R112, R116, with the spec's default field codes (log 16): the decoder reads every well-formed
instruction back from its encoding, whatever follows it. -/
def Obligations.DecodeOfEncode : Prop :=
  ∀ (i : Instr) (rest : List PsWord), i.wellFormed = true → decode (encode i ++ rest) = .ok i

/-- R107, R108, R112, R116, R117 (log 16, 17): what the decoder answers is well formed, and its words are the encoding of
the answer, so each word has one meaning and a 1 in a `zz` or `U` bit is never dropped. -/
def Obligations.EncodeOfDecode : Prop :=
  ∀ (ws : List PsWord) (i : Instr), decode ws = .ok i → i.wellFormed = true ∧ ∃ rest, ws = encode i ++ rest

/-- R92 to R106, R115: a word of each of the twelve formats (FP3, FP2, FPV, FPC, FPT, FPK, FPL, FBR, MVO, MVX, MVL, STK),
written out from its Encoding row, decodes to the instruction it stands for, and one word of each class of words the
decoder refuses is refused by its name (field codes log 16, refusals log 17, 18, 19). -/
def Obligations.KnownWords : Prop :=
  decode [0x8006#16, 0x1002#16] = .ok (.add .single 0 1 3) ∧
  decode [0x850C#16, 0x2006#16] = .ok (.mul .double 0 2 6) ∧
  decode [0x8904#16, 0x0002#16] = .ok (.abs .double 0 2) ∧
  decode [0x8E02#16, 0x0062#16] = .ok (.f2li .single (.fixed .towardPos) 0 1) ∧
  decode [0x8A00#16, 0x300A#16] = .ok (.cpq .single 0 3) ∧
  decode [0x9401#16, 0xF002#16] = .ok (.tst .single 31) ∧
  decode [0x8700#16, 0x0086#16] = .ok (.movc .double 8 0) ∧
  decode [0x9020#16, 0x0076#16] = .ok (.iorLit 7 .fcr) ∧
  decode [0xB0FF#16, 0xFFE2#16] = .ok (.fbra 0 0xFFFFE#20) ∧
  decode [0x8652#16, 0x0021#16] = .ok (.movStore 5 2 2) ∧
  decode [0x8441#16, 0xC080#16] = .ok (.movToCop (.indexed 1 2) (.f 4)) ∧
  decode [0x8290#16, 0xFDB1#16, 0x8232#16, 0x0045#16] = .ok (.movLit 0x40490FDB#32 (.f 3)) ∧
  decode [0x2612#16] = .ok (.push .fsrh) ∧
  decode [0x8000#16, 0x000A#16] = .error .noSuchOpcode ∧
  decode [0xA000#16, 0x0002#16] = .error .noSuchOpcode ∧
  decode [0x8290#16, 0xFDB1#16, 0x8006#16, 0x1002#16] = .error .noSuchOpcode ∧
  decode [0x8046#16, 0x1002#16] = .error .notThisCoprocessor ∧
  decode [0x8006#16, 0x1012#16] = .error .nonZeroU ∧
  decode [0x8106#16, 0x1002#16] = .error .oddPairRegister ∧
  decode [0x8D00#16, 0x0006#16] = .error .reservedField ∧
  decode [0x8E02#16, 0x0012#16] = .error .reservedField ∧
  decode [0x0600#16] = .error .shortFormNotGiven

/-! ## Steps -/

/-- R72, R116, R343: where the bytes at `pc` decode to `i` and the run is not complete, the step is `exec i`, followed on
a next state by the end test alone. -/
def Obligations.StepRunsDecoded : Prop :=
  ∀ (s : State) (i : Instr), s.complete = false → decodeBytes (fetchBytes s) = .ok i →
    (∀ t, exec i s = .next t → step s = .next { t with complete := decide (t.endAddr = some t.pc) }) ∧
    (∀ e, exec i s = .fault e → step s = .fault e) ∧
    (∀ r, exec i s = .refused r → step s = .refused r)

/-- R72, R115, R343 (log 7, 8): a complete run has no step, an undefined fetch is stuck, whether of the first byte or of
an instruction that the image cuts short, and a word that decodes to nothing is refused by its name. -/
def Obligations.StepStops : Prop :=
  ∀ s : State,
    (s.complete = true → step s = .fault .runComplete) ∧
    (s.complete = false → s.prog.read s.pc.toNat = none → step s = .fault (.fetchUndefined s.pc)) ∧
    (s.complete = false → decodeBytes (fetchBytes s) = .error .truncated → step s = .fault (.fetchUndefined s.pc)) ∧
    (s.complete = false → decodeBytes (fetchBytes s) = .error .noSuchOpcode → step s = .refused .noSuchOpcode) ∧
    (s.complete = false → decodeBytes (fetchBytes s) = .error .notThisCoprocessor →
      step s = .refused .notThisCoprocessor) ∧
    (s.complete = false → decodeBytes (fetchBytes s) = .error .nonZeroU → step s = .refused .nonZeroU) ∧
    (s.complete = false → decodeBytes (fetchBytes s) = .error .oddPairRegister →
      step s = .refused .oddPairRegister) ∧
    (s.complete = false → decodeBytes (fetchBytes s) = .error .reservedField → step s = .refused .reservedField) ∧
    (s.complete = false → decodeBytes (fetchBytes s) = .error .shortFormNotGiven →
      step s = .refused .shortFormNotGiven)

/-- R72 (log 4, 29): an instruction placed in the program image at `pc` is the one the next step decodes. -/
def Obligations.PlacedWordIsFetched : Prop :=
  ∀ (s : State) (nbits w : Nat) (i : Instr), s.prog.wf → decodeTableWord nbits w = some i →
    decodeBytes (fetchBytes (s.withFetchWord nbits w)) = .ok i

/-- R25, R62, R64, R72: every step keeps both memories in canonical form and `pc` even. -/
def Obligations.StepKeepsInv : Prop :=
  ∀ s t : State, Inv s → step s = .next t → Inv t

/-- The state after reset meets the invariant. -/
def Obligations.ResetInv : Prop := Inv State.reset

/-- R39, R340 give no reset value: these are the model's choices (log 1, 2, 3, 4, 5, 6, 8, 9, 14): every F and W register
and FEAR zero, FSR zero, FCR with every mask bit 1 and nearest-even rounding, `pc` zero, no byte of memory fixed, no
program, the whole data space admitted, no condition stated, no end address, the draw counter zero. -/
def Obligations.ResetValues : Prop :=
  (∀ r, State.reset.readF r = 0) ∧ (∀ r, State.reset.readW r = 0) ∧ State.reset.pc = 0 ∧ State.reset.fsr = 0 ∧
    State.reset.fcr = 0x7F ∧ State.reset.fear = 0 ∧ (∀ a, State.reset.mem.read a = none) ∧
    (∀ a, State.reset.prog.read a = none) ∧
    (∀ a : Nat, inRegions State.reset.readable a = decide (a < 2 ^ 32) ∧
      inRegions State.reset.writable a = decide (a < 2 ^ 32)) ∧
    (∀ b : BitVec 4, State.reset.condTable[b.toNat]'(b.isLt) = .unstated) ∧
    State.reset.complete = false ∧ State.reset.endAddr = none ∧ State.reset.draws = 0

/-! ## The whole machine -/

/-- R314 with the masks of log 22: with `FCR[6:0] = 0x7F` no instruction can trap. -/
def Obligations.MaskedNeverTraps : Prop :=
  ∀ (i : Instr) (s : State) (sig : Kinds), Masked s → exec i s ≠ .fault (.fpuTrap sig)

/-- R141 step 1, R314, R315, R250, R251 (log 11, 15, 20, 22): of the instructions that signal, but for COS and SIN, whose
`TRIG_S` may read FCR (R252): run with every mask set and the sticky flags clear, the instruction leaves exactly the
signalled kinds sticky; it traps, in any state, exactly when one of them is trap-enabled, and the fault carries all of
them; otherwise the masks and the earlier sticky flags make no other difference. COS and SIN: the signalled set, open in
INX and UDF, traps when one of it is trap-enabled, and otherwise is what the status and sticky flags tell. That the two
runs agree in drawn values is the model's choice (log 12, 13, 14). -/
def Obligations.TrapMatchesMaskedRun : Prop :=
  (∀ (i : Instr) (s t : State), i.signals = true → (∀ fs fd, i ≠ .cos fs fd ∧ i ≠ .sin fs fd) →
    exec i { s with fcr := s.fcr ||| 0x7F, fsr := s.fsr &&& 0xFFFF80FF } = .next t →
    ((∃ k, stickyFlag t.fsr k = true ∧ trapEnabled s.fcr k = true) →
      ∃ sig : Kinds, exec i s = .fault (.fpuTrap sig) ∧ ∀ k, sig.has k = stickyFlag t.fsr k) ∧
    ((∀ k, stickyFlag t.fsr k = true → trapEnabled s.fcr k = false) →
      exec i s = .next { t with fcr := s.fcr, fsr := t.fsr ||| (s.fsr &&& 0x00007F00) })) ∧
  (∀ (fs fd : FReg) (s : State), ∃ sig : Kinds, TrigSignal (s.readF fs) sig ∧
    ((∃ k, sig.has k = true ∧ trapEnabled s.fcr k = true) → exec (.cos fs fd) s = .fault (.fpuTrap sig)) ∧
    ((∀ k, sig.has k = true → trapEnabled s.fcr k = false) →
      ∃ t, exec (.cos fs fd) s = .next t ∧ Signalled listOfTrig sig s t)) ∧
  (∀ (fs fd : FReg) (s : State), ∃ sig : Kinds, TrigSignal (s.readF fs) sig ∧
    ((∃ k, sig.has k = true ∧ trapEnabled s.fcr k = true) → exec (.sin fs fd) s = .fault (.fpuTrap sig)) ∧
    ((∀ k, sig.has k = true → trapEnabled s.fcr k = false) →
      ∃ t, exec (.sin fs fd) s = .next t ∧ Signalled listOfTrig sig s t))

/-- R312, R36 (positions log 20): AND, IOR, MOV.s/.d, MOVC and TST, and FBRA, the `MOV.l` forms, POP and PUSH raise no
floating-point exception under any operand: none ends in a trap, whatever FCR holds, and one that completes changes no
status flag, no sticky flag and not FEAR, but for the one whose destination is that very register. -/
def Obligations.OthersNeverTrap : Prop :=
  ∀ (i : Instr) (s : State), i.signals = false →
    (∀ sig : Kinds, exec i s ≠ .fault (.fpuTrap sig)) ∧
    (∀ t, exec i s = .next t → i.writesFsr = false →
      ∀ k, statusFlag t.fsr k = statusFlag s.fsr k ∧ stickyFlag t.fsr k = stickyFlag s.fsr k) ∧
    (∀ t, exec i s = .next t → i.writesFear = false → t.fear = s.fear)

/-- R26, R291: how each instruction that completes moves `pc`. -/
def Obligations.PcAdvances : Prop :=
  ∀ (i : Instr) (s t : State), exec i s = .next t →
    match i with
    | .push _ | .pop _ => t.pc = s.pc + 2
    | .movLit _ _ => t.pc = s.pc + 8
    | .fbra b n => ∃ c, fbraCond s b = some c ∧
        t.pc = if c (s.fsr.extractLsb' 16 16) then s.pc + 4 + 2 * n.signExtend 32 else s.pc + 4
    | _ => t.pc = s.pc + 4

/-- R142 (sticky positions log 20): a sticky flag is cleared only by a software write of FSR. -/
def Obligations.StickyNeverCleared : Prop :=
  ∀ (i : Instr) (s t : State) (k : Kind), i.writesFsr = false → exec i s = .next t →
    stickyFlag s.fsr k = true → stickyFlag t.fsr k = true

/-- R29, R30, R36, R290 (layout log 20): FSR[31:16] changes only by CPQ and CPS, which change no bit but 19:16, by TST,
which changes no bit but 28:24, and by a `MOV.l`, `MOV.l lit32` or POP with FSR as destination; FCR changes only by AND,
IOR, `MOV.l`, `MOV.l lit32` and POP with FCR as destination. -/
def Obligations.StatusWriters : Prop :=
  (∀ (i : Instr) (s t : State) (n : Nat), 16 ≤ n → exec i s = .next t →
      match i with
      | .cpq _ _ _ | .cps _ _ _ => (n < 16 ∨ 19 < n) → t.fsr.getLsbD n = s.fsr.getLsbD n
      | .tst _ _ => (n < 24 ∨ 28 < n) → t.fsr.getLsbD n = s.fsr.getLsbD n
      | .movToCop _ .fsr | .pop .fsr | .movLit _ .fsr => True
      | _ => t.fsr.getLsbD n = s.fsr.getLsbD n) ∧
  (∀ (i : Instr) (s t : State), exec i s = .next t →
      match i with
      | .andLit _ .fcr | .iorLit _ .fcr | .movToCop _ .fcr | .movLit _ .fcr | .pop .fcr => True
      | _ => t.fcr = s.fcr)

/-- R72, R341, R346: no instruction changes the program image or a launch parameter. -/
def Obligations.ImageImmutable : Prop :=
  ∀ (i : Instr) (s t : State), exec i s = .next t →
    t.prog = s.prog ∧ t.readable = s.readable ∧ t.writable = s.writable ∧ t.condTable = s.condTable ∧
      t.endAddr = s.endAddr

/-- R61, R65, R75 (log 6): an instruction that is no store changes no byte of memory that held a value, and one that makes
no access, a `MOV.l` between registers included, changes none at all. -/
def Obligations.OnlyStoresWrite : Prop :=
  ∀ (i : Instr) (s t : State), s.mem.wf → exec i s = .next t →
    match i with
    | .movFromCop _ (.reg _) | .movToCop (.reg _) _ => ∀ a, t.mem.read a = s.mem.read a
    | .movStore _ _ _ | .movFromCop _ _ | .push _ => True
    | .movLoad _ _ _ | .movToCop _ _ | .pop _ => ∀ a b, s.mem.read a = some b → t.mem.read a = some b
    | _ => ∀ a, t.mem.read a = s.mem.read a

/-! ## Flags and fields -/

/-- R34, R133, R134 (log 16, 22, 23): the four codes of FCR[9:8], and the mode of a conversion: its suffix's own where it
has one, that of FCR.RND where it has none. -/
def Obligations.RoundModeField : Prop :=
  (∀ s : State, s.rm =
    if s.fcr.extractLsb' 8 2 = 0#2 then .nearestEven else if s.fcr.extractLsb' 8 2 = 1#2 then .towardZero
    else if s.fcr.extractLsb' 8 2 = 2#2 then .towardPos else .towardNeg) ∧
  (∀ (m : RoundMode) (s : State), convMode (.fixed m) s.fcr = m) ∧
  (∀ s : State, convMode .fromFcr s.fcr = s.rm)

/-- R131: the class of every pattern of both formats, by the ranges of the MOVC tables, and its sign. -/
def Obligations.ClassRanges : Prop :=
  (∀ x : Prec.single.Pattern,
    (classOf x = .zero ↔ x.toNat % 2 ^ 31 = 0) ∧
    (classOf x = .sub ↔ 0x00000001 ≤ x.toNat % 2 ^ 31 ∧ x.toNat % 2 ^ 31 ≤ 0x007FFFFF) ∧
    (classOf x = .norm ↔ 0x00800000 ≤ x.toNat % 2 ^ 31 ∧ x.toNat % 2 ^ 31 ≤ 0x7F7FFFFF) ∧
    (classOf x = .inf ↔ x.toNat % 2 ^ 31 = 0x7F800000) ∧
    (classOf x = .snan ↔ 0x7F800001 ≤ x.toNat % 2 ^ 31 ∧ x.toNat % 2 ^ 31 ≤ 0x7FBFFFFF) ∧
    (classOf x = .qnan ↔ 0x7FC00000 ≤ x.toNat % 2 ^ 31 ∧ x.toNat % 2 ^ 31 ≤ 0x7FFFFFFF) ∧
    (signOf x = true ↔ 2 ^ 31 ≤ x.toNat)) ∧
  (∀ x : Prec.double.Pattern,
    (classOf x = .zero ↔ x.toNat % 2 ^ 63 = 0) ∧
    (classOf x = .sub ↔ 0x0000000000000001 ≤ x.toNat % 2 ^ 63 ∧ x.toNat % 2 ^ 63 ≤ 0x000FFFFFFFFFFFFF) ∧
    (classOf x = .norm ↔ 0x0010000000000000 ≤ x.toNat % 2 ^ 63 ∧ x.toNat % 2 ^ 63 ≤ 0x7FEFFFFFFFFFFFFF) ∧
    (classOf x = .inf ↔ x.toNat % 2 ^ 63 = 0x7FF0000000000000) ∧
    (classOf x = .snan ↔ 0x7FF0000000000001 ≤ x.toNat % 2 ^ 63 ∧ x.toNat % 2 ^ 63 ≤ 0x7FF7FFFFFFFFFFFF) ∧
    (classOf x = .qnan ↔ 0x7FF8000000000000 ≤ x.toNat % 2 ^ 63 ∧ x.toNat % 2 ^ 63 ≤ 0x7FFFFFFFFFFFFFFF) ∧
    (signOf x = true ↔ 2 ^ 63 ≤ x.toNat)) ∧
  (∀ (p : Prec) (x : p.Pattern), isNaN x = true ↔ classOf x = .snan ∨ classOf x = .qnan)

/-! ## Rounding -/

/-- R135 (common IEEE rounding, log 25), R132: a value of the format is delivered as it is, with no signal; an exact zero,
over any denominator, as the zero of the sign asked for. -/
def Obligations.RoundExact : Prop :=
  (∀ (p : Prec) (rm : RoundMode) (x : p.Pattern) (d : Nat), isFinite x = true → 0 < d →
    Machine.round p rm (quanta x * d) (2 ^ p.scale * d) (signOf x) = (x, Kinds.none)) ∧
  (∀ (p : Prec) (rm : RoundMode) (d : Nat) (zs : Bool),
    isZero (Machine.round p rm 0 d zs).1 = true ∧ signOf (Machine.round p rm 0 d zs).1 = zs ∧
      (Machine.round p rm 0 d zs).2 = Kinds.none)

/-- R135 (log 25), R136 (log 24), R137: where the rounded result is no overflow it is a finite pattern of the sign of the
exact value `n / d`; INX says whether it differs from it, UDF that it does and the exact value is below 2^emin; and the
three directed modes err to their own side. Without an overflow `quanta r * d` against `n * 2^scale` compares the result
`r` with `n / d`. -/
def Obligations.RoundDirected : Prop :=
  ∀ (p : Prec) (rm : RoundMode) (n : Int) (d : Nat) (zs : Bool), n ≠ 0 → 0 < d → (Machine.round p rm n d zs).2.ovf = false →
    isFinite (Machine.round p rm n d zs).1 = true ∧
    signOf (Machine.round p rm n d zs).1 = decide (n < 0) ∧
    (Machine.round p rm n d zs).2.inx = decide (quanta (Machine.round p rm n d zs).1 * d ≠ n * 2 ^ p.scale) ∧
    (Machine.round p rm n d zs).2.udf =
      ((Machine.round p rm n d zs).2.inx && decide (n.natAbs * 2 ^ p.scale < 2 ^ p.manBits * d)) ∧
    (rm = .towardZero → (quanta (Machine.round p rm n d zs).1 * d).natAbs ≤ (n * 2 ^ p.scale).natAbs) ∧
    (rm = .towardPos → n * 2 ^ p.scale ≤ quanta (Machine.round p rm n d zs).1 * d) ∧
    (rm = .towardNeg → quanta (Machine.round p rm n d zs).1 * d ≤ n * 2 ^ p.scale)

/-- R135 steps 2 to 4, R133 (log 25): no finite pattern lies strictly between the exact value and the delivered one, in
every mode; in mode `e` none is nearer to the exact value than the delivered one, and where another is equally near the
delivered one has an even fraction. -/
def Obligations.RoundNearest : Prop :=
  ∀ (p : Prec) (rm : RoundMode) (n : Int) (d : Nat) (zs : Bool) (y : p.Pattern), n ≠ 0 → 0 < d →
    (Machine.round p rm n d zs).2.ovf = false → isFinite y = true →
    ¬ (n * 2 ^ p.scale < quanta y * d ∧ quanta y * d < quanta (Machine.round p rm n d zs).1 * d) ∧
    ¬ (quanta (Machine.round p rm n d zs).1 * d < quanta y * d ∧ quanta y * d < n * 2 ^ p.scale) ∧
    (rm = .nearestEven →
      (quanta (Machine.round p rm n d zs).1 * d - n * 2 ^ p.scale).natAbs ≤ (quanta y * d - n * 2 ^ p.scale).natAbs) ∧
    (rm = .nearestEven → quanta y ≠ quanta (Machine.round p rm n d zs).1 →
      (quanta (Machine.round p rm n d zs).1 * d - n * 2 ^ p.scale).natAbs = (quanta y * d - n * 2 ^ p.scale).natAbs →
      (Machine.round p rm n d zs).1.getLsbD 0 = false)

/-- R135 step 5 (log 25): when rounding overflows, by the mode and the exact value `n / d` (`overflowBound` is
2^(emax+1) in quanta): in mode `e` from half a unit above the largest finite number on, in a mode that rounds away from
zero from above it on, in one that rounds toward zero from 2^(emax+1) on. An overflow signals OVF and INX and nothing
else, and delivers the infinity or the largest finite number of the sign, by the mode. -/
def Obligations.RoundOverflow : Prop :=
  ∀ (p : Prec) (rm : RoundMode) (n : Int) (d : Nat) (zs : Bool), n ≠ 0 → 0 < d →
    ((Machine.round p rm n d zs).2.ovf = true ↔
      (match rm, decide (n < 0) with
        | .nearestEven, _ => (magQuanta (maxFiniteOf p false) + p.overflowBound) * d ≤ 2 * (n * 2 ^ p.scale).natAbs
        | .towardPos, false | .towardNeg, true => magQuanta (maxFiniteOf p false) * d < (n * 2 ^ p.scale).natAbs
        | .towardZero, _ | .towardPos, true | .towardNeg, false => p.overflowBound * d ≤ (n * 2 ^ p.scale).natAbs)) ∧
    ((Machine.round p rm n d zs).2.ovf = true →
      (Machine.round p rm n d zs).2 = { ovf := true, inx := true } ∧
      ((quanta (maxFiniteOf p false)) * d < (n * 2 ^ p.scale).natAbs) ∧
      (Machine.round p rm n d zs).1 =
        (match rm, decide (n < 0) with
          | .nearestEven, neg => infOf p neg
          | .towardZero, neg => maxFiniteOf p neg
          | .towardPos, false => infOf p false
          | .towardPos, true => maxFiniteOf p true
          | .towardNeg, true => infOf p true
          | .towardNeg, false => maxFiniteOf p false))

/-- R176 (d): the root of a positive finite operand is the real root rounded: with `V = x * 2^(2 scale)` in units of
the result's own quantum, its square stays below `V` in modes `z` and `n` while that of the next pattern is above, the
other way round in mode `p`, and in mode `e` `4 V` lies strictly between the squares of its sums with its neighbours; INX
says whether the square differs from `V`, and nothing else is signalled. -/
def Obligations.SqrtCorrect : Prop :=
  ∀ (p : Prec) (rm : RoundMode) (x : p.Pattern), isFinite x = true → isZero x = false → signOf x = false →
    (sqrtCore p rm x).2 =
        { inx := decide (magQuanta (sqrtCore p rm x).1 ^ 2 ≠ magQuanta x * 2 ^ p.scale) } ∧
    isFinite (sqrtCore p rm x).1 = true ∧ signOf (sqrtCore p rm x).1 = false ∧
    (rm = .towardZero ∨ rm = .towardNeg →
      magQuanta (sqrtCore p rm x).1 ^ 2 ≤ magQuanta x * 2 ^ p.scale ∧
      magQuanta x * 2 ^ p.scale < magQuanta ((sqrtCore p rm x).1 + 1) ^ 2) ∧
    (rm = .towardPos →
      magQuanta x * 2 ^ p.scale ≤ magQuanta (sqrtCore p rm x).1 ^ 2 ∧
      magQuanta ((sqrtCore p rm x).1 - 1) ^ 2 < magQuanta x * 2 ^ p.scale) ∧
    (rm = .nearestEven →
      4 * (magQuanta x * 2 ^ p.scale) < (magQuanta (sqrtCore p rm x).1 + magQuanta ((sqrtCore p rm x).1 + 1)) ^ 2 ∧
      (magQuanta (sqrtCore p rm x).1 + magQuanta ((sqrtCore p rm x).1 - 1)) ^ 2 < 4 * (magQuanta x * 2 ^ p.scale))

/-- R230 (d) with the modes of R133 (log 23): the four ways of rounding a finite value to an integer. -/
def Obligations.RoundToIntCorrect : Prop :=
  ∀ (p : Prec) (x : p.Pattern), isFinite x = true →
    roundToInt .towardZero x = (quanta x).tdiv (2 ^ p.scale) ∧
    roundToInt .towardNeg x = (quanta x).fdiv (2 ^ p.scale) ∧
    roundToInt .towardPos x = -((-quanta x).fdiv (2 ^ p.scale)) ∧
    2 * (quanta x - roundToInt .nearestEven x * 2 ^ p.scale).natAbs ≤ 2 ^ p.scale ∧
    (2 * (quanta x - roundToInt .nearestEven x * 2 ^ p.scale).natAbs = 2 ^ p.scale →
      roundToInt .nearestEven x % 2 = 0)

/-! ## Arithmetic -/

/-- R170, R175, R141 (log 21): ABS and NEG, masked, keep every bit but the sign, which becomes 0 or is inverted; SUBO
tells a subnormal operand. -/
def Obligations.AbsNegResult : Prop :=
  (∀ (p : Prec) (fs fd : FReg) (s : State) (x : p.Pattern), (Instr.abs p fs fd).wellFormed = true → Masked s →
      x = s.readFP p fs →
      ∃ t, exec (.abs p fs fd) s = .next t ∧
        FpDone p fd { subo := true } { subo := isSub x }
          (fun r => r.msb = false ∧ ∀ i, i < p.width - 1 → r.getLsbD i = x.getLsbD i) s t) ∧
  (∀ (p : Prec) (fs fd : FReg) (s : State) (x : p.Pattern), (Instr.neg p fs fd).wellFormed = true → Masked s →
      x = s.readFP p fs →
      ∃ t, exec (.neg p fs fd) s = .next t ∧
        FpDone p fd { subo := true } { subo := isSub x }
          (fun r => r.msb = !x.msb ∧ ∀ i, i < p.width - 1 → r.getLsbD i = x.getLsbD i) s t)

/-- R171, R138, R139, R140, R141 (log 21, 23, 25, 26): ADD, masked. -/
def Obligations.AddResult : Prop :=
  ∀ (p : Prec) (fb fs fd : FReg) (s : State) (x y : p.Pattern), (Instr.add p fb fs fd).wellFormed = true → Masked s →
    x = s.readFP p fb → y = s.readFP p fs →
    ∃ t, exec (.add p fb fs fd) s = .next t ∧ SumDone p fd s.rm x y (isSub x || isSub y) s t

/-- R177, R171, R138, R139, R140, R141 (log 21, 23, 25, 26): SUB, masked: the sum of Fb and Fs with its sign inverted. -/
def Obligations.SubResult : Prop :=
  ∀ (p : Prec) (fb fs fd : FReg) (s : State) (x y y' : p.Pattern), (Instr.sub p fb fs fd).wellFormed = true →
    Masked s → x = s.readFP p fb → y = s.readFP p fs →
    y'.msb = !y.msb → (∀ i, i < p.width - 1 → y'.getLsbD i = y.getLsbD i) →
    ∃ t, exec (.sub p fb fs fd) s = .next t ∧ SumDone p fd s.rm x y' (isSub x || isSub y) s t

/-- R174, R138, R139, R140, R141 (log 21, 23, 25, 26): MUL, masked. -/
def Obligations.MulResult : Prop :=
  ∀ (p : Prec) (fb fs fd : FReg) (s : State) (x y : p.Pattern), (Instr.mul p fb fs fd).wellFormed = true → Masked s →
    x = s.readFP p fb → y = s.readFP p fs →
    ∃ t, exec (.mul p fb fs fd) s = .next t ∧
      (isNaN x = true ∨ isNaN y = true →
        FpDone p fd listOfArith { inval := isSNaN x || isSNaN y, subo := isSub x || isSub y }
          (fun r => classOf r = .qnan) s t) ∧
      (isZero x = true ∧ isInf y = true ∨ isInf x = true ∧ isZero y = true →
        FpDone p fd listOfArith { inval := true } (· = dqnan p) s t) ∧
      (isInf x = true ∧ isNaN y = false ∧ isZero y = false ∨ isInf y = true ∧ isNaN x = false ∧ isZero x = false →
        FpDone p fd listOfArith { subo := isSub x || isSub y } (· = infOf p (signOf x != signOf y)) s t) ∧
      (isFinite x = true → isFinite y = true →
        FpDone p fd listOfArith
          { (Machine.round p s.rm (quanta x * quanta y) (2 ^ (2 * p.scale)) (signOf x != signOf y)).2 with
            subo := isSub x || isSub y }
          (· = (Machine.round p s.rm (quanta x * quanta y) (2 ^ (2 * p.scale)) (signOf x != signOf y)).1) s t)

/-- R172, R138, R139, R140, R141 (log 21, 23, 25, 26, 27): DIV, masked: Fb over Fs. -/
def Obligations.DivResult : Prop :=
  ∀ (p : Prec) (fb fs fd : FReg) (s : State) (x y : p.Pattern), (Instr.div p fb fs fd).wellFormed = true → Masked s →
    x = s.readFP p fb → y = s.readFP p fs →
    ∃ t, exec (.div p fb fs fd) s = .next t ∧
      (isNaN x = true ∨ isNaN y = true →
        FpDone p fd listOfDiv { inval := isSNaN x || isSNaN y, subo := isSub x || isSub y }
          (fun r => classOf r = .qnan) s t) ∧
      (isZero x = true ∧ isZero y = true ∨ isInf x = true ∧ isInf y = true →
        FpDone p fd listOfDiv { inval := true } (· = dqnan p) s t) ∧
      (isInf x = true → isFinite y = true →
        FpDone p fd listOfDiv { subo := isSub y } (· = infOf p (signOf x != signOf y)) s t) ∧
      (isFinite x = true → isInf y = true →
        FpDone p fd listOfDiv { subo := isSub x } (· = zeroOf p (signOf x != signOf y)) s t) ∧
      (isFinite x = true → isZero x = false → isZero y = true →
        FpDone p fd listOfDiv { div0 := true, subo := isSub x } (· = infOf p (signOf x != signOf y)) s t) ∧
      (isFinite x = true → isFinite y = true → isZero y = false →
        FpDone p fd listOfDiv
          { (Machine.round p s.rm (if signOf x = signOf y then (magQuanta x : Int) else -(magQuanta x : Int)) (magQuanta y)
              (signOf x != signOf y)).2 with subo := isSub x || isSub y }
          (· = (Machine.round p s.rm (if signOf x = signOf y then (magQuanta x : Int) else -(magQuanta x : Int)) (magQuanta y)
              (signOf x != signOf y)).1) s t)

/-- R173, R138, R139, R140, R141 (log 10, 21, 23, 25, 26): MAC, masked, under either value of the open `MAC_FUSED`; `c` is
the addend. Without fusion the product is MUL's and the sum is ADD's (`mulCore`, `addCore`, as in `MulResult` and
`AddResult`), and both sets of kinds are reported: that OVF and INX of an overflowed product stand beside INVAL where
the addend is the opposite infinity is the model's choice between R173 and R315 (log 40). -/
def Obligations.MacResult : Prop :=
  ∀ (p : Prec) (fb fs fd : FReg) (s : State) (x y c : p.Pattern), (Instr.mac p fb fs fd).wellFormed = true →
    Masked s → x = s.readFP p fb → y = s.readFP p fs → c = s.readFP p fd →
    ∃ t, exec (.mac p fb fs fd) s = .next t ∧
      (isNaN x = true ∨ isNaN y = true ∨ isNaN c = true →
        FpDone p fd listOfArith
          { inval := isSNaN x || isSNaN y || isSNaN c, subo := isSub x || isSub y || isSub c }
          (fun r => classOf r = .qnan) s t) ∧
      (isZero x = true ∧ isInf y = true ∨ isInf x = true ∧ isZero y = true → isNaN c = false →
        FpDone p fd listOfArith { inval := true, subo := isSub c } (· = dqnan p) s t) ∧
      (isFinite x = true → isFinite y = true → isFinite c = true →
        if Config.macFused = true then
          FpDone p fd listOfArith
            { (Machine.round p s.rm (quanta c * 2 ^ p.scale + quanta x * quanta y) (2 ^ (2 * p.scale))
                (if (signOf x != signOf y) = signOf c then signOf c else s.rm == .towardNeg)).2 with
              subo := isSub x || isSub y || isSub c }
            (· = (Machine.round p s.rm (quanta c * 2 ^ p.scale + quanta x * quanta y) (2 ^ (2 * p.scale))
                (if (signOf x != signOf y) = signOf c then signOf c else s.rm == .towardNeg)).1) s t
        else
          FpDone p fd listOfArith
            { (mulCore p s.rm x y).2.union (addCore p s.rm c (mulCore p s.rm x y).1).2 with
              subo := isSub x || isSub y || isSub c }
            (· = (addCore p s.rm c (mulCore p s.rm x y).1).1) s t) ∧
      (isFinite x = true → isFinite y = true → isInf c = true →
        if Config.macFused = true then
          FpDone p fd listOfArith { subo := isSub x || isSub y } (· = c) s t
        else
          FpDone p fd listOfArith
            { (mulCore p s.rm x y).2.union (addCore p s.rm c (mulCore p s.rm x y).1).2 with
              subo := isSub x || isSub y }
            (· = (addCore p s.rm c (mulCore p s.rm x y).1).1) s t) ∧
      (isInf x = true ∧ isNaN y = false ∧ isZero y = false ∨ isInf y = true ∧ isNaN x = false ∧ isZero x = false →
        isNaN c = false →
        (isInf c = true → signOf c = (signOf x != signOf y)) →
        FpDone p fd listOfArith { subo := isSub x || isSub y || isSub c }
          (· = infOf p (signOf x != signOf y)) s t) ∧
      (isInf x = true ∧ isNaN y = false ∧ isZero y = false ∨ isInf y = true ∧ isNaN x = false ∧ isZero x = false →
        isInf c = true → signOf c ≠ (signOf x != signOf y) →
        FpDone p fd listOfArith { inval := true, subo := isSub x || isSub y } (· = dqnan p) s t)

/-- R176, R138, R139, R140, R141 (log 21, 23, 25, 26): SQRT, masked; `SqrtCorrect` says what the root of a positive
number is. -/
def Obligations.SqrtResult : Prop :=
  ∀ (p : Prec) (fs fd : FReg) (s : State) (x : p.Pattern), (Instr.sqrt p fs fd).wellFormed = true → Masked s →
    x = s.readFP p fs →
    ∃ t, exec (.sqrt p fs fd) s = .next t ∧
      (isNaN x = true →
        FpDone p fd { subo := true, inx := true, inval := true } { inval := isSNaN x }
          (fun r => classOf r = .qnan) s t) ∧
      (isZero x = true → FpDone p fd { subo := true, inx := true, inval := true } {} (· = x) s t) ∧
      (isNaN x = false → isZero x = false → signOf x = true →
        FpDone p fd { subo := true, inx := true, inval := true } { inval := true, subo := isSub x } (· = dqnan p) s t) ∧
      (isInf x = true → signOf x = false →
        FpDone p fd { subo := true, inx := true, inval := true } {} (· = x) s t) ∧
      (isFinite x = true → isZero x = false → signOf x = false →
        FpDone p fd { subo := true, inx := true, inval := true }
          { inx := (sqrtCore p s.rm x).2.inx, subo := isSub x } (· = (sqrtCore p s.rm x).1) s t)

/-- R171, R174, R117: ADD and MUL do not depend on the order of their sources, in any state: the same next state, or the
same fault, or the same refusal. For a NaN operand, and for FEAR after a signal, this is the model's choice, since R139
and R35 leave both values free: both runs read the streams of drawn values at one place of one state (log 12, 13, 14). -/
def Obligations.AddMulCommute : Prop :=
  ∀ (p : Prec) (fb fs fd : FReg) (s : State),
    exec (.add p fb fs fd) s = exec (.add p fs fb fd) s ∧ exec (.mul p fb fs fd) s = exec (.mul p fs fb fd) s

/-! ## Compare, limit, select, test -/

/-- R201, R202, R200, R146, R141 (log 20, 21, 28): CPQ and CPS, masked: the four compare flags, and INVAL for a
signalling NaN (CPQ) or exactly when UN is set (CPS). `CompareOrder` says what `fEq` and `fLt` are. -/
def Obligations.CompareResult : Prop :=
  (∀ (p : Prec) (fb fs : FReg) (s : State) (x y : p.Pattern), (Instr.cpq p fb fs).wellFormed = true → Masked s →
      x = s.readFP p fb → y = s.readFP p fs →
      ∃ t, exec (.cpq p fb fs) s = .next t ∧
        FlagsDone (fun i => exceptionBits i || (decide (16 ≤ i) && decide (i ≤ 19))) s t ∧
        Signalled { subo := true, inval := true }
          { inval := isSNaN x || isSNaN y, subo := isSub x || isSub y } s t ∧
        t.fsr.getLsbD 16 = (isNaN x || isNaN y) ∧ t.fsr.getLsbD 17 = fEq x y ∧ t.fsr.getLsbD 18 = fLt x y ∧
        t.fsr.getLsbD 19 = fLt y x) ∧
  (∀ (p : Prec) (fb fs : FReg) (s : State) (x y : p.Pattern), (Instr.cps p fb fs).wellFormed = true → Masked s →
      x = s.readFP p fb → y = s.readFP p fs →
      ∃ t, exec (.cps p fb fs) s = .next t ∧
        FlagsDone (fun i => exceptionBits i || (decide (16 ≤ i) && decide (i ≤ 19))) s t ∧
        Signalled { subo := true, inval := true }
          { inval := isNaN x || isNaN y, subo := isSub x || isSub y } s t ∧
        t.fsr.getLsbD 16 = (isNaN x || isNaN y) ∧ t.fsr.getLsbD 17 = fEq x y ∧ t.fsr.getLsbD 18 = fLt x y ∧
        t.fsr.getLsbD 19 = fLt y x)

/-- R146 (log 28): what the comparisons mean: no relation holds of a NaN; of two numbers exactly one of below, equal and
above holds; finite numbers compare by value, so the two zeros are equal; an infinity is above or below every other
number, by its sign. -/
def Obligations.CompareOrder : Prop :=
  ∀ (p : Prec) (x y : p.Pattern),
    (isNaN x = true ∨ isNaN y = true → fLt x y = false ∧ fEq x y = false ∧ fLt y x = false) ∧
    (isNaN x = false → isNaN y = false →
      (fLt x y = true ∧ fEq x y = false ∧ fLt y x = false) ∨ (fLt x y = false ∧ fEq x y = true ∧ fLt y x = false) ∨
        (fLt x y = false ∧ fEq x y = false ∧ fLt y x = true)) ∧
    (isFinite x = true → isFinite y = true →
      (fLt x y = true ↔ quanta x < quanta y) ∧ (fEq x y = true ↔ quanta x = quanta y)) ∧
    (isInf x = true → isNaN y = false →
      (fLt x y = true ↔ signOf x = true ∧ y ≠ x) ∧ (fLt y x = true ↔ signOf x = false ∧ y ≠ x))

/-- R203, R139, R140, R141 (log 21, 26, 28): FLIM, masked: Fb the minimum, Fs the maximum, Fd the value. -/
def Obligations.FlimResult : Prop :=
  ∀ (p : Prec) (fb fs fd : FReg) (s : State) (lo hi c : p.Pattern), (Instr.flim p fb fs fd).wellFormed = true →
    Masked s → lo = s.readFP p fb → hi = s.readFP p fs → c = s.readFP p fd →
    ∃ t, exec (.flim p fb fs fd) s = .next t ∧
      (isNaN lo = true ∨ isNaN hi = true ∨ isNaN c = true →
        FpDone p fd { subo := true, inval := true }
          { inval := isSNaN lo || isSNaN hi || isSNaN c, subo := isSub lo || isSub hi || isSub c }
          (fun r => classOf r = .qnan) s t) ∧
      (fLt hi lo = true → isNaN c = false →
        FpDone p fd { subo := true, inval := true }
          { inval := true, subo := isSub lo || isSub hi || isSub c } (· = dqnan p) s t) ∧
      (isNaN lo = false → fLt hi lo = false → fLt hi c = true →
        FpDone p fd { subo := true, inval := true } { subo := isSub lo || isSub hi || isSub c } (· = hi) s t) ∧
      (isNaN hi = false → fLt hi lo = false → fLt hi c = false → fLt c lo = true →
        FpDone p fd { subo := true, inval := true } { subo := isSub lo || isSub hi || isSub c } (· = lo) s t) ∧
      (isNaN lo = false → isNaN hi = false → isNaN c = false → fLt hi lo = false → fLt hi c = false →
        fLt c lo = false →
        FpDone p fd { subo := true, inval := true } { subo := isSub lo || isSub hi || isSub c } (· = c) s t)

/-- R204, R206, R139, R141, R146 (log 21, 26, 28): MAX and MIN, masked: Fb only where it is strictly above (below) Fs,
with -0 below +0; a quiet NaN for a NaN operand. -/
def Obligations.MaxMinResult : Prop :=
  ∀ (p : Prec) (fb fs fd : FReg) (s : State) (x y : p.Pattern), (Instr.max p fb fs fd).wellFormed = true → Masked s →
    x = s.readFP p fb → y = s.readFP p fs →
    (∃ t, exec (.max p fb fs fd) s = .next t ∧
      (isNaN x = true ∨ isNaN y = true →
        FpDone p fd { subo := true, inval := true }
          { inval := isSNaN x || isSNaN y, subo := isSub x || isSub y } (fun r => classOf r = .qnan) s t) ∧
      (isNaN x = false → isNaN y = false →
        FpDone p fd { subo := true, inval := true } { subo := isSub x || isSub y }
          (· = if tLt y x then x else y) s t)) ∧
    (∃ t, exec (.min p fb fs fd) s = .next t ∧
      (isNaN x = true ∨ isNaN y = true →
        FpDone p fd { subo := true, inval := true }
          { inval := isSNaN x || isSNaN y, subo := isSub x || isSub y } (fun r => classOf r = .qnan) s t) ∧
      (isNaN x = false → isNaN y = false →
        FpDone p fd { subo := true, inval := true } { subo := isSub x || isSub y }
          (· = if tLt x y then x else y) s t))

/-- R205, R207, R139, R141, R146 (log 21, 26, 28): MAXNM and MINNM, masked: the number beside a NaN, a quiet NaN for two,
and as MAX and MIN for two numbers; INVAL for a signalling NaN in every case. -/
def Obligations.MaxnmMinnmResult : Prop :=
  ∀ (p : Prec) (fb fs fd : FReg) (s : State) (x y : p.Pattern) (sig : Kinds),
    (Instr.maxnm p fb fs fd).wellFormed = true → Masked s → x = s.readFP p fb → y = s.readFP p fs →
    sig = { inval := isSNaN x || isSNaN y, subo := isSub x || isSub y } →
    (∃ t, exec (.maxnm p fb fs fd) s = .next t ∧
      FpDone p fd { subo := true, inval := true } sig
        (fun r => if isNaN x = true then (if isNaN y = true then classOf r = .qnan else r = y)
          else if isNaN y = true then r = x else r = if tLt y x then x else y) s t) ∧
    (∃ t, exec (.minnm p fb fs fd) s = .next t ∧
      FpDone p fd { subo := true, inval := true } sig
        (fun r => if isNaN x = true then (if isNaN y = true then classOf r = .qnan else r = y)
          else if isNaN y = true then r = x else r = if tLt x y then x else y) s t)

/-- R146 (log 28): the order of MAX and MIN is that of the compares, but with -0 below +0, for every two patterns; on
numbers it is a strict order, and two numbers that it does not separate are the same pattern. -/
def Obligations.TotalOrder : Prop :=
  (∀ (p : Prec) (x y : p.Pattern),
    tLt x y = true ↔ fLt x y = true ∨
      (isZero x = true ∧ signOf x = true ∧ isZero y = true ∧ signOf y = false)) ∧
  (∀ (p : Prec) (x y z : p.Pattern), isNaN x = false → isNaN y = false → isNaN z = false →
    tLt x x = false ∧ (tLt x y = true → tLt y z = true → tLt x z = true) ∧
      (tLt x y = false → tLt y x = false → x = y))

/-- R208 (positions log 20, FN log 28): TST in every state: the five test flags tell the class and the sign, and nothing
else changes. -/
def Obligations.TstResult : Prop :=
  ∀ (p : Prec) (fs : FReg) (s : State) (x : p.Pattern), (Instr.tst p fs).wellFormed = true → x = s.readFP p fs →
    ∃ t, exec (.tst p fs) s = .next t ∧
      FlagsDone (fun i => decide (24 ≤ i) && decide (i ≤ 28)) s t ∧ t.fear = s.fear ∧
      (t.fsr.getLsbD 28 = true ↔ classOf x = .sub) ∧ (t.fsr.getLsbD 27 = true ↔ classOf x = .inf) ∧
      t.fsr.getLsbD 26 = x.msb ∧ (t.fsr.getLsbD 25 = true ↔ classOf x = .zero) ∧
      (t.fsr.getLsbD 24 = true ↔ classOf x = .snan ∨ classOf x = .qnan)

/-! ## Conversions -/

/-- R234, R233, R230, R134, R141 (log 16, 21, 22, 23, 37): F2LI and F2DI, masked: five cases, the rounded integer in Fd or
in the pair of Fd. `RoundToIntCorrect` says what `roundToInt` is. -/
def Obligations.FloatToIntResult : Prop :=
  (∀ (p : Prec) (rnd : RndSel) (fs fd : FReg) (s : State) (x : p.Pattern) (i : Int),
      (Instr.f2li p rnd fs fd).wellFormed = true → Masked s → x = s.readFP p fs → i = roundToInt (convMode rnd s.fcr) x →
      ∃ t, exec (.f2li p rnd fs fd) s = .next t ∧
        (isNaN x = true ∨ isInf x = true →
          FpDone .single fd listOfToInt { inval := true } (· = 0x80000000#32) s t) ∧
        (isSub x = true → FpDone .single fd listOfToInt { subo := true, inx := true } (· = 0#32) s t) ∧
        (isFinite x = true → isSub x = false → 2 ^ 31 - 1 < i →
          FpDone .single fd listOfToInt { hugi := true, inval := true } (· = 0x7FFFFFFF#32) s t) ∧
        (isFinite x = true → isSub x = false → i < -2 ^ 31 →
          FpDone .single fd listOfToInt { hugi := true, inval := true } (· = 0x80000000#32) s t) ∧
        (isFinite x = true → isSub x = false → -2 ^ 31 ≤ i → i ≤ 2 ^ 31 - 1 →
          FpDone .single fd listOfToInt { inx := decide (i * 2 ^ p.scale ≠ quanta x) } (fun r => r.toInt = i) s t)) ∧
  (∀ (p : Prec) (rnd : RndSel) (fs fd : FReg) (s : State) (x : p.Pattern) (i : Int),
      (Instr.f2di p rnd fs fd).wellFormed = true → Masked s → x = s.readFP p fs → i = roundToInt (convMode rnd s.fcr) x →
      ∃ t, exec (.f2di p rnd fs fd) s = .next t ∧
        (isNaN x = true ∨ isInf x = true →
          FpDone .double fd listOfToInt { inval := true } (· = 0x8000000000000000#64) s t) ∧
        (isSub x = true → FpDone .double fd listOfToInt { subo := true, inx := true } (· = 0#64) s t) ∧
        (isFinite x = true → isSub x = false → 2 ^ 63 - 1 < i →
          FpDone .double fd listOfToInt { hugi := true, inval := true } (· = 0x7FFFFFFFFFFFFFFF#64) s t) ∧
        (isFinite x = true → isSub x = false → i < -2 ^ 63 →
          FpDone .double fd listOfToInt { hugi := true, inval := true } (· = 0x8000000000000000#64) s t) ∧
        (isFinite x = true → isSub x = false → -2 ^ 63 ≤ i → i ≤ 2 ^ 63 - 1 →
          FpDone .double fd listOfToInt { inx := decide (i * 2 ^ p.scale ≠ quanta x) } (fun r => r.toInt = i) s t))

/-- R232, R235, R231, R134, R141 (log 16, 21, 22, 23, 25): DI2F and LI2F, masked: the integer rounded by the effective
mode; INX is the only kind that can arise. -/
def Obligations.IntToFloatResult : Prop :=
  (∀ (p : Prec) (rnd : RndSel) (fs fd : FReg) (s : State), (Instr.li2f p rnd fs fd).wellFormed = true → Masked s →
    ∃ t, exec (.li2f p rnd fs fd) s = .next t ∧
      FpDone p fd { inx := true } { inx := (Machine.round p (convMode rnd s.fcr) (s.readF fs).toInt 1 false).2.inx }
        (· = (Machine.round p (convMode rnd s.fcr) (s.readF fs).toInt 1 false).1) s t) ∧
  (∀ (p : Prec) (rnd : RndSel) (fs fd : FReg) (s : State), (Instr.di2f p rnd fs fd).wellFormed = true → Masked s →
    ∃ t, exec (.di2f p rnd fs fd) s = .next t ∧
      FpDone p fd { inx := true } { inx := (Machine.round p (convMode rnd s.fcr) (s.readFD fs).toInt 1 false).2.inx }
        (· = (Machine.round p (convMode rnd s.fcr) (s.readFD fs).toInt 1 false).1) s t)

/-- R231, R235: a 32-bit integer is always exact in double precision, so LI2F.d signals nothing, with any FCR, and its
result has the integer's value. -/
def Obligations.Li2fDoubleExact : Prop :=
  ∀ (rnd : RndSel) (fs fd : FReg) (s : State), fd.getLsbD 0 = false →
    ∃ t, exec (.li2f .double rnd fs fd) s = .next t ∧
      FpDone .double fd { inx := true } {} (fun r => quanta r = (s.readF fs).toInt * 2 ^ 1074 ∧ isFinite r = true) s t

/-! ## COS and SIN -/

/-- R250, R251, R252, R139, R140, R141 (log 11, 12, 21, 26): COS and SIN, masked: a NaN, an infinity, and every other
operand, whose value is open but for the source's example point and never a NaN. -/
def Obligations.TrigResult : Prop :=
  (∀ (fs fd : FReg) (s : State) (x : Prec.single.Pattern), Masked s → x = s.readF fs →
      ∃ t, exec (.cos fs fd) s = .next t ∧
        (isNaN x = true → FpDone .single fd listOfTrig { inval := isSNaN x } (fun r => classOf r = .qnan) s t) ∧
        (isInf x = true → FpDone .single fd listOfTrig { inval := true } (· = 0x7FC00001#32) s t) ∧
        (isFinite x = true → ∃ inx udf : Bool,
          FpDone .single fd listOfTrig { inx := inx, udf := udf, subo := isSub x }
            (fun r => isNaN r = false ∧ (x = 0x4016DB6E#32 → r = 0xBF3530E2#32)) s t)) ∧
  (∀ (fs fd : FReg) (s : State) (x : Prec.single.Pattern), Masked s → x = s.readF fs →
      ∃ t, exec (.sin fs fd) s = .next t ∧
        (isNaN x = true → FpDone .single fd listOfTrig { inval := isSNaN x } (fun r => classOf r = .qnan) s t) ∧
        (isInf x = true → FpDone .single fd listOfTrig { inval := true } (· = 0x7FC00001#32) s t) ∧
        (isFinite x = true → ∃ inx udf : Bool,
          FpDone .single fd listOfTrig { inx := inx, udf := udf, subo := isSub x }
            (fun r => isNaN r = false ∧ (x = 0x3F492492#32 → r = 0x3F351398#32)) s t))

/-! ## Moves between registers -/

/-- R263: MOV.s and MOV.d copy the bits of Fs to Fd, and nothing else changes; no class of operand matters, no exception
is signalled, and FCR is not asked. An odd register of MOV.d is no operand of it:
`RefusedForms`. -/
def Obligations.MovCopies : Prop :=
  (∀ (fs fd : FReg) (s : State), ∃ t, exec (.movF .single fs fd) s = .next t ∧ t.readF fd = s.readF fs ∧
    (∀ r, r ≠ fd → t.readF r = s.readF r) ∧ t.fsr = s.fsr ∧ t.fcr = s.fcr ∧ t.fear = s.fear ∧ MemKept s t ∧
    RestKept (fun _ => false) s t ∧ t.pc = s.pc + 4) ∧
  (∀ (fs fd : FReg) (s : State), fs.getLsbD 0 = false → fd.getLsbD 0 = false →
    ∃ t, exec (.movF .double fs fd) s = .next t ∧ t.readF fd = s.readF fs ∧ t.readF (fd + 1) = s.readF (fs + 1) ∧
    (∀ r, r ≠ fd → r ≠ fd + 1 → t.readF r = s.readF r) ∧ t.fsr = s.fsr ∧ t.fcr = s.fcr ∧ t.fear = s.fear ∧
    MemKept s t ∧ RestKept (fun _ => false) s t ∧ t.pc = s.pc + 4)

/-- R264, R265, R266: MOVC writes the constant of the two tables at every index, and nothing else changes. An odd
register of MOVC.d is no operand of it: `RefusedForms`. -/
def Obligations.MovcLoadsConstant : Prop :=
  (∀ (index : BitVec 5) (fd : FReg) (s : State), ∃ t, exec (.movc .single index fd) s = .next t ∧
    some (t.readF fd) =
      ([0x41200000, 0x3F800000, 0x40000000, 0x40C90FDB, 0x40490FDB, 0x3FC90FDB, 0x3F490FDB, 0x402DF854,
        0x3F317218, 0x40549A78, 0x3FB504F3, 0x3F3504F3, 0xFFFFFFFF, 0xFFC00000, 0xFFBFFFFF, 0xFF800001,
        0xFF800000, 0xFF7FFFFF, 0x80800000, 0x807FFFFF, 0x80000001, 0x80000000, 0x00000000, 0x00000001,
        0x007FFFFF, 0x00800000, 0x7F7FFFFF, 0x7F800000, 0x7F800001, 0x7FBFFFFF, 0x7FC00000, 0x7FFFFFFF] :
          List Word)[index.toNat]? ∧
    (∀ r, r ≠ fd → t.readF r = s.readF r) ∧ t.fsr = s.fsr ∧ t.fcr = s.fcr ∧ t.fear = s.fear ∧ MemKept s t ∧
    RestKept (fun _ => false) s t ∧ t.pc = s.pc + 4) ∧
  (∀ (index : BitVec 5) (fd : FReg) (s : State), fd.getLsbD 0 = false →
    ∃ t, exec (.movc .double index fd) s = .next t ∧
    some (t.readFD fd) =
      ([0x4024000000000000, 0x3FF0000000000000, 0x4000000000000000, 0x401921FB54442D18,
        0x400921FB54442D18, 0x3FF921FB54442D18, 0x3FE921FB54442D18, 0x4005BF0A8B145769,
        0x3FE62E42FEFA39EF, 0x400A934F0979A371, 0x3FF6A09E667F3BCD, 0x3FE6A09E667F3BCD,
        0xFFFFFFFFFFFFFFFF, 0xFFF8000000000000, 0xFFF7FFFFFFFFFFFF, 0xFFF0000000000001,
        0xFFF0000000000000, 0xFFEFFFFFFFFFFFFF, 0x8010000000000000, 0x800FFFFFFFFFFFFF,
        0x8000000000000001, 0x8000000000000000, 0x0000000000000000, 0x0000000000000001,
        0x000FFFFFFFFFFFFF, 0x0010000000000000, 0x7FEFFFFFFFFFFFFF, 0x7FF0000000000000,
        0x7FF0000000000001, 0x7FF7FFFFFFFFFFFF, 0x7FF8000000000000, 0x7FFFFFFFFFFFFFFF] :
          List (BitVec 64))[index.toNat]? ∧
    (∀ r, r ≠ fd → r ≠ fd + 1 → t.readF r = s.readF r) ∧ t.fsr = s.fsr ∧ t.fcr = s.fcr ∧ t.fear = s.fear ∧
    MemKept s t ∧ RestKept (fun _ => false) s t ∧ t.pc = s.pc + 4)

/-- R267, R269, R260, R33 (log 16, 20, 34): `MOV.l` from a coprocessor register to Wd and from Ws to a coprocessor
register, which is written whole; FSRH yields FSR[31:16] above sixteen zeros. -/
def Obligations.MovRegister : Prop :=
  (∀ (src : CopSrc) (n : WReg) (s : State), ∃ t, exec (.movFromCop src (.reg n)) s = .next t ∧
      t.readW n = copRead s src ∧ CopKept s t ∧ MemKept s t ∧ RestKept (· == n) s t ∧ t.pc = s.pc + 4) ∧
  (∀ (n : WReg) (dst : CopDst) (s : State), ∃ t, exec (.movToCop (.reg n) dst) s = .next t ∧
      CopWritten dst (s.readW n) s t ∧ MemKept s t ∧ RestKept (fun _ => false) s t ∧ t.pc = s.pc + 4) ∧
  (∀ s : State, (copRead s .fsrh).extractLsb' 16 16 = s.fsr.extractLsb' 16 16 ∧
    (copRead s .fsrh).extractLsb' 0 16 = 0#16)

/-- R270, R260, R26 (log 16, 34): `MOV.l lit32` writes the whole literal; `pc` moves by 8. -/
def Obligations.MovLitWrites : Prop :=
  ∀ (lit : BitVec 32) (dst : LitDst) (s : State), ∃ t, exec (.movLit lit dst) s = .next t ∧
    CopWritten dst.asDst lit s t ∧ MemKept s t ∧ RestKept (fun _ => false) s t ∧ t.pc = s.pc + 8

/-- R115 (a), (d), (e), R117, R270: what is refused, in every state. The second word of `MOV.l lit32` met on its own
(log 19), an odd register where a pair is required (decision D31) and a reserved operand (D10, D39): the model's choices
(log 17, 38). MOV.d and MOVC.d are named besides the rule for every instruction. -/
def Obligations.RefusedForms : Prop :=
  (∀ (hi : BitVec 12) (dst : LitDst) (s : State), exec (.movLitWord2 hi dst) s = .refused .noSuchOpcode) ∧
  (∀ (i : Instr) (s : State), i.formError = some .oddPairRegister → exec i s = .refused .oddPairRegister) ∧
  (∀ (i : Instr) (s : State), i.formError = some .reservedField → exec i s = .refused .reservedField) ∧
  (∀ (fs fd : FReg) (s : State), fs.getLsbD 0 = true ∨ fd.getLsbD 0 = true →
    exec (.movF .double fs fd) s = .refused .oddPairRegister) ∧
  (∀ (index : BitVec 5) (fd : FReg) (s : State), fd.getLsbD 0 = true →
    exec (.movc .double index fd) s = .refused .oddPairRegister)

/-! ## Moves to and from memory -/

/-- R261, R105, R66 (log 31, 32, 33): the address of every W operand, and of the literal-offset forms, whose offset is the
12-bit literal read as a signed number of long words. -/
def Obligations.OperandAddresses : Prop :=
  ∀ (s : State) (n b : WReg) (k : BitVec 12),
    operandAddr s (.reg n) = none ∧ operandAddr s (.ind n) = some (s.readW n) ∧
    operandAddr s (.postInc n) = some (s.readW n) ∧ operandAddr s (.postDec n) = some (s.readW n) ∧
    operandAddr s (.preDec n) = some (s.readW n - 4) ∧ operandAddr s (.preInc n) = some (s.readW n + 4) ∧
    operandAddr s (.indexed n b) = some (s.readW n + s.readW b) ∧
    offsetAddr s n k = s.readW n + BitVec.ofInt 32 (4 * k.toInt)

/-- R262, R268, R64, R62, R75 (log 6, 29, 30, 31): `MOV.l Fs, [Wnd+Slit14]` stores Fs at the offset address,
`MOV.l [Wns+Slit14], Fd` loads the long word there, and nothing else changes. -/
def Obligations.OffsetMoves : Prop :=
  (∀ (fs : FReg) (wnd : WReg) (k : BitVec 12) (s : State), s.mem.wf → Admitted s.writable (offsetAddr s wnd k) →
      ∃ t, exec (.movStore fs wnd k) s = .next t ∧ Stored (offsetAddr s wnd k) (s.readF fs) s t ∧ CopKept s t ∧
        RestKept (fun _ => false) s t ∧ t.pc = s.pc + 4) ∧
  (∀ (wns : WReg) (k : BitVec 12) (fd : FReg) (s : State), s.mem.wf → Admitted s.readable (offsetAddr s wns k) →
      ∃ t v, exec (.movLoad wns k fd) s = .next t ∧ Loaded (offsetAddr s wns k) v s t ∧ CopWritten (.f fd) v s t ∧
        RestKept (fun _ => false) s t ∧ t.pc = s.pc + 4)

/-- R267, R261, R64, R62 (log 29, 30, 31, 33): `MOV.l` from a coprocessor register to memory, in the six memory modes: the
long word is stored at the operand's address, and the modifying modes move Wd by 4. -/
def Obligations.MovCopToMemory : Prop :=
  ∀ (src : CopSrc) (dst : WOperand) (s : State) (a : Word), dst.formError = none → s.mem.wf →
    operandAddr s dst = some a → Admitted s.writable a →
    ∃ t, exec (.movFromCop src dst) s = .next t ∧ Stored a (copRead s src) s t ∧ CopKept s t ∧
      RestKept (dst.modifies ·) s t ∧
      (∀ n, dst = .postInc n ∨ dst = .preInc n → t.readW n = s.readW n + 4) ∧
      (∀ n, dst = .postDec n ∨ dst = .preDec n → t.readW n = s.readW n - 4) ∧ t.pc = s.pc + 4

/-- R269, R261, R64, R62, R75 (log 6, 29, 30, 31, 33, 34): `MOV.l` from memory to a coprocessor register, in the six memory
modes. -/
def Obligations.MovMemoryToCop : Prop :=
  ∀ (src : WOperand) (dst : CopDst) (s : State) (a : Word), src.formError = none → s.mem.wf →
    operandAddr s src = some a → Admitted s.readable a →
    ∃ t v, exec (.movToCop src dst) s = .next t ∧ Loaded a v s t ∧ CopWritten dst v s t ∧
      RestKept (src.modifies ·) s t ∧
      (∀ n, src = .postInc n ∨ src = .preInc n → t.readW n = s.readW n + 4) ∧
      (∀ n, src = .postDec n ∨ src = .preDec n → t.readW n = s.readW n - 4) ∧ t.pc = s.pc + 4

/-- R272, R24, R64, R62 (log 29, 30): PUSH stores at W15, which goes up by 4. -/
def Obligations.PushStores : Prop :=
  ∀ (src : CopSrc) (s : State), s.mem.wf → Admitted s.writable (s.readW 15) →
    ∃ t, exec (.push src) s = .next t ∧ Stored (s.readW 15) (copRead s src) s t ∧ CopKept s t ∧
      RestKept (· == 15) s t ∧ t.readW 15 = s.readW 15 + 4 ∧ t.pc = s.pc + 2

/-- R271, R24, R64, R62, R75 (log 6, 29, 30, 34): POP loads from the long word below W15, which goes down by 4. -/
def Obligations.PopLoads : Prop :=
  ∀ (dst : CopDst) (s : State), s.mem.wf → Admitted s.readable (s.readW 15 - 4) →
    ∃ t v, exec (.pop dst) s = .next t ∧ Loaded (s.readW 15 - 4) v s t ∧ CopWritten dst v s t ∧
      RestKept (· == 15) s t ∧ t.readW 15 = s.readW 15 - 4 ∧ t.pc = s.pc + 2

/-- R24, R271, R272, R69: a POP right after a PUSH gives the pushed value back and restores W15. -/
def Obligations.PushThenPop : Prop :=
  ∀ (src : CopSrc) (dst : CopDst) (s : State), s.mem.wf → Admitted s.writable (s.readW 15) →
    Admitted s.readable (s.readW 15) →
    ∃ t u, exec (.push src) s = .next t ∧ exec (.pop dst) t = .next u ∧ copRead u dst.asSrc = copRead s src ∧
      (∀ r, u.readW r = s.readW r) ∧ u.pc = s.pc + 4

/-- R120: PUSH.l and POP.l behave as `MOV.l x, [W15++]` and `MOV.l [--W15], x`, but for their own 16-bit encodings, in
every state: the same next state up to `pc`, the same fault. That a byte which holds no value yet is drawn alike is the
model's choice (log 6, 14). -/
def Obligations.StackFormsAreMoves : Prop :=
  (∀ (src : CopSrc) (s : State),
    (encode (.push src)).length = 1 ∧ (encode (.movFromCop src (.postInc 15))).length = 2 ∧
    (∀ t, exec (.movFromCop src (.postInc 15)) s = .next t → exec (.push src) s = .next { t with pc := s.pc + 2 }) ∧
    (∀ e, exec (.movFromCop src (.postInc 15)) s = .fault e → exec (.push src) s = .fault e)) ∧
  (∀ (dst : CopDst) (s : State),
    (encode (.pop dst)).length = 1 ∧ (encode (.movToCop (.preDec 15) dst)).length = 2 ∧
    (∀ t, exec (.movToCop (.preDec 15) dst) s = .next t → exec (.pop dst) s = .next { t with pc := s.pc + 2 }) ∧
    (∀ e, exec (.movToCop (.preDec 15) dst) s = .fault e → exec (.pop dst) s = .fault e))

/-- R63, R64, R75, R317 (log 5, 7, 30): every memory form at an address that is not a multiple of 4 stops with AddressError,
and at an aligned one with a byte outside the launch memory's set it is stuck. -/
def Obligations.AccessStops : Prop :=
  (∀ (s : State) (a : Word), a.extractLsb' 0 2 ≠ 0#2 →
      (∀ fs w k, offsetAddr s w k = a → exec (.movStore fs w k) s = .fault (.addressError a)) ∧
      (∀ fd w k, offsetAddr s w k = a → exec (.movLoad w k fd) s = .fault (.addressError a)) ∧
      (∀ c o, o.formError = none → operandAddr s o = some a → exec (.movFromCop c o) s = .fault (.addressError a)) ∧
      (∀ o c, o.formError = none → operandAddr s o = some a → exec (.movToCop o c) s = .fault (.addressError a)) ∧
      (∀ c, s.readW 15 = a → exec (.push c) s = .fault (.addressError a)) ∧
      (∀ c, s.readW 15 - 4 = a → exec (.pop c) s = .fault (.addressError a))) ∧
  (∀ (s : State) (a : Word) (i : Nat), a.extractLsb' 0 2 = 0#2 → i < 4 →
      (inRegions s.writable (a.toNat + i) = false →
        (∀ fs w k, offsetAddr s w k = a → exec (.movStore fs w k) s = .fault (.notAdmitted a)) ∧
        (∀ c o, o.formError = none → operandAddr s o = some a → exec (.movFromCop c o) s = .fault (.notAdmitted a)) ∧
        (∀ c, s.readW 15 = a → exec (.push c) s = .fault (.notAdmitted a))) ∧
      (inRegions s.readable (a.toNat + i) = false →
        (∀ fd w k, offsetAddr s w k = a → exec (.movLoad w k fd) s = .fault (.notAdmitted a)) ∧
        (∀ o c, o.formError = none → operandAddr s o = some a → exec (.movToCop o c) s = .fault (.notAdmitted a)) ∧
        (∀ c, s.readW 15 - 4 = a → exec (.pop c) s = .fault (.notAdmitted a))))

/-! ## Special-register logic and branch -/

/-- R290, R292 (codes log 16): AND clears the bits 15:0 whose literal bit is 0, IOR sets those whose literal bit is 1, and
nothing else changes, in any state. -/
def Obligations.SpecialLogic : Prop :=
  (∀ (lit : BitVec 16) (r : SReg) (s : State), ∃ t v, exec (.andLit lit r) s = .next t ∧
      CopWritten r.asDst v s t ∧
      (∀ i, v.getLsbD i = ((copRead s r.asDst.asSrc).getLsbD i && (lit.getLsbD i || decide (16 ≤ i)))) ∧
      MemKept s t ∧ RestKept (fun _ => false) s t ∧ t.pc = s.pc + 4) ∧
  (∀ (lit : BitVec 16) (r : SReg) (s : State), ∃ t v, exec (.iorLit lit r) s = .next t ∧
      CopWritten r.asDst v s t ∧
      (∀ i, v.getLsbD i = ((copRead s r.asDst.asSrc).getLsbD i || lit.getLsbD i)) ∧
      MemKept s t ∧ RestKept (fun _ => false) s t ∧ t.pc = s.pc + 4)

/-- R291, R293, R113, R115 (g) (log 9, 14): FBRA by what the launch says of its condition code: a stated condition is a
list of tests on FSR[31:16]; an unstated one is what the open, partial map `Config.fbraCond` has there, a predicate or
nothing; where the map has nothing FBRA is refused. The next `pc` is the target or the next instruction, and nothing else
changes. -/
def Obligations.FbraBranches : Prop :=
  ∀ (b : BitVec 4) (n : BitVec 20) (s : State),
    (∀ c : Condition, s.condTable[b.toNat]'(b.isLt) = .given c →
      exec (.fbra b n) s = .next { s with
        pc := if (∃ m ∈ c, s.fsr.extractLsb' 16 16 &&& m.mask = m.value)
          then s.pc + 4 + BitVec.ofInt 32 (2 * n.toInt) else s.pc + 4
        draws := s.draws + 1 }) ∧
    (s.condTable[b.toNat]'(b.isLt) = .unstated →
      exec (.fbra b n) s = match Config.fbraCond b with
        | none => .refused .unknownCondition
        | some c => .next { s with
          pc := if c (s.fsr.extractLsb' 16 16)
            then s.pc + 4 + BitVec.ofInt 32 (2 * n.toInt) else s.pc + 4
          draws := s.draws + 1 }) ∧
    (s.condTable[b.toNat]'(b.isLt) = .absent → exec (.fbra b n) s = .refused .unknownCondition)
end

