-- ==== Sys2Proof/Laws/Encoding.lean ====
section
/-! SUPPORT. The fields of the encoder's words: each field of a format reads back what the encoder put there. -/

namespace Sys2Proof

/-- A field inside the low part of a concatenation. -/
theorem extract_low {m n : Nat} (x : BitVec m) (y : BitVec n) {s l : Nat} (h : s + l ≤ n) :
    (x ++ y).extractLsb' s l = y.extractLsb' s l := by
  apply BitVec.eq_of_getLsbD_eq
  intro i hi
  simp only [BitVec.getLsbD_extractLsb', BitVec.getLsbD_append]
  rw [if_pos (by omega)]

/-- A field inside the high part of a concatenation. -/
theorem extract_high {m n : Nat} (x : BitVec m) (y : BitVec n) {s l : Nat} (h : n ≤ s) :
    (x ++ y).extractLsb' s l = x.extractLsb' (s - n) l := by
  apply BitVec.eq_of_getLsbD_eq
  intro i hi
  simp only [BitVec.getLsbD_extractLsb', BitVec.getLsbD_append]
  rw [if_neg (by omega), show s + i - n = s - n + i by omega]

/-- A whole field. -/
theorem extract_all {n : Nat} (x : BitVec n) : x.extractLsb' 0 n = x := by
  apply BitVec.eq_of_getLsbD_eq
  intro i hi
  simp [hi]

/-- A word whose bit 31 is 1 has length bit 1 (R91). -/
theorem top_bit {w : BitVec 32} (h : w.getLsbD 31 = true) : w.extractLsb' 31 1 = 1#1 := by
  apply BitVec.eq_of_getLsbD_eq
  intro i hi
  have : i = 0 := by omega
  subst this
  simpa using h

/-- A 32-bit word is its two PS words. -/
theorem halves_join (w : BitVec 32) : (w.extractLsb' 16 16 ++ w.extractLsb' 0 16 : BitVec 32) = w := by
  apply BitVec.eq_of_getLsbD_eq
  intro i hi
  rw [show (w.extractLsb' 16 16 ++ w.extractLsb' 0 16 : BitVec 32).getLsbD i = _ from BitVec.getLsbD_append]
  by_cases h : i < 16
  · simp [h]
  · have h2 : 16 + (i - 16) = i := by omega
    have h3 : i - 16 < 16 := by omega
    simp [h, h2, h3]

/-- The length bit of a 32-bit word stands at the top of its first PS word. -/
theorem halves_top (w : BitVec 32) : (w.extractLsb' 16 16).extractLsb' 15 1 = w.extractLsb' 31 1 := by
  apply BitVec.eq_of_getLsbD_eq
  intro i hi
  have : i = 0 := by omega
  subst this
  simp

/-! ## The layouts at the defaults of `IFETCH` and `ENDIAN` -/

@[simp] theorem halves_eq (w : BitVec 32) : halves w = [w.extractLsb' 16 16, w.extractLsb' 0 16] := rfl

@[simp] theorem joinHalves_eq (a b : PsWord) : joinHalves a b = a ++ b := rfl

@[simp] theorem psWordOf_eq (a b : Byte) : psWordOf a b = b ++ a := rfl

@[simp] theorem bytesOf_eq (h : PsWord) : bytesOf h = [h.extractLsb' 0 8, h.extractLsb' 8 8] := rfl

/-- The bytes of a PS word read back as the PS word. -/
theorem psWordOf_bytes (h : PsWord) : psWordOf (h.extractLsb' 0 8) (h.extractLsb' 8 8) = h := by
  rw [psWordOf_eq]
  apply BitVec.eq_of_getLsbD_eq
  intro i hi
  rw [show (h.extractLsb' 8 8 ++ h.extractLsb' 0 8 : BitVec 16).getLsbD i = _ from BitVec.getLsbD_append]
  by_cases h8 : i < 8
  · simp [h8]
  · have h2 : 8 + (i - 8) = i := by omega
    have h3 : i - 8 < 8 := by omega
    simp [h8, h2, h3]

/-- The bytes of PS words read back as the PS words. -/
@[simp] theorem psWords_psBytes (ws : List PsWord) : psWords (psBytes ws) = ws := by
  induction ws with
  | nil => rfl
  | cons h t ih => exact congrArg₂ List.cons (psWordOf_bytes h) ih

/-! ## FP formats -/

section
variable (op : FpOp) (p : Prec) (d s b : FReg) (e : BitVec 3)

theorem fpWord_top : (fpWord op p d s b e).getLsbD 31 = true := by
  unfold fpWord
  iterate 7 rw [BitVec.getLsbD_append, if_neg (by decide)]
  cases op <;> rfl

theorem fpWord_minor : (fpWord op p d s b e).extractLsb' 0 4 = op.minor := by
  unfold fpWord
  rw [extract_low _ _ (by decide), extract_all]

theorem fpWord_e : (fpWord op p d s b e).extractLsb' 4 3 = e := by
  unfold fpWord
  rw [extract_high _ _ (by decide), extract_low _ _ (by decide), extract_all]

theorem fpWord_b : (fpWord op p d s b e).extractLsb' 7 5 = b := by
  unfold fpWord
  iterate 2 rw [extract_high _ _ (by decide)]
  rw [extract_low _ _ (by decide), extract_all]

theorem fpWord_s : (fpWord op p d s b e).extractLsb' 12 5 = s := by
  unfold fpWord
  iterate 3 rw [extract_high _ _ (by decide)]
  rw [extract_low _ _ (by decide), extract_all]

theorem fpWord_d : (fpWord op p d s b e).extractLsb' 17 5 = d := by
  unfold fpWord
  iterate 4 rw [extract_high _ _ (by decide)]
  rw [extract_low _ _ (by decide), extract_all]

theorem fpWord_zz : (fpWord op p d s b e).extractLsb' 22 2 = 0#2 := by
  unfold fpWord
  iterate 5 rw [extract_high _ _ (by decide)]
  rw [extract_low _ _ (by decide), extract_all]

theorem fpWord_p : (fpWord op p d s b e).extractLsb' 24 1 = p.bit := by
  unfold fpWord
  iterate 6 rw [extract_high _ _ (by decide)]
  rw [extract_low _ _ (by decide), extract_all]

theorem fpWord_group : (fpWord op p d s b e).extractLsb' 25 7 = op.group := by
  unfold fpWord
  iterate 7 rw [extract_high _ _ (by decide)]
  rw [extract_all]

end

@[simp] theorem precOfBit_bit (p : Prec) : precOfBit p.bit = p := by cases p <;> rfl

@[simp] theorem fpOpOf_code (op : FpOp) : fpOpOf op.group op.minor = some op := by cases op <;> decide

/-- Every code of a rounding suffix reads back as the suffix. -/
@[simp] theorem rndOfCode_code (r : RndSel) : rndOfCode r.code = .ok r := by
  cases r with
  | fromFcr => rfl
  | fixed m => cases m <;> rfl

@[simp] theorem sregOfCode_code (r : SReg) : sregOfCode r.code = .ok r := by cases r <;> rfl

@[simp] theorem copSrcOf_code (c : CopSrc) : copSrcOf c.rBit c.code = .ok c := by cases c <;> rfl

@[simp] theorem copDstOf_code (c : CopDst) : copDstOf c.rBit c.code = .ok c := by cases c <;> rfl

@[simp] theorem litDstOf_code (c : LitDst) : litDstOf c.rBit c.code = .ok c := by cases c <;> rfl

/-- The mode, register and offset fields of a well-formed W operand read back as the operand. -/
theorem wOperandOf_code {o : WOperand} (h : o.formError = none) : wOperandOf o.mode o.base o.offset = .ok o := by
  cases o with
  | indexed n b =>
    have hb : b ≠ 15#4 := by
      intro e
      simp [WOperand.formError, e] at h
    simp [wOperandOf, WOperand.mode, WOperand.base, WOperand.offset, hb]
  | reg n => rfl
  | ind n => rfl
  | postInc n => rfl
  | postDec n => rfl
  | preDec n => rfl
  | preInc n => rfl

/-! ## The top bit of the other formats -/

theorem fpkWord_top (op : FpOp) (p : Prec) (d : FReg) (i : BitVec 5) : (fpkWord op p d i).getLsbD 31 = true := by
  unfold fpkWord
  iterate 6 rw [BitVec.getLsbD_append, if_neg (by decide)]
  cases op <;> rfl

theorem fplWord_top (op : FpOp) (r : SReg) (lit : BitVec 16) : (fplWord op r lit).getLsbD 31 = true := by
  unfold fplWord
  iterate 5 rw [BitVec.getLsbD_append, if_neg (by decide)]
  cases op <;> rfl

theorem fbrWord_top (c : BitVec 4) (n : BitVec 20) : (fbrWord c n).getLsbD 31 = true := by
  unfold fbrWord
  iterate 4 rw [BitVec.getLsbD_append, if_neg (by decide)]
  rfl

theorem mvoWord_top {g : BitVec 7} (h : g.getLsbD 6 = true) (f : FReg) (w : WReg) (k : BitVec 12) :
    (mvoWord g f w k).getLsbD 31 = true := by
  unfold mvoWord
  iterate 5 rw [BitVec.getLsbD_append, if_neg (by decide)]
  exact h

theorem mvxOutWord_top (c : CopSrc) (o : WOperand) : (mvxOutWord c o).getLsbD 31 = true := by
  unfold mvxOutWord
  iterate 9 rw [BitVec.getLsbD_append, if_neg (by decide)]
  rfl

theorem mvxInWord_top (o : WOperand) (c : CopDst) : (mvxInWord o c).getLsbD 31 = true := by
  unfold mvxInWord
  iterate 9 rw [BitVec.getLsbD_append, if_neg (by decide)]
  rfl

theorem mvlWord1_top (lit : BitVec 32) : (mvlWord1 lit).getLsbD 31 = true := by
  unfold mvlWord1
  iterate 4 rw [BitVec.getLsbD_append, if_neg (by decide)]
  rfl

theorem mvlWord2_top (hi : BitVec 12) (d : LitDst) : (mvlWord2 hi d).getLsbD 31 = true := by
  unfold mvlWord2
  iterate 7 rw [BitVec.getLsbD_append, if_neg (by decide)]
  rfl

theorem stkWord_top {g : BitVec 7} (h : g.getLsbD 6 = false) (c : BitVec 5) (r : BitVec 1) :
    (stkWord g c r).getLsbD 15 = false := by
  unfold stkWord
  iterate 4 rw [BitVec.getLsbD_append, if_neg (by decide)]
  exact h

end Sys2Proof
end

