-- ==== Sys2Proof/Laws/Flags.lean ====
section
/-! SUPPORT. What the computations of Sys2Proof/Machine/Flags.lean do to each bit of FSR, and what a masked FCR means for
the trap check. -/

namespace Sys2Proof.Machine

theorem Kind.bit_lt (k : Kind) : k.bit < 7 := by cases k <;> decide

theorem Kind.bit_injective {j k : Kind} (h : j.bit = k.bit) : j = k := by
  cases j <;> cases k <;> first | rfl | (exact absurd h (by decide))

/-- Bit `k.bit` of a set as a word tells whether the kind is in the set. -/
@[simp] theorem Kinds.word_bit (s : Kinds) (k : Kind) : s.word.getLsbD k.bit = s.has k := by
  obtain ⟨a, b, c, d, e, f, g⟩ := s
  cases k <;> revert a b c d e f g <;> decide

/-- A set as a word has no bit above bit 6. -/
theorem Kinds.word_high (s : Kinds) {i : Nat} (h : 7 ≤ i) : s.word.getLsbD i = false := by
  have : s.word.toNat < 2 ^ 7 := by
    simp only [Kinds.word, BitVec.toNat_setWidth]
    exact lt_of_le_of_lt (Nat.mod_le _ _) (BitVec.isLt _)
  rw [BitVec.getLsbD, Nat.testBit_lt_two_pow]
  exact lt_of_lt_of_le this (Nat.pow_le_pow_right (by omega) h)

/-- `statusWord` at the default of `STATUS_POLICY` and `STICKY_POS`. -/
theorem statusWord_eq (fsr : Word) (list sig : Kinds) :
    statusWord fsr list sig = (fsr &&& ~~~list.word) ||| sig.word ||| (sig.word <<< 8) := rfl

@[simp] theorem Kind.stickyBit_eq (k : Kind) : k.stickyBit = k.bit + 8 := rfl

/-- The status flag of a kind after `Signal` (R141 step 2). -/
theorem statusFlag_statusWord (fsr : Word) (list sig : Kinds) (k : Kind) :
    statusFlag (statusWord fsr list sig) k = ((statusFlag fsr k && !list.has k) || sig.has k) := by
  have hk := k.bit_lt
  simp only [statusFlag, statusWord_eq, BitVec.getLsbD_or, BitVec.getLsbD_and, BitVec.getLsbD_not,
    BitVec.getLsbD_shiftLeft, Kinds.word_bit]
  have h1 : decide (k.bit < 32) = true := by simp; omega
  have h2 : k.bit < 8 := by omega
  simp [h1, h2]

/-- The sticky flag of a kind after `Signal` (R141 step 3). -/
theorem stickyFlag_statusWord (fsr : Word) (list sig : Kinds) (k : Kind) :
    stickyFlag (statusWord fsr list sig) k = (stickyFlag fsr k || sig.has k) := by
  have hk := k.bit_lt
  simp only [stickyFlag, Kind.stickyBit_eq, statusWord_eq, BitVec.getLsbD_or, BitVec.getLsbD_and, BitVec.getLsbD_not,
    BitVec.getLsbD_shiftLeft, Kinds.word_high list (show 7 ≤ k.bit + 8 by omega),
    Kinds.word_high sig (show 7 ≤ k.bit + 8 by omega), Nat.add_sub_cancel, Kinds.word_bit]
  have h1 : decide (k.bit + 8 < 32) = true := by simp; omega
  simp [h1]

/-- Every bit of FSR outside the status and sticky flags is kept by `Signal`. -/
theorem getLsbD_statusWord (fsr : Word) (list sig : Kinds) {i : Nat} (h : exceptionBits i = false) :
    (statusWord fsr list sig).getLsbD i = fsr.getLsbD i := by
  have hi : i = 7 ∨ 15 ≤ i := by
    simp only [exceptionBits, Bool.and_eq_false_iff, decide_eq_false_iff_not, not_lt, not_not] at h
    omega
  simp only [statusWord_eq, BitVec.getLsbD_or, BitVec.getLsbD_and, BitVec.getLsbD_not, BitVec.getLsbD_shiftLeft,
    Kinds.word_high list (show 7 ≤ i by omega), Kinds.word_high sig (show 7 ≤ i by omega)]
  rcases hi with rfl | hi
  · simp
  · rw [Kinds.word_high sig (show 7 ≤ i - 8 by omega)]
    by_cases h32 : i < 32
    · simp [h32]
    · simp [h32, BitVec.getLsbD_of_ge fsr i (by omega)]

/-- With every mask bit 1 no kind is trap-enabled. -/
theorem trapEnabled_masked {s : State} (h : Masked s) (k : Kind) : trapEnabled s.fcr k = false := by
  have hb : (s.fcr.extractLsb' 0 7).getLsbD k.bit = true := by
    rw [show s.fcr.extractLsb' 0 7 = 0x7F#7 from h]
    cases k <;> decide
  have hk := k.bit_lt
  simp only [BitVec.getLsbD_extractLsb', Nat.zero_add, Bool.and_eq_true] at hb
  simp [trapEnabled, hb.2]

/-- With every mask bit 1 nothing traps (R314). -/
@[simp] theorem traps_masked {s : State} (h : Masked s) (sig : Kinds) : traps s.fcr sig = false := by
  simp [traps, Kind.all, trapEnabled_masked h]

/-- A trap has a signalled, trap-enabled kind. -/
theorem exists_of_traps {fcr : Word} {sig : Kinds} (h : traps fcr sig = true) :
    ∃ k, trapEnabled fcr k = true ∧ sig.has k = true := by
  simp only [traps, List.any_eq_true, Bool.and_eq_true] at h
  obtain ⟨k, -, h⟩ := h
  exact ⟨k, h⟩

/-- A signalled, trap-enabled kind traps. -/
theorem traps_of_exists {fcr : Word} {sig : Kinds} {k : Kind} (h : trapEnabled fcr k = true)
    (hs : sig.has k = true) : traps fcr sig = true := by
  simp only [traps, List.any_eq_true, Bool.and_eq_true]
  exact ⟨k, by cases k <;> simp [Kind.all], h, hs⟩

end Sys2Proof.Machine
end

