-- ==== Sys2Proof/Laws/Memory.lean ====
section
/-! SUPPORT. The memory operations: what a read gives after each of them, and that each keeps the canonical form. -/

namespace Sys2Proof.Machine

/-! ## One byte -/

/-- A read after a write. -/
theorem Memory.read_write (m : Memory) (a : Nat) (b : Byte) (x : Nat) (h : m.wf) :
    (m.write a b).read x = if x = a then some b else m.read x := by
  induction m with
  | nil => simp only [Memory.write, Memory.read]; split <;> split <;> simp_all
  | cons c m ih =>
    obtain ⟨k, c⟩ := c
    have hw : Memory.wf m := ⟨(List.pairwise_cons.mp h.1).2, fun y hy => h.2 y (List.mem_cons_of_mem _ hy)⟩
    simp only [Memory.write]
    split
    · rename_i hlt
      simp only [Memory.read]
      by_cases hx : a = x <;> simp [hx, eq_comm]
    · split
      · subst_vars
        simp only [Memory.read]
        by_cases hx : k = x
        · simp [hx]
        · simp [hx, Ne.symm hx]
      · simp only [Memory.read, ih hw]
        by_cases hx : k = x
        · subst hx
          simp_all [eq_comm]
        · simp [hx]

/-- The addresses of a written memory are the written one and the old ones. -/
theorem Memory.mem_write (m : Memory) (a : Nat) (b : Byte) (x : Nat) :
    x ∈ (m.write a b).map Prod.fst ↔ x = a ∨ x ∈ m.map Prod.fst := by
  induction m with
  | nil => simp [Memory.write]
  | cons c m ih =>
    obtain ⟨k, c⟩ := c
    simp only [Memory.write]
    split
    · simp
    · split
      · subst_vars; simp
      · simp only [List.map_cons, List.mem_cons, ih]; tauto

/-- A write below 2^32 keeps the canonical form. -/
theorem Memory.wf_write {m : Memory} (a : Nat) (b : Byte) (h : m.wf) (ha : a < 2 ^ 32) : (m.write a b).wf := by
  refine ⟨?_, fun x hx => ?_⟩
  · have h1 := h.1
    clear h ha
    induction m with
    | nil => simp [Memory.write]
    | cons c m ih =>
      obtain ⟨k, c⟩ := c
      simp only [List.map_cons, List.pairwise_cons] at h1
      simp only [Memory.write]
      split
      · rename_i hlt
        simp only [List.map_cons, List.pairwise_cons, List.mem_cons]
        exact ⟨fun y hy => hy.elim (fun e => e ▸ hlt) fun hm => lt_trans hlt (h1.1 y hm), h1⟩
      · split
        · subst_vars
          simpa using h1
        · simp only [List.map_cons, List.pairwise_cons]
          refine ⟨fun y hy => ?_, ih h1.2⟩
          rcases (Memory.mem_write m a b y).mp hy with rfl | hm
          · omega
          · exact h1.1 y hm
  · rcases (Memory.mem_write m a b x).mp hx with rfl | hm
    · exact ha
    · exact h.2 x hm

/-- A read after a byte was settled: the value it held, else the new one. -/
theorem Memory.read_settleByte (m : Memory) (a : Nat) (b : Byte) (x : Nat) (h : m.wf) :
    (m.settleByte a b).read x = if x = a then some ((m.read a).getD b) else m.read x := by
  simp only [Memory.settleByte]
  split
  · rename_i c hc
    by_cases hx : x = a <;> simp [hx, hc]
  · rename_i hc
    rw [Memory.read_write m a b x h]
    simp [hc]

theorem Memory.wf_settleByte {m : Memory} (a : Nat) (b : Byte) (h : m.wf) (ha : a < 2 ^ 32) :
    (m.settleByte a b).wf := by
  simp only [Memory.settleByte]
  split
  · exact h
  · exact Memory.wf_write a b h ha

/-! ## Long words -/

/-- The byte of a long word at offset `i`. -/
def byteAt (v : Word) (i : Nat) : Byte := v.extractLsb' (8 * i) 8

theorem aligned_toNat {a : Word} (h : aligned a = true) : a.toNat + 3 < 2 ^ 32 := by
  have h0 : (a.extractLsb' 0 2).toNat = 0 := by
    rw [show a.extractLsb' 0 2 = 0#2 by simpa [aligned] using h]; rfl
  have := a.isLt
  simp only [BitVec.extractLsb'_toNat, Nat.shiftRight_zero] at h0
  omega

theorem Memory.wf_writeLong {m : Memory} {a : Word} (v : Word) (h : m.wf) (ha : aligned a = true) :
    (m.writeLong a.toNat v).wf := by
  have := aligned_toNat ha
  exact Memory.wf_write _ _ (Memory.wf_write _ _ (Memory.wf_write _ _ (Memory.wf_write _ _ h (by omega)) (by omega))
    (by omega)) (by omega)

theorem Memory.wf_settleLong {m : Memory} {a : Word} (v : Word) (h : m.wf) (ha : aligned a = true) :
    (m.settleLong a.toNat v).wf := by
  have := aligned_toNat ha
  exact Memory.wf_settleByte _ _ (Memory.wf_settleByte _ _ (Memory.wf_settleByte _ _ (Memory.wf_settleByte _ _ h
    (by omega)) (by omega)) (by omega)) (by omega)

/-- The bytes of a long word at the default of `ENDIAN`. -/
@[simp] theorem longBytes_eq (v : Word) :
    longBytes v = (v.extractLsb' 0 8, v.extractLsb' 8 8, v.extractLsb' 16 8, v.extractLsb' 24 8) := rfl

/-- The long word of four bytes at the default of `ENDIAN`. -/
@[simp] theorem longOf_eq (b0 b1 b2 b3 : Byte) : longOf b0 b1 b2 b3 = b3 ++ b2 ++ b1 ++ b0 := rfl

/-- A read after a long word was stored. -/
theorem Memory.read_writeLong {m : Memory} (a : Nat) (v : Word) (x : Nat) (h : m.wf) (ha : a + 3 < 2 ^ 32) :
    (m.writeLong a v).read x = if x < a ∨ a + 4 ≤ x then m.read x else some (byteAt v (x - a)) := by
  have h1 := Memory.wf_write a (longBytes v).1 h (by omega)
  have h2 := Memory.wf_write (a + 1) (longBytes v).2.1 h1 (by omega)
  have h3 := Memory.wf_write (a + 2) (longBytes v).2.2.1 h2 (by omega)
  simp only [Memory.writeLong]
  rw [Memory.read_write _ _ _ _ h3, Memory.read_write _ _ _ _ h2, Memory.read_write _ _ _ _ h1,
    Memory.read_write _ _ _ _ h]
  split
  · subst_vars; simp [byteAt]
  · split
    · subst_vars; simp [byteAt]
    · split
      · subst_vars; simp [byteAt]
      · split
        · subst_vars; simp [byteAt]
        · rw [if_pos (by omega)]

/-- A read after a long word was settled. -/
theorem Memory.read_settleLong {m : Memory} (a : Nat) (v : Word) (x : Nat) (h : m.wf) (ha : a + 3 < 2 ^ 32) :
    (m.settleLong a v).read x =
      if x < a ∨ a + 4 ≤ x then m.read x else some ((m.read x).getD (byteAt v (x - a))) := by
  have h1 := Memory.wf_settleByte a (longBytes v).1 h (by omega)
  have h2 := Memory.wf_settleByte (a + 1) (longBytes v).2.1 h1 (by omega)
  have h3 := Memory.wf_settleByte (a + 2) (longBytes v).2.2.1 h2 (by omega)
  simp only [Memory.settleLong]
  simp only [Memory.read_settleByte _ _ _ _ h3, Memory.read_settleByte _ _ _ _ h2,
    Memory.read_settleByte _ _ _ _ h1, Memory.read_settleByte _ _ _ _ h]
  by_cases e0 : x = a
  · subst e0; simp [byteAt]
  by_cases e1 : x = a + 1
  · subst e1; simp [byteAt]
  by_cases e2 : x = a + 2
  · subst e2; simp [byteAt]
  by_cases e3 : x = a + 3
  · subst e3; simp [byteAt]
  rw [if_pos (show x < a ∨ a + 4 ≤ x by omega)]
  simp [e0, e1, e2, e3]

/-- The bytes of the long word read at `a`, where all four hold a value. -/
theorem Memory.byteAt_readLong {m : Memory} {a i : Nat} {b : Byte} (hi : i < 4) (h : m.read (a + i) = some b) :
    byteAt (m.readLong a) i = b := by
  have key : ∀ b3 b2 b1 b0 : Byte, byteAt (b3 ++ b2 ++ b1 ++ b0) 0 = b0 ∧ byteAt (b3 ++ b2 ++ b1 ++ b0) 1 = b1 ∧
      byteAt (b3 ++ b2 ++ b1 ++ b0) 2 = b2 ∧ byteAt (b3 ++ b2 ++ b1 ++ b0) 3 = b3 := by
    intro b3 b2 b1 b0
    have h0 := b0.isLt; have h1 := b1.isLt; have h2 := b2.isLt; have h3 := b3.isLt
    have e : (b3 ++ b2 ++ b1 ++ b0).toNat = ((b3.toNat * 256 + b2.toNat) * 256 + b1.toNat) * 256 + b0.toNat := by
      simp only [BitVec.toNat_append]
      rw [← Nat.shiftLeft_add_eq_or_of_lt h0, ← Nat.shiftLeft_add_eq_or_of_lt h1, ← Nat.shiftLeft_add_eq_or_of_lt h2]
      simp only [Nat.shiftLeft_eq]
    refine ⟨?_, ?_, ?_, ?_⟩ <;> apply BitVec.eq_of_toNat_eq <;>
      simp only [byteAt, BitVec.extractLsb'_toNat, Nat.shiftRight_eq_div_pow] <;> rw [e] <;> omega
  simp only [Memory.readLong, longOf_eq]
  obtain ⟨k0, k1, k2, k3⟩ := key ((m.read (a + 3)).getD 0) ((m.read (a + 2)).getD 0) ((m.read (a + 1)).getD 0)
    ((m.read a).getD 0)
  rcases (by omega : i = 0 ∨ i = 1 ∨ i = 2 ∨ i = 3) with rfl | rfl | rfl | rfl
  · rw [k0]; simpa using congrArg (·.getD 0) h
  · rw [k1]; simpa using congrArg (·.getD 0) h
  · rw [k2]; simpa using congrArg (·.getD 0) h
  · rw [k3]; simpa using congrArg (·.getD 0) h

/-! ## The program image -/

theorem Memory.wf_writeBytes (bs : List Byte) : ∀ {m : Memory} (a : Word), m.wf → (m.writeBytes a bs).wf := by
  induction bs with
  | nil => exact fun _ h => h
  | cons b bs ih => exact fun a h => ih (a + 1) (Memory.wf_write a.toNat b h a.isLt)

/-- The memory after reset is in canonical form. -/
theorem State.reset_mem_wf : State.reset.mem.wf := by decide

/-- The program image after reset is in canonical form. -/
theorem State.reset_prog_wf : State.reset.prog.wf := by decide

end Sys2Proof.Machine
end

