-- ==== Sys2Proof/Laws/State.lean ====
section
/-! SUPPORT. What each update of the state does to each field, and what a register read gives after a register write.
A field that an update leaves alone is unchanged by `rfl`. -/

namespace Sys2Proof.Machine

/-! ## `retire` -/

@[simp] theorem State.retire_f (s : State) (n : Nat) : (s.retire n).f = s.f := rfl
@[simp] theorem State.retire_w (s : State) (n : Nat) : (s.retire n).w = s.w := rfl
@[simp] theorem State.retire_pc (s : State) (n : Nat) : (s.retire n).pc = s.pc + BitVec.ofNat 32 n := rfl
@[simp] theorem State.retire_fsr (s : State) (n : Nat) : (s.retire n).fsr = s.fsr := rfl
@[simp] theorem State.retire_fcr (s : State) (n : Nat) : (s.retire n).fcr = s.fcr := rfl
@[simp] theorem State.retire_fear (s : State) (n : Nat) : (s.retire n).fear = s.fear := rfl
@[simp] theorem State.retire_mem (s : State) (n : Nat) : (s.retire n).mem = s.mem := rfl
@[simp] theorem State.retire_prog (s : State) (n : Nat) : (s.retire n).prog = s.prog := rfl
@[simp] theorem State.retire_readable (s : State) (n : Nat) : (s.retire n).readable = s.readable := rfl
@[simp] theorem State.retire_writable (s : State) (n : Nat) : (s.retire n).writable = s.writable := rfl
@[simp] theorem State.retire_condTable (s : State) (n : Nat) : (s.retire n).condTable = s.condTable := rfl
@[simp] theorem State.retire_endAddr (s : State) (n : Nat) : (s.retire n).endAddr = s.endAddr := rfl
@[simp] theorem State.retire_complete (s : State) (n : Nat) : (s.retire n).complete = s.complete := rfl
@[simp] theorem State.retire_draws (s : State) (n : Nat) : (s.retire n).draws = s.draws + 1 := rfl
@[simp] theorem State.retire_readF (s : State) (n : Nat) (r : FReg) : (s.retire n).readF r = s.readF r := rfl
@[simp] theorem State.retire_readFD (s : State) (n : Nat) (r : FReg) : (s.retire n).readFD r = s.readFD r := rfl
@[simp] theorem State.retire_readW (s : State) (n : Nat) (r : WReg) : (s.retire n).readW r = s.readW r := rfl
@[simp] theorem State.retire_readFP (s : State) (n : Nat) (p : Prec) (r : FReg) :
    (s.retire n).readFP p r = s.readFP p r := by cases p <;> rfl

/-! ## `jump` -/

@[simp] theorem State.jump_f (s : State) (a : Word) : (s.jump a).f = s.f := rfl
@[simp] theorem State.jump_w (s : State) (a : Word) : (s.jump a).w = s.w := rfl
@[simp] theorem State.jump_pc (s : State) (a : Word) : (s.jump a).pc = a := rfl
@[simp] theorem State.jump_fsr (s : State) (a : Word) : (s.jump a).fsr = s.fsr := rfl
@[simp] theorem State.jump_fcr (s : State) (a : Word) : (s.jump a).fcr = s.fcr := rfl
@[simp] theorem State.jump_fear (s : State) (a : Word) : (s.jump a).fear = s.fear := rfl
@[simp] theorem State.jump_mem (s : State) (a : Word) : (s.jump a).mem = s.mem := rfl
@[simp] theorem State.jump_prog (s : State) (a : Word) : (s.jump a).prog = s.prog := rfl
@[simp] theorem State.jump_readable (s : State) (a : Word) : (s.jump a).readable = s.readable := rfl
@[simp] theorem State.jump_writable (s : State) (a : Word) : (s.jump a).writable = s.writable := rfl
@[simp] theorem State.jump_condTable (s : State) (a : Word) : (s.jump a).condTable = s.condTable := rfl
@[simp] theorem State.jump_endAddr (s : State) (a : Word) : (s.jump a).endAddr = s.endAddr := rfl
@[simp] theorem State.jump_complete (s : State) (a : Word) : (s.jump a).complete = s.complete := rfl
@[simp] theorem State.jump_draws (s : State) (a : Word) : (s.jump a).draws = s.draws + 1 := rfl

/-! ## `signalled` -/

@[simp] theorem State.signalled_f (s : State) (l g : Kinds) : (s.signalled l g).f = s.f := rfl
@[simp] theorem State.signalled_w (s : State) (l g : Kinds) : (s.signalled l g).w = s.w := rfl
@[simp] theorem State.signalled_pc (s : State) (l g : Kinds) : (s.signalled l g).pc = s.pc := rfl
@[simp] theorem State.signalled_fsr (s : State) (l g : Kinds) : (s.signalled l g).fsr = statusWord s.fsr l g := rfl
@[simp] theorem State.signalled_fcr (s : State) (l g : Kinds) : (s.signalled l g).fcr = s.fcr := rfl
@[simp] theorem State.signalled_fear (s : State) (l g : Kinds) :
    (s.signalled l g).fear = if g = Kinds.none then s.fear else Config.freeFear s.draws := rfl
@[simp] theorem State.signalled_mem (s : State) (l g : Kinds) : (s.signalled l g).mem = s.mem := rfl
@[simp] theorem State.signalled_prog (s : State) (l g : Kinds) : (s.signalled l g).prog = s.prog := rfl
@[simp] theorem State.signalled_readable (s : State) (l g : Kinds) : (s.signalled l g).readable = s.readable := rfl
@[simp] theorem State.signalled_writable (s : State) (l g : Kinds) : (s.signalled l g).writable = s.writable := rfl
@[simp] theorem State.signalled_condTable (s : State) (l g : Kinds) : (s.signalled l g).condTable = s.condTable := rfl
@[simp] theorem State.signalled_endAddr (s : State) (l g : Kinds) : (s.signalled l g).endAddr = s.endAddr := rfl
@[simp] theorem State.signalled_complete (s : State) (l g : Kinds) : (s.signalled l g).complete = s.complete := rfl
@[simp] theorem State.signalled_draws (s : State) (l g : Kinds) : (s.signalled l g).draws = s.draws := rfl
@[simp] theorem State.signalled_readF (s : State) (l g : Kinds) (r : FReg) :
    (s.signalled l g).readF r = s.readF r := rfl
@[simp] theorem State.signalled_readW (s : State) (l g : Kinds) (r : WReg) :
    (s.signalled l g).readW r = s.readW r := rfl

/-! ## `noteEnd` -/

@[simp] theorem State.noteEnd_f (s : State) : s.noteEnd.f = s.f := rfl
@[simp] theorem State.noteEnd_w (s : State) : s.noteEnd.w = s.w := rfl
@[simp] theorem State.noteEnd_pc (s : State) : s.noteEnd.pc = s.pc := rfl
@[simp] theorem State.noteEnd_fsr (s : State) : s.noteEnd.fsr = s.fsr := rfl
@[simp] theorem State.noteEnd_fcr (s : State) : s.noteEnd.fcr = s.fcr := rfl
@[simp] theorem State.noteEnd_fear (s : State) : s.noteEnd.fear = s.fear := rfl
@[simp] theorem State.noteEnd_mem (s : State) : s.noteEnd.mem = s.mem := rfl
@[simp] theorem State.noteEnd_prog (s : State) : s.noteEnd.prog = s.prog := rfl
@[simp] theorem State.noteEnd_endAddr (s : State) : s.noteEnd.endAddr = s.endAddr := rfl
@[simp] theorem State.noteEnd_complete (s : State) : s.noteEnd.complete = decide (s.endAddr = some s.pc) := rfl
@[simp] theorem State.noteEnd_draws (s : State) : s.noteEnd.draws = s.draws := rfl

/-! ## `writeF` -/

@[simp] theorem State.writeF_w (s : State) (r : FReg) (v : Word) : (s.writeF r v).w = s.w := rfl
@[simp] theorem State.writeF_pc (s : State) (r : FReg) (v : Word) : (s.writeF r v).pc = s.pc := rfl
@[simp] theorem State.writeF_fsr (s : State) (r : FReg) (v : Word) : (s.writeF r v).fsr = s.fsr := rfl
@[simp] theorem State.writeF_fcr (s : State) (r : FReg) (v : Word) : (s.writeF r v).fcr = s.fcr := rfl
@[simp] theorem State.writeF_fear (s : State) (r : FReg) (v : Word) : (s.writeF r v).fear = s.fear := rfl
@[simp] theorem State.writeF_mem (s : State) (r : FReg) (v : Word) : (s.writeF r v).mem = s.mem := rfl
@[simp] theorem State.writeF_prog (s : State) (r : FReg) (v : Word) : (s.writeF r v).prog = s.prog := rfl
@[simp] theorem State.writeF_readable (s : State) (r : FReg) (v : Word) : (s.writeF r v).readable = s.readable := rfl
@[simp] theorem State.writeF_writable (s : State) (r : FReg) (v : Word) : (s.writeF r v).writable = s.writable := rfl
@[simp] theorem State.writeF_condTable (s : State) (r : FReg) (v : Word) :
    (s.writeF r v).condTable = s.condTable := rfl
@[simp] theorem State.writeF_endAddr (s : State) (r : FReg) (v : Word) : (s.writeF r v).endAddr = s.endAddr := rfl
@[simp] theorem State.writeF_complete (s : State) (r : FReg) (v : Word) : (s.writeF r v).complete = s.complete := rfl
@[simp] theorem State.writeF_draws (s : State) (r : FReg) (v : Word) : (s.writeF r v).draws = s.draws := rfl
@[simp] theorem State.writeF_readW (s : State) (r : FReg) (v : Word) (n : WReg) :
    (s.writeF r v).readW n = s.readW n := rfl

@[simp] theorem State.readF_writeF_self (s : State) (r : FReg) (v : Word) : (s.writeF r v).readF r = v := by
  simp [State.readF, State.writeF]

theorem State.readF_writeF_ne (s : State) {r q : FReg} (v : Word) (h : q ≠ r) :
    (s.writeF r v).readF q = s.readF q := by
  have hn : r.toNat ≠ q.toNat := fun e => h (BitVec.eq_of_toNat_eq e.symm)
  simp only [State.readF, State.writeF]
  exact Vector.getElem_set_ne r.isLt q.isLt hn

/-! ## `writeFP` -/

@[simp] theorem State.writeFP_w (s : State) (p : Prec) (r : FReg) (v : p.Pattern) :
    (s.writeFP p r v).w = s.w := by cases p <;> rfl
@[simp] theorem State.writeFP_pc (s : State) (p : Prec) (r : FReg) (v : p.Pattern) :
    (s.writeFP p r v).pc = s.pc := by cases p <;> rfl
@[simp] theorem State.writeFP_fsr (s : State) (p : Prec) (r : FReg) (v : p.Pattern) :
    (s.writeFP p r v).fsr = s.fsr := by cases p <;> rfl
@[simp] theorem State.writeFP_fcr (s : State) (p : Prec) (r : FReg) (v : p.Pattern) :
    (s.writeFP p r v).fcr = s.fcr := by cases p <;> rfl
@[simp] theorem State.writeFP_fear (s : State) (p : Prec) (r : FReg) (v : p.Pattern) :
    (s.writeFP p r v).fear = s.fear := by cases p <;> rfl
@[simp] theorem State.writeFP_mem (s : State) (p : Prec) (r : FReg) (v : p.Pattern) :
    (s.writeFP p r v).mem = s.mem := by cases p <;> rfl
@[simp] theorem State.writeFP_prog (s : State) (p : Prec) (r : FReg) (v : p.Pattern) :
    (s.writeFP p r v).prog = s.prog := by cases p <;> rfl
@[simp] theorem State.writeFP_readable (s : State) (p : Prec) (r : FReg) (v : p.Pattern) :
    (s.writeFP p r v).readable = s.readable := by cases p <;> rfl
@[simp] theorem State.writeFP_writable (s : State) (p : Prec) (r : FReg) (v : p.Pattern) :
    (s.writeFP p r v).writable = s.writable := by cases p <;> rfl
@[simp] theorem State.writeFP_condTable (s : State) (p : Prec) (r : FReg) (v : p.Pattern) :
    (s.writeFP p r v).condTable = s.condTable := by cases p <;> rfl
@[simp] theorem State.writeFP_endAddr (s : State) (p : Prec) (r : FReg) (v : p.Pattern) :
    (s.writeFP p r v).endAddr = s.endAddr := by cases p <;> rfl
@[simp] theorem State.writeFP_complete (s : State) (p : Prec) (r : FReg) (v : p.Pattern) :
    (s.writeFP p r v).complete = s.complete := by cases p <;> rfl
@[simp] theorem State.writeFP_draws (s : State) (p : Prec) (r : FReg) (v : p.Pattern) :
    (s.writeFP p r v).draws = s.draws := by cases p <;> rfl
@[simp] theorem State.writeFP_readW (s : State) (p : Prec) (r : FReg) (v : p.Pattern) (n : WReg) :
    (s.writeFP p r v).readW n = s.readW n := by cases p <;> rfl

theorem FReg.ne_add_one (r : FReg) : r ≠ r + 1 := by
  intro h
  have := congrArg BitVec.toNat h
  have hr := r.isLt
  simp [BitVec.toNat_add] at this
  omega

/-- A 64-bit value is its two halves. -/
theorem halves_append (v : BitVec 64) : (v.extractLsb' 32 32 ++ v.extractLsb' 0 32 : BitVec 64) = v := by
  apply BitVec.eq_of_getLsbD_eq
  intro i hi
  rw [show (v.extractLsb' 32 32 ++ v.extractLsb' 0 32 : BitVec 64).getLsbD i = _ from BitVec.getLsbD_append]
  by_cases h : i < 32
  · simp [h]
  · have h2 : 32 + (i - 32) = i := by omega
    have h3 : i - 32 < 32 := by omega
    simp [h, h2, h3]

/-- A pair reads back what was written to it (R21), whatever its number. -/
@[simp] theorem State.readFD_writeFD_self (s : State) (r : FReg) (v : BitVec 64) : (s.writeFD r v).readFD r = v := by
  simp only [State.readFD, State.writeFD, State.readF_writeF_self,
    State.readF_writeF_ne _ _ (FReg.ne_add_one r)]
  exact halves_append v

/-- An operand of either precision reads back what was written to it. -/
@[simp] theorem State.readFP_writeFP_self (s : State) (p : Prec) (r : FReg) (v : p.Pattern) :
    (s.writeFP p r v).readFP p r = v := by
  cases p
  · exact State.readF_writeF_self s r v
  · exact State.readFD_writeFD_self s r v

theorem State.readF_writeFP_ne (s : State) (p : Prec) {r q : FReg} (v : p.Pattern) (h : p.covers r q = false) :
    (s.writeFP p r v).readF q = s.readF q := by
  cases p
  · exact State.readF_writeF_ne s _ (by simpa [Prec.covers] using h)
  · simp only [Prec.covers, Bool.or_eq_false_iff, beq_eq_false_iff_ne] at h
    show ((s.writeF r _).writeF (r + 1) _).readF q = _
    rw [State.readF_writeF_ne _ _ h.2, State.readF_writeF_ne _ _ h.1]

/-! ## `writeW` -/

@[simp] theorem State.writeW_f (s : State) (r : WReg) (v : Word) : (s.writeW r v).f = s.f := rfl
@[simp] theorem State.writeW_pc (s : State) (r : WReg) (v : Word) : (s.writeW r v).pc = s.pc := rfl
@[simp] theorem State.writeW_fsr (s : State) (r : WReg) (v : Word) : (s.writeW r v).fsr = s.fsr := rfl
@[simp] theorem State.writeW_fcr (s : State) (r : WReg) (v : Word) : (s.writeW r v).fcr = s.fcr := rfl
@[simp] theorem State.writeW_fear (s : State) (r : WReg) (v : Word) : (s.writeW r v).fear = s.fear := rfl
@[simp] theorem State.writeW_mem (s : State) (r : WReg) (v : Word) : (s.writeW r v).mem = s.mem := rfl
@[simp] theorem State.writeW_prog (s : State) (r : WReg) (v : Word) : (s.writeW r v).prog = s.prog := rfl
@[simp] theorem State.writeW_readable (s : State) (r : WReg) (v : Word) : (s.writeW r v).readable = s.readable := rfl
@[simp] theorem State.writeW_writable (s : State) (r : WReg) (v : Word) : (s.writeW r v).writable = s.writable := rfl
@[simp] theorem State.writeW_condTable (s : State) (r : WReg) (v : Word) :
    (s.writeW r v).condTable = s.condTable := rfl
@[simp] theorem State.writeW_endAddr (s : State) (r : WReg) (v : Word) : (s.writeW r v).endAddr = s.endAddr := rfl
@[simp] theorem State.writeW_complete (s : State) (r : WReg) (v : Word) : (s.writeW r v).complete = s.complete := rfl
@[simp] theorem State.writeW_draws (s : State) (r : WReg) (v : Word) : (s.writeW r v).draws = s.draws := rfl
@[simp] theorem State.writeW_readF (s : State) (r : WReg) (v : Word) (n : FReg) :
    (s.writeW r v).readF n = s.readF n := rfl

@[simp] theorem State.readW_writeW_self (s : State) (r : WReg) (v : Word) : (s.writeW r v).readW r = v := by
  simp [State.readW, State.writeW]

theorem State.readW_writeW_ne (s : State) {r q : WReg} (v : Word) (h : q ≠ r) :
    (s.writeW r v).readW q = s.readW q := by
  have hn : r.toNat ≠ q.toNat := fun e => h (BitVec.eq_of_toNat_eq e.symm)
  simp only [State.readW, State.writeW]
  exact Vector.getElem_set_ne r.isLt q.isLt hn

end Sys2Proof.Machine
end

