-- ==== Sys2Proof/Laws/Ops.lean ====
section
/-! SUPPORT. One lemma for each shared operation that says what it can answer, for the proofs about instructions to cite
instead of unfolding it. -/

namespace Sys2Proof.Machine

/-! ## The form of a term -/

theorem withForm_eq {i : Instr} (h : i.wellFormed = true) (o : Outcome) : withForm i o = o := by
  have : i.formError = none := by simpa [Instr.wellFormed] using h
  simp [withForm, this]

/-- A next state comes from a well-formed term. -/
theorem withForm_next {i : Instr} {o : Outcome} {t : State} (h : withForm i o = .next t) :
    i.wellFormed = true ∧ o = .next t := by
  simp only [withForm] at h
  split at h
  · rename_i e; exact ⟨by simp [Instr.wellFormed, e], h⟩
  · cases h
  · cases h

/-- A fault comes from a well-formed term. -/
theorem withForm_fault {i : Instr} {o : Outcome} {e : Fault} (h : withForm i o = .fault e) :
    i.wellFormed = true ∧ o = .fault e := by
  simp only [withForm] at h
  split at h
  · rename_i e; exact ⟨by simp [Instr.wellFormed, e], h⟩
  · cases h
  · cases h

/-! ## Taking a floating-point exception -/

theorem trapOr_masked {s : State} (h : Masked s) (sig : Kinds) (t : State) : trapOr s sig t = .next t := by
  simp [trapOr, traps_masked h]

theorem trapOr_next {s u t : State} {sig : Kinds} (h : trapOr s sig u = .next t) :
    traps s.fcr sig = false ∧ t = u := by
  simp only [trapOr] at h
  split at h
  · cases h
  · rename_i hn
    cases h
    exact ⟨by simpa using hn, rfl⟩

theorem trapOr_fault {s u : State} {sig : Kinds} {e : Fault} (h : trapOr s sig u = .fault e) :
    traps s.fcr sig = true ∧ e = .fpuTrap sig := by
  simp only [trapOr] at h
  split at h
  · rename_i ht
    cases h
    exact ⟨ht, rfl⟩
  · cases h

/-! ## The end of a floating-point instruction -/

/-- What `Signal` and the destination's write leave behind, for signalled kinds that are all listed. -/
theorem fpDone_of_write {p : Prec} {list sig : Kinds} {fd : FReg} (v : p.Pattern) (s : State)
    (hl : ∀ k, sig.has k = true → list.has k = true) :
    FpDone p fd list sig (· = v) s (((s.signalled list sig).writeFP p fd v).retire 4) where
  value := by simp
  signal := by
    refine ⟨fun k h => ?_, fun k h => ?_, fun k => ?_, fun h => ?_⟩
    · simp [statusFlag_statusWord, h]
    · have : sig.has k = false := by
        cases hs : sig.has k
        · rfl
        · rw [hl k hs] at h; cases h
      simp [statusFlag_statusWord, h, this]
    · simp [stickyFlag_statusWord]
    · simp [h]
  fsr := fun i h => by simp [getLsbD_statusWord _ _ _ h]
  f := fun r h => by simp [State.readF_writeFP_ne _ _ _ h]
  fcr := by simp
  mem := fun a => by simp
  rest := by constructor <;> simp
  pc := by simp

/-- `deliver` with every exception masked. -/
theorem deliver_masked {p : Prec} {list : Kinds} {fd : FReg} {r : Result p} {s : State} (h : Masked s)
    (hl : ∀ k, r.2.has k = true → list.has k = true) :
    ∃ t, deliver p list fd r s = .next t ∧ FpDone p fd list r.2 (· = r.1) s t :=
  ⟨_, trapOr_masked h _ _, fpDone_of_write r.1 s hl⟩

/-- A next state of `deliver` is the signalled state with the destination written. -/
theorem deliver_next {p : Prec} {list : Kinds} {fd : FReg} {r : Result p} {s t : State}
    (h : deliver p list fd r s = .next t) :
    traps s.fcr r.2 = false ∧ t = ((s.signalled list r.2).writeFP p fd r.1).retire 4 := trapOr_next h

/-- `arith` is `deliver` of one result. -/
theorem arith_eq (p : Prec) (list : Kinds) (fd : FReg) (ops : List p.Pattern) (core : Result p) (s : State) :
    arith p list fd ops core s =
      deliver p list fd
        (if ops.any isNaN then (drawnNaN p s, (subKinds ops).union (snanKinds ops))
          else (core.1, core.2.union (subKinds ops))) s := by
  simp only [arith]
  split <;> rfl

/-- What a set that is a union has. -/
@[simp] theorem Kinds.has_union (a b : Kinds) (k : Kind) : (a.union b).has k = (a.has k || b.has k) := by
  cases k <;> rfl

@[simp] theorem Kinds.has_none (k : Kind) : Kinds.none.has k = false := by cases k <;> rfl

/-! ## `MAC_FUSED` -/

theorem macCore_fused (h : Config.macFused = true) (p : Prec) (rm : RoundMode) (x y c : p.Pattern) :
    macCore p rm x y c = macFusedCore p rm x y c := by
  simp only [macCore, h]
  split
  · rename_i e; exact e.symm
  · rfl

theorem macCore_unfused (h : Config.macFused = false) (p : Prec) (rm : RoundMode) (x y c : p.Pattern) :
    macCore p rm x y c = macUnfused p rm x y c := by
  simp [macCore, h]

/-! ## Memory accesses -/

theorem admits_iff {rs : List Region} {a : Word} :
    admits rs a = true ↔ ∀ i < 4, inRegions rs (a.toNat + i) = true := by
  simp only [admits, Bool.and_eq_true]
  constructor
  · rintro ⟨⟨⟨h0, h1⟩, h2⟩, h3⟩ i hi
    rcases (by omega : i = 0 ∨ i = 1 ∨ i = 2 ∨ i = 3) with rfl | rfl | rfl | rfl <;> assumption
  · intro h
    exact ⟨⟨⟨h 0 (by omega), h 1 (by omega)⟩, h 2 (by omega)⟩, h 3 (by omega)⟩

theorem aligned_iff {a : Word} : aligned a = true ↔ a.extractLsb' 0 2 = 0#2 := by simp [aligned]

theorem memRead_misaligned {s : State} {a : Word} (h : a.extractLsb' 0 2 ≠ 0#2) :
    memRead s a = .error (.addressError a) := by
  simp [memRead, aligned, h]

theorem memWrite_misaligned {s : State} {a v : Word} (h : a.extractLsb' 0 2 ≠ 0#2) :
    memWrite s a v = .error (.addressError a) := by
  simp [memWrite, aligned, h]

/-- An admitted read answers a long word that stands at the address afterwards and changes no known byte. -/
theorem memRead_admitted {s : State} {a : Word} (hw : s.mem.wf) (h : Admitted s.readable a) :
    ∃ v m, memRead s a = .ok (v, { s with mem := m }) ∧ m.wf ∧ Loaded a v s { s with mem := m } := by
  have hal : aligned a = true := aligned_iff.mpr h.1
  have had : admits s.readable a = true := admits_iff.mpr h.2
  have hlt := aligned_toNat hal
  refine ⟨_, _, by simp [memRead, hal, had]; exact ⟨rfl, rfl⟩, Memory.wf_settleLong _ hw hal, ?_, ?_, ?_⟩
  · intro i hi
    have hr := Memory.read_settleLong a.toNat (Config.freeLong s.draws) (a.toNat + i) hw hlt
    rw [if_neg (by omega)] at hr
    have := Memory.byteAt_readLong hi hr
    simp only [byteAt] at this
    rw [this]
    exact hr
  · intro b x hx
    show (s.mem.settleLong a.toNat (Config.freeLong s.draws)).read b = some x
    rw [Memory.read_settleLong a.toNat _ b hw hlt]
    split
    · exact hx
    · simp [hx]
  · intro b hb
    show (s.mem.settleLong a.toNat (Config.freeLong s.draws)).read b = s.mem.read b
    rw [Memory.read_settleLong a.toNat _ b hw hlt, if_pos hb]

/-- What a read that succeeds says of its address, and of the state after it. -/
theorem memRead_ok {s t : State} {a v : Word} (h : memRead s a = .ok (v, t)) :
    Admitted s.readable a ∧ ∃ m, t = { s with mem := m } := by
  simp only [memRead] at h
  split at h
  · cases h
  split at h
  · cases h
  · rename_i h1 h2
    refine ⟨⟨aligned_iff.mp (by simpa using h1), admits_iff.mp (by simpa using h2)⟩, ?_⟩
    cases h
    exact ⟨_, rfl⟩

/-- An admitted write stores the long word and nothing else. -/
theorem memWrite_admitted {s : State} {a : Word} (v : Word) (hw : s.mem.wf) (h : Admitted s.writable a) :
    ∃ m, memWrite s a v = .ok { s with mem := m } ∧ m.wf ∧ Stored a v s { s with mem := m } := by
  have hal : aligned a = true := aligned_iff.mpr h.1
  have had : admits s.writable a = true := admits_iff.mpr h.2
  have hlt := aligned_toNat hal
  refine ⟨_, by simp [memWrite, hal, had], Memory.wf_writeLong v hw hal, ?_, ?_⟩
  · intro i hi
    show (s.mem.writeLong a.toNat v).read (a.toNat + i) = _
    rw [Memory.read_writeLong a.toNat v _ hw hlt, if_neg (by omega), Nat.add_sub_cancel_left]
    rfl
  · intro b hb
    show (s.mem.writeLong a.toNat v).read b = _
    rw [Memory.read_writeLong a.toNat v _ hw hlt, if_pos hb]

/-- What a write that succeeds says of its address, and of the state after it. -/
theorem memWrite_ok {s t : State} {a v : Word} (h : memWrite s a v = .ok t) :
    Admitted s.writable a ∧ ∃ m, t = { s with mem := m } := by
  simp only [memWrite] at h
  split at h
  · cases h
  split at h
  · cases h
  · rename_i h1 h2
    refine ⟨⟨aligned_iff.mp (by simpa using h1), admits_iff.mp (by simpa using h2)⟩, ?_⟩
    cases h
    exact ⟨_, rfl⟩

/-- A next state of a load comes from a read that succeeds. -/
theorem loading_next {s u : State} {a : Word} {k : Word → State → Outcome} (h : loading s a k = .next u) :
    ∃ v t, memRead s a = .ok (v, t) ∧ k v t = .next u := by
  simp only [loading] at h
  split at h
  · cases h
  · rename_i v t e; exact ⟨v, t, e, h⟩

/-- A next state of a store comes from a write that succeeds. -/
theorem storing_next {s u : State} {a v : Word} {k : State → Outcome} (h : storing s a v k = .next u) :
    ∃ t, memWrite s a v = .ok t ∧ k t = .next u := by
  simp only [storing] at h
  split at h
  · cases h
  · rename_i t e; exact ⟨t, e, h⟩

end Sys2Proof.Machine
end

