-- ==== Sys2Proof/Laws/Float.lean ====
section
/-! SUPPORT. The classes of patterns exclude one another, what a packed pattern reads back as, and where the floor of the
logarithm lies: the facts that proofs about the arithmetic start from. -/

namespace Sys2Proof.Machine

variable {p : Prec}

/-! ## Classes -/

/-- Every pattern is finite, an infinity or a NaN. -/
theorem class_cases (x : p.Pattern) : isFinite x = true ∨ isInf x = true ∨ isNaN x = true := by
  simp only [isFinite, isInf, isNaN, isZero, isSub]
  cases classOf x <;> simp

@[simp] theorem isInf_eq_false_of_finite {x : p.Pattern} (h : isFinite x = true) : isInf x = false := by
  revert h
  simp only [isFinite, isInf, isZero, isSub]
  cases classOf x <;> simp

@[simp] theorem isNaN_eq_false_of_finite {x : p.Pattern} (h : isFinite x = true) : isNaN x = false := by
  revert h
  simp only [isFinite, isNaN, isZero, isSub]
  cases classOf x <;> simp

theorem isNaN_eq_false_of_inf {x : p.Pattern} (h : isInf x = true) : isNaN x = false := by
  revert h
  simp only [isInf, isNaN]
  cases classOf x <;> simp

theorem isFinite_eq_false_of_inf {x : p.Pattern} (h : isInf x = true) : isFinite x = false := by
  revert h
  simp only [isInf, isFinite, isZero, isSub]
  cases classOf x <;> simp

theorem isZero_eq_false_of_inf {x : p.Pattern} (h : isInf x = true) : isZero x = false := by
  revert h
  simp only [isInf, isZero]
  cases classOf x <;> simp

theorem isSub_eq_false_of_inf {x : p.Pattern} (h : isInf x = true) : isSub x = false := by
  revert h
  simp only [isInf, isSub]
  cases classOf x <;> simp

theorem isSub_eq_false_of_zero {x : p.Pattern} (h : isZero x = true) : isSub x = false := by
  revert h
  simp only [isZero, isSub]
  cases classOf x <;> simp

theorem isSub_eq_false_of_nan {x : p.Pattern} (h : isNaN x = true) : isSub x = false := by
  revert h
  simp only [isNaN, isSub]
  cases classOf x <;> simp

theorem isFinite_of_zero {x : p.Pattern} (h : isZero x = true) : isFinite x = true := by simp [isFinite, h]

theorem isSNaN_eq_false {x : p.Pattern} (h : isNaN x = false) : isSNaN x = false := by
  revert h
  simp only [isNaN, isSNaN]
  cases classOf x <;> simp

/-- A drawn quiet NaN is of class `qnan`, whatever was drawn. -/
theorem classOf_quietNaN (p : Prec) (v : BitVec 64) : classOf (quietNaN p v) = .qnan := by
  cases p
  · have hn : (quietNaN .single v).toNat = (v.extractLsb' 22 1).toNat * 2 ^ 31 + 0x1FF * 2 ^ 22 +
        (v.extractLsb' 0 22).toNat := by
      have h0 := (v.extractLsb' 0 22).isLt
      show (v.extractLsb' 22 1 ++ 0x1FF#9 ++ v.extractLsb' 0 22).toNat = _
      rw [BitVec.toNat_append, ← Nat.shiftLeft_add_eq_or_of_lt h0, BitVec.toNat_append,
        ← Nat.shiftLeft_add_eq_or_of_lt (0x1FF#9).isLt, Nat.shiftLeft_eq, Nat.shiftLeft_eq]
      simp only [BitVec.toNat_ofNat]
      omega
    have h0 := (v.extractLsb' 0 22).isLt
    have h1 := (v.extractLsb' 22 1).isLt
    have he : expField (quietNaN .single v) = 255 := by
      simp only [expField, Prec.manBits, Prec.expBits, hn]; omega
    have hm : manField (quietNaN .single v) = 2 ^ 22 + (v.extractLsb' 0 22).toNat := by
      simp only [manField, Prec.manBits, hn]; omega
    simp [classOf, he, hm, Prec.expMax, Prec.expBits, Prec.manBits]
  · have hn : (quietNaN .double v).toNat = (v.extractLsb' 51 1).toNat * 2 ^ 63 + 0xFFF * 2 ^ 51 +
        (v.extractLsb' 0 51).toNat := by
      have h0 := (v.extractLsb' 0 51).isLt
      show (v.extractLsb' 51 1 ++ 0xFFF#12 ++ v.extractLsb' 0 51).toNat = _
      rw [BitVec.toNat_append, ← Nat.shiftLeft_add_eq_or_of_lt h0, BitVec.toNat_append,
        ← Nat.shiftLeft_add_eq_or_of_lt (0xFFF#12).isLt, Nat.shiftLeft_eq, Nat.shiftLeft_eq]
      simp only [BitVec.toNat_ofNat]
      omega
    have h0 := (v.extractLsb' 0 51).isLt
    have h1 := (v.extractLsb' 51 1).isLt
    have he : expField (quietNaN .double v) = 2047 := by
      simp only [expField, Prec.manBits, Prec.expBits, hn]; omega
    have hm : manField (quietNaN .double v) = 2 ^ 51 + (v.extractLsb' 0 51).toNat := by
      simp only [manField, Prec.manBits, hn]; omega
    simp [classOf, he, hm, Prec.expMax, Prec.expBits, Prec.manBits]

/-! ## Packed patterns -/

/-- The number of a packed pattern. -/
theorem toNat_pack (p : Prec) (neg : Bool) {m : Nat} (h : m < 2 ^ (p.width - 1)) :
    (pack p neg m).toNat = (if neg then 2 ^ (p.width - 1) else 0) + m := by
  simp only [pack, BitVec.toNat_ofNat]
  apply Nat.mod_eq_of_lt
  cases p <;> cases neg <;> simp only [Prec.width] at h ⊢ <;> simp at h ⊢ <;> omega

/-- The sign of a packed pattern. -/
theorem signOf_pack (p : Prec) (neg : Bool) {m : Nat} (h : m < 2 ^ (p.width - 1)) : signOf (pack p neg m) = neg := by
  have ht := toNat_pack p neg h
  simp only [signOf, BitVec.msb_eq_decide, ht]
  cases p <;> cases neg <;> simp_all

/-- The exponent field of a packed pattern. -/
theorem expField_pack (p : Prec) (neg : Bool) {m : Nat} (h : m < 2 ^ (p.width - 1)) :
    expField (pack p neg m) = m / 2 ^ p.manBits := by
  simp only [expField, toNat_pack p neg h]
  cases p <;> cases neg <;> simp_all [Prec.manBits, Prec.expBits] <;> omega

/-- The fraction field of a packed pattern. -/
theorem manField_pack (p : Prec) (neg : Bool) {m : Nat} (h : m < 2 ^ (p.width - 1)) :
    manField (pack p neg m) = m % 2 ^ p.manBits := by
  simp only [manField, toNat_pack p neg h]
  cases p <;> cases neg <;> simp_all [Prec.manBits] <;> omega

/-- Every pattern is packed from its sign and its magnitude bits. -/
theorem pack_self (x : p.Pattern) : pack p (signOf x) (x.toNat % 2 ^ (p.width - 1)) = x := by
  apply BitVec.eq_of_toNat_eq
  have hx := x.isLt
  rw [toNat_pack _ _ (Nat.mod_lt _ (by positivity))]
  simp only [signOf, BitVec.msb_eq_decide]
  cases p <;> simp only [Prec.width] at hx ⊢ <;> simp only [decide_eq_true_eq] <;> split <;> omega

/-- A packed magnitude below that of the infinity is a finite pattern. -/
theorem isFinite_pack (p : Prec) (neg : Bool) {m : Nat} (h : m < p.infMag) : isFinite (pack p neg m) = true := by
  have hw : m < 2 ^ (p.width - 1) := by
    refine lt_trans h ?_
    cases p <;> simp [Prec.infMag, Prec.expMax, Prec.expBits, Prec.manBits]
  have he : m / 2 ^ p.manBits < p.expMax := by
    rw [Nat.div_lt_iff_lt_mul (by positivity)]
    exact h
  simp only [isFinite, isZero, isSub, classOf, expField_pack p neg hw, manField_pack p neg hw]
  split
  · split <;> rfl
  · rw [if_neg (by omega)]; rfl

/-! ## The logarithm -/

/-- A quotient of at least 1 lies between two neighbouring powers of two. -/
theorem floorLog2_of_le {a d : Nat} (hd : 0 < d) (h : d ≤ a) :
    floorLog2 a d = ((a / d).log2 : Int) ∧ d * 2 ^ (a / d).log2 ≤ a ∧ a < d * 2 ^ ((a / d).log2 + 1) := by
  have hq : a / d ≠ 0 := by
    have := Nat.div_pos h hd
    omega
  refine ⟨by simp [floorLog2, h], ?_, ?_⟩
  · calc d * 2 ^ (a / d).log2 ≤ d * (a / d) := Nat.mul_le_mul_left _ (Nat.log2_self_le hq)
      _ ≤ a := Nat.mul_div_le a d
  · have := Nat.lt_log2_self (n := a / d)
    have h2 : a < d * (a / d + 1) := by
      have := Nat.lt_mul_div_succ a hd
      simpa [Nat.add_comm] using this
    exact lt_of_lt_of_le h2 (Nat.mul_le_mul_left _ (by omega))

/-- A quotient below 1 lies between two neighbouring negative powers of two. -/
theorem floorLog2_of_lt {a d : Nat} (ha : 0 < a) (h : a < d) :
    ∃ k : Nat, floorLog2 a d = -((k : Int) + 1) ∧ a * 2 ^ k < d ∧ d ≤ a * 2 ^ (k + 1) := by
  have hc : (a + d - 1) / a - 1 = (d - 1) / a := by
    rw [show a + d - 1 = (d - 1) + a by omega, Nat.add_div_right _ ha]
    simp
  have hq : (d - 1) / a ≠ 0 := by
    have := Nat.div_pos (show a ≤ d - 1 by omega) ha
    omega
  refine ⟨((d - 1) / a).log2, ?_, ?_, ?_⟩
  · rw [floorLog2, if_neg (by omega), hc]
  · have h1 : a * 2 ^ ((d - 1) / a).log2 ≤ a * ((d - 1) / a) := Nat.mul_le_mul_left _ (Nat.log2_self_le hq)
    have h2 := Nat.mul_div_le (d - 1) a
    omega
  · have h1 := Nat.lt_log2_self (n := (d - 1) / a)
    have h2 : d - 1 < a * ((d - 1) / a + 1) := by
      simpa [Nat.add_comm] using Nat.lt_mul_div_succ (d - 1) ha
    have h3 : a * ((d - 1) / a + 1) ≤ a * 2 ^ (((d - 1) / a).log2 + 1) := Nat.mul_le_mul_left _ (by omega)
    omega

/-! ## Results -/

/-- `isTiny` at the default of `TININESS`. -/
@[simp] theorem isTiny_eq (p : Prec) (rm : RoundMode) (neg : Bool) (a d : Nat) :
    isTiny p rm neg a d = decide (floorLog2 a d < p.emin) := rfl

/-- Rounding signals no kind but OVF, UDF and INX. -/
theorem round_kinds (p : Prec) (rm : RoundMode) (n : Int) (d : Nat) (zs : Bool) :
    (Machine.round p rm n d zs).2.inval = false ∧ (Machine.round p rm n d zs).2.subo = false ∧
      (Machine.round p rm n d zs).2.hugi = false ∧ (Machine.round p rm n d zs).2.div0 = false := by
  simp only [Machine.round]
  split
  · simp [Kinds.none]
  · split <;> simp

/-- What a floating-point instruction's result is known to satisfy may be weakened. -/
theorem FpDone.mono {list sig : Kinds} {fd : FReg} {ok ok' : p.Pattern → Prop} {s t : State}
    (h : FpDone p fd list sig ok s t) (hv : ∀ r, ok r → ok' r) : FpDone p fd list sig ok' s t :=
  ⟨hv _ h.value, h.signal, h.fsr, h.f, h.fcr, h.mem, h.rest, h.pc⟩

/-- `arith` with every exception masked: a quiet NaN for a NaN operand, the core's result otherwise. -/
theorem arith_masked {list : Kinds} {fd : FReg} {ops : List p.Pattern} {core : Result p} {s : State} (h : Masked s)
    (hl : ∀ k, core.2.has k = true → list.has k = true) (hs : list.subo = true) (hi : list.inval = true) :
    ∃ t, arith p list fd ops core s = .next t ∧
      (ops.any isNaN = true →
        FpDone p fd list { inval := ops.any isSNaN, subo := ops.any isSub } (fun r => classOf r = .qnan) s t) ∧
      (ops.any isNaN = false →
        FpDone p fd list (core.2.union { subo := ops.any isSub }) (· = core.1) s t) := by
  rw [arith_eq]
  by_cases hn : ops.any isNaN = true
  · simp only [hn, if_true]
    obtain ⟨t, ht, hd⟩ := deliver_masked (p := p) (list := list) (fd := fd)
      (r := (drawnNaN p s, (subKinds ops).union (snanKinds ops))) h (by
        intro k; cases k <;> simp_all [subKinds, snanKinds, Kinds.has, Kinds.union])
    refine ⟨t, ht, fun _ => ?_, fun h => by simp at h⟩
    have e : (subKinds ops).union (snanKinds ops) = { inval := ops.any isSNaN, subo := ops.any isSub } := by
      simp [subKinds, snanKinds, Kinds.union]
    rw [e] at hd
    exact FpDone.mono hd fun r hr => hr ▸ classOf_quietNaN p _
  · simp only [hn]
    obtain ⟨t, ht, hd⟩ := deliver_masked (p := p) (list := list) (fd := fd)
      (r := (core.1, core.2.union (subKinds ops))) h (by
        intro k hk
        rw [Kinds.has_union, Bool.or_eq_true] at hk
        rcases hk with hk | hk
        · exact hl k hk
        · revert hk; cases k <;> simp_all [subKinds, Kinds.has])
    exact ⟨t, ht, fun h => absurd h (by simp), fun _ => hd⟩

end Sys2Proof.Machine
end

