-- ==== Sys2Proof/Laws/PerInstr.lean ====
section
/-! SUPPORT. A fact about every instruction as syntax, one lemma per constructor: its encoding has as many bytes as the
length that `pc` moves by (R26, R90), and the top bit of its first PS word tells a 16-bit instruction from the others
(R91). -/

namespace Sys2Proof.Laws.EncodedLength

/-- The encoding of `i` is `i.bytes` bytes long, and the top bit of its first PS word is 0 exactly for a 16-bit one. -/
def Statement (i : Instr) : Prop :=
  2 * (encode i).length = i.bytes ∧
    ((encode i).head?.map fun h => h.getLsbD 15) = some (decide (i.bytes ≠ 2))

/-- The top bit of the first PS word of a 32-bit word. -/
theorem of_top {w : BitVec 32} (h : w.getLsbD 31 = true) (ws : List PsWord) :
    ((halves w ++ ws).head?.map fun x => x.getLsbD 15) = some true := by
  simp [h]

theorem abs (p : Prec) (fs : FReg) (fd : FReg) : Statement (.abs p fs fd) :=
  ⟨rfl, of_top (fpWord_top _ _ _ _ _ _) []⟩

theorem add (p : Prec) (fb : FReg) (fs : FReg) (fd : FReg) : Statement (.add p fb fs fd) :=
  ⟨rfl, of_top (fpWord_top _ _ _ _ _ _) []⟩

theorem andLit (lit : BitVec 16) (r : SReg) : Statement (.andLit lit r) :=
  ⟨rfl, of_top (fplWord_top _ _ _) []⟩

theorem cos (fs : FReg) (fd : FReg) : Statement (.cos fs fd) :=
  ⟨rfl, of_top (fpWord_top _ _ _ _ _ _) []⟩

theorem cpq (p : Prec) (fb : FReg) (fs : FReg) : Statement (.cpq p fb fs) :=
  ⟨rfl, of_top (fpWord_top _ _ _ _ _ _) []⟩

theorem cps (p : Prec) (fb : FReg) (fs : FReg) : Statement (.cps p fb fs) :=
  ⟨rfl, of_top (fpWord_top _ _ _ _ _ _) []⟩

theorem di2f (p : Prec) (rnd : RndSel) (fs : FReg) (fd : FReg) : Statement (.di2f p rnd fs fd) :=
  ⟨rfl, of_top (fpWord_top _ _ _ _ _ _) []⟩

theorem div (p : Prec) (fb : FReg) (fs : FReg) (fd : FReg) : Statement (.div p fb fs fd) :=
  ⟨rfl, of_top (fpWord_top _ _ _ _ _ _) []⟩

theorem flim (p : Prec) (fb : FReg) (fs : FReg) (fd : FReg) : Statement (.flim p fb fs fd) :=
  ⟨rfl, of_top (fpWord_top _ _ _ _ _ _) []⟩

theorem f2di (p : Prec) (rnd : RndSel) (fs : FReg) (fd : FReg) : Statement (.f2di p rnd fs fd) :=
  ⟨rfl, of_top (fpWord_top _ _ _ _ _ _) []⟩

theorem f2li (p : Prec) (rnd : RndSel) (fs : FReg) (fd : FReg) : Statement (.f2li p rnd fs fd) :=
  ⟨rfl, of_top (fpWord_top _ _ _ _ _ _) []⟩

theorem fbra (cond : BitVec 4) (slit20 : BitVec 20) : Statement (.fbra cond slit20) :=
  ⟨rfl, of_top (fbrWord_top _ _) []⟩

theorem iorLit (lit : BitVec 16) (r : SReg) : Statement (.iorLit lit r) :=
  ⟨rfl, of_top (fplWord_top _ _ _) []⟩

theorem li2f (p : Prec) (rnd : RndSel) (fs : FReg) (fd : FReg) : Statement (.li2f p rnd fs fd) :=
  ⟨rfl, of_top (fpWord_top _ _ _ _ _ _) []⟩

theorem mac (p : Prec) (fb : FReg) (fs : FReg) (fd : FReg) : Statement (.mac p fb fs fd) :=
  ⟨rfl, of_top (fpWord_top _ _ _ _ _ _) []⟩

theorem max (p : Prec) (fb : FReg) (fs : FReg) (fd : FReg) : Statement (.max p fb fs fd) :=
  ⟨rfl, of_top (fpWord_top _ _ _ _ _ _) []⟩

theorem maxnm (p : Prec) (fb : FReg) (fs : FReg) (fd : FReg) : Statement (.maxnm p fb fs fd) :=
  ⟨rfl, of_top (fpWord_top _ _ _ _ _ _) []⟩

theorem min (p : Prec) (fb : FReg) (fs : FReg) (fd : FReg) : Statement (.min p fb fs fd) :=
  ⟨rfl, of_top (fpWord_top _ _ _ _ _ _) []⟩

theorem minnm (p : Prec) (fb : FReg) (fs : FReg) (fd : FReg) : Statement (.minnm p fb fs fd) :=
  ⟨rfl, of_top (fpWord_top _ _ _ _ _ _) []⟩

theorem movStore (fs : FReg) (wnd : WReg) (k12 : BitVec 12) : Statement (.movStore fs wnd k12) :=
  ⟨rfl, of_top (mvoWord_top (by decide) _ _ _) []⟩

theorem movF (p : Prec) (fs : FReg) (fd : FReg) : Statement (.movF p fs fd) :=
  ⟨rfl, of_top (fpWord_top _ _ _ _ _ _) []⟩

theorem movc (p : Prec) (index : BitVec 5) (fd : FReg) : Statement (.movc p index fd) :=
  ⟨rfl, of_top (fpkWord_top _ _ _ _) []⟩

theorem movFromCop (src : CopSrc) (dst : WOperand) : Statement (.movFromCop src dst) :=
  ⟨rfl, of_top (mvxOutWord_top _ _) []⟩

theorem movLoad (wns : WReg) (k12 : BitVec 12) (fd : FReg) : Statement (.movLoad wns k12 fd) :=
  ⟨rfl, of_top (mvoWord_top (by decide) _ _ _) []⟩

theorem movToCop (src : WOperand) (dst : CopDst) : Statement (.movToCop src dst) :=
  ⟨rfl, of_top (mvxInWord_top _ _) []⟩

theorem movLit (lit : BitVec 32) (dst : LitDst) : Statement (.movLit lit dst) :=
  ⟨rfl, of_top (mvlWord1_top _) (halves _)⟩

theorem movLitWord2 (hi : BitVec 12) (dst : LitDst) : Statement (.movLitWord2 hi dst) :=
  ⟨rfl, of_top (mvlWord2_top _ _) []⟩

theorem mul (p : Prec) (fb : FReg) (fs : FReg) (fd : FReg) : Statement (.mul p fb fs fd) :=
  ⟨rfl, of_top (fpWord_top _ _ _ _ _ _) []⟩

theorem neg (p : Prec) (fs : FReg) (fd : FReg) : Statement (.neg p fs fd) :=
  ⟨rfl, of_top (fpWord_top _ _ _ _ _ _) []⟩

theorem pop (dst : CopDst) : Statement (.pop dst) :=
  ⟨rfl, congrArg some (stkWord_top (by decide) _ _)⟩

theorem push (src : CopSrc) : Statement (.push src) :=
  ⟨rfl, congrArg some (stkWord_top (by decide) _ _)⟩

theorem sin (fs : FReg) (fd : FReg) : Statement (.sin fs fd) :=
  ⟨rfl, of_top (fpWord_top _ _ _ _ _ _) []⟩

theorem sqrt (p : Prec) (fs : FReg) (fd : FReg) : Statement (.sqrt p fs fd) :=
  ⟨rfl, of_top (fpWord_top _ _ _ _ _ _) []⟩

theorem sub (p : Prec) (fb : FReg) (fs : FReg) (fd : FReg) : Statement (.sub p fb fs fd) :=
  ⟨rfl, of_top (fpWord_top _ _ _ _ _ _) []⟩

theorem tst (p : Prec) (fs : FReg) : Statement (.tst p fs) :=
  ⟨rfl, of_top (fpWord_top _ _ _ _ _ _) []⟩

end Sys2Proof.Laws.EncodedLength
end

