-- ==== Sys2Proof/Tests/Slice0.lean ====
section
/-! SUPPORT. Tests: ill-formed terms, machine words written out from the Encoding rows, one or two steps per
instruction with the values of spec/95_test_vectors.md (sections 2.1 to 2.8), and for each statement with hypotheses a
state and operands that meet them, at the boundaries of its clauses. -/

namespace Sys2Proof.Tests

open Sys2Proof.Machine

/-! ## Well-formedness: each check refuses a term -/

theorem test_odd_three : (Instr.add .double 0 2 3).formError = some .oddPairRegister := by decide
theorem test_odd_first_source : (Instr.flim .double 1 2 4).formError = some .oddPairRegister := by decide
theorem test_odd_two : (Instr.sqrt .double 1 2).formError = some .oddPairRegister := by decide
theorem test_odd_compare : (Instr.cps .double 0 31).formError = some .oddPairRegister := by decide
theorem test_odd_tst : (Instr.tst .double 1).formError = some .oddPairRegister := by decide
theorem test_odd_movc : (Instr.movc .double 0 1).formError = some .oddPairRegister := by decide
theorem test_odd_di2f_source : (Instr.di2f .single .fromFcr 1 3).formError = some .oddPairRegister := by decide
theorem test_odd_f2di_dest : (Instr.f2di .single .fromFcr 1 3).formError = some .oddPairRegister := by decide
theorem test_odd_f2li_source : (Instr.f2li .double .fromFcr 1 3).formError = some .oddPairRegister := by decide
theorem test_odd_li2f_dest : (Instr.li2f .double .fromFcr 1 3).formError = some .oddPairRegister := by decide
theorem test_offset_w15_out : (Instr.movFromCop .fsr (.indexed 0 15)).formError = some .reservedField := by decide
theorem test_offset_w15_in : (Instr.movToCop (.indexed 0 15) .fsr).formError = some .reservedField := by decide
theorem test_odd_integer_is_fine : (Instr.f2li .double .fromFcr 0 3).wellFormed = true := by decide
theorem test_ill_formed_refused :
    (match exec (.add .double 0 2 3) State.reset with | .refused r => r == .oddPairRegister | _ => false) = true := by
  decide

/-! ## Words (95_test_vectors.md 2.1; COS and SIN from their rows) -/

/-- The decoding of a 32-bit word. -/
def word (w : BitVec 32) : Decoded := decode (halves w)

theorem test_word_abs : word 0x89040002 = .ok (.abs .double 0 2) := by decide
theorem test_word_add : word 0x8135CF02 = .ok (.add .double 30 28 26) := by decide
theorem test_word_and : word 0x902FFF82 = .ok (.andLit 0xFFF8 .fcr) := by decide
theorem test_word_cos : word 0x8C060006 = .ok (.cos 0 3) := by decide
theorem test_word_cpq : word 0x8A00300A = .ok (.cpq .single 0 3) := by decide
theorem test_word_cps : word 0x8A00300E = .ok (.cps .single 0 3) := by decide
theorem test_word_di2f : word 0x8E04006E = .ok (.di2f .single (.fixed .towardPos) 0 2) := by decide
theorem test_word_div : word 0x8510400A = .ok (.div .double 0 4 8) := by decide
theorem test_word_flim : word 0x92020182 = .ok (.flim .single 3 0 1) := by decide
theorem test_word_f2di : word 0x8F040056 = .ok (.f2di .double (.fixed .towardZero) 0 2) := by decide
theorem test_word_f2li : word 0x8E0A4052 = .ok (.f2li .single (.fixed .towardZero) 4 5) := by decide
theorem test_word_fbra : word 0xBF800002 = .ok (.fbra 15 0x80000) := by decide
theorem test_word_ior : word 0x90200076 = .ok (.iorLit 7 .fcr) := by decide
theorem test_word_li2f : word 0x8E02004A = .ok (.li2f .single (.fixed .nearestEven) 0 1) := by decide
theorem test_word_mac : word 0x85004302 = .ok (.mac .double 6 4 0) := by decide
theorem test_word_max : word 0x83104002 = .ok (.max .double 0 4 8) := by decide
theorem test_word_maxnm : word 0x82061006 = .ok (.maxnm .single 0 1 3) := by decide
theorem test_word_min : word 0x8206100A = .ok (.min .single 0 1 3) := by decide
theorem test_word_minnm : word 0x8310400E = .ok (.minnm .double 0 4 8) := by decide
theorem test_word_mov_store : word 0x87FF8001 = .ok (.movStore 31 15 0x800) := by decide
theorem test_word_mov : word 0x87040002 = .ok (.movF .double 0 2) := by decide
theorem test_word_movc : word 0x87000086 = .ok (.movc .double 8 0) := by decide
theorem test_word_mov_from_cop : word 0x86301BA0 = .ok (.movFromCop .fear (.indexed 0 14)) := by decide
theorem test_word_mov_from_fsrh : word 0x86140020 = .ok (.movFromCop .fsrh (.reg 4)) := by decide
theorem test_word_mov_load : word 0x847FFFF1 = .ok (.movLoad 15 0xFFF 7) := by decide
theorem test_word_mov_to_cop : word 0x84218000 = .ok (.movToCop (.preDec 1) (.f 2)) := by decide
theorem test_word_mov_to_cop_indexed : word 0x8441C080 = .ok (.movToCop (.indexed 1 2) (.f 4)) := by decide
theorem test_word_lit :
    decode (halves 0x820007F1 ++ halves 0x8220000D) = .ok (.movLit 0x0000007F .fcr) := by decide
theorem test_word_lit_second : word 0x8200000D = .ok (.movLitWord2 0 .fsr) := by decide
theorem test_word_mul : word 0x84061006 = .ok (.mul .single 0 1 3) := by decide
theorem test_word_neg : word 0x88060006 = .ok (.neg .single 0 3) := by decide
theorem test_word_pop : decode [0x2E32] = .ok (.pop .fear) := by decide
theorem test_word_push : decode [0x27F0] = .ok (.push (.f 31)) := by decide
theorem test_word_sin : word 0x8C060002 = .ok (.sin 0 3) := by decide
theorem test_word_sqrt : word 0x8904000A = .ok (.sqrt .double 0 2) := by decide
theorem test_word_sub : word 0x810C2006 = .ok (.sub .double 0 2 6) := by decide
theorem test_word_tst : word 0x9401F002 = .ok (.tst .single 31) := by decide

theorem test_refused_cos_double : word 0x8D020006 = .error .reservedField := by decide
theorem test_refused_rounding_code : word 0x8E02001A = .error .reservedField := by decide
theorem test_refused_mode_7 : word 0x86011C00 = .error .reservedField := by decide
theorem test_refused_offset_w15 : word 0x86011BC0 = .error .reservedField := by decide
theorem test_refused_offset_unused : word 0x86010840 = .error .reservedField := by decide
theorem test_refused_special_code : word 0x86500020 = .error .reservedField := by decide
theorem test_refused_fsrh_dest : word 0x84110020 = .error .reservedField := by decide
theorem test_refused_fsrh_logic : word 0x90100002 = .error .reservedField := by decide
theorem test_refused_lit_fear : decode (halves 0x82000001 ++ halves 0x8230000D) = .error .reservedField := by decide
theorem test_refused_short : decode [0x0601] = .error .shortFormNotGiven := by decide
theorem test_refused_no_row : word 0x8000000E = .error .noSuchOpcode := by decide
theorem test_refused_bits_11 : word 0x80000003 = .error .noSuchOpcode := by decide
theorem test_table_add : decodeTableWord 32 0x80061002 = some (.add .single 0 1 3) := by decide
theorem test_table_push : decodeTableWord 16 0x2612 = some (.push .fsrh) := by decide
theorem test_table_lit : decodeTableWord 64 0x8220000D820007F1 = some (.movLit 0x7F .fcr) := by decide

/-! ## Steps -/

/-- The start state of the vectors (FSR 0, FCR 0x7F) with F0, F1 and F3 given. -/
def three (a b c : Word) : State := ((State.reset.writeF 0 a).writeF 1 b).writeF 3 c

/-- As `three`, with the pairs F1:F0, F5:F4 and F7:F6. -/
def threeD (a b c : BitVec 64) : State := ((State.reset.writeFD 0 a).writeFD 4 b).writeFD 6 c

/-- What a next state shows, if there is one. -/
def after {α : Type} (o : Outcome) (f : State → α) : Option α :=
  match o with
  | .next t => some (f t)
  | .fault _ | .refused _ => none

/-- F3 and FSR after an instruction. -/
def f3 (i : Instr) (s : State) : Option (Word × Word) := after (exec i s) fun t => (t.readF 3, t.fsr)

/-- F7:F6 and FSR after an instruction. -/
def d6 (i : Instr) (s : State) : Option (BitVec 64 × Word) := after (exec i s) fun t => (t.readFD 6, t.fsr)

theorem test_abs : f3 (.abs .single 0 3) (three 0x807FFFFF 0 0) = some (0x007FFFFF, 0x4040) := by decide
theorem test_neg_nan : f3 (.neg .single 0 3) (three 0x7FC00000 0 0) = some (0xFFC00000, 0) := by decide
theorem test_add : f3 (.add .single 0 1 3) (three 0x3F800000 0x33800000 0) = some (0x3F800000, 0x1010) := by
  decide +kernel
theorem test_add_up : f3 (.add .single 0 1 3) { three 0x3F800000 0x33800000 0 with fcr := 0x27F } =
    some (0x3F800001, 0x1010) := by decide
theorem test_sub : f3 (.sub .single 0 1 3) (three 0x40800001 0xC0F800F1 0) = some (0x413C0079, 0) := by decide
theorem test_sub_zero : d6 (.sub .double 0 4 6) { threeD 0x000FFFFFFFFFFFFF 0x000FFFFFFFFFFFFF 1 with fcr := 0x37F } =
    some (0x8000000000000000, 0x4040) := by decide +kernel
theorem test_mul : f3 (.mul .single 0 1 3) (three 0x41200000 0x41C80000 0) = some (0x437A0000, 0) := by decide +kernel
theorem test_mul_overflow : d6 (.mul .double 0 4 6)
    { threeD 0xFFE0000000000030 0xFFE0000000000030 0 with fcr := 0x17F } = some (0x7FEFFFFFFFFFFFFF, 0x1414) := by
  decide +kernel
theorem test_div : d6 (.div .double 0 4 6) (threeD 0xFFEA36E2EB1C432D 0x0000000000A00000 0) =
    some (0xFFF0000000000000, 0x5454) := by decide +kernel
theorem test_div_zero : f3 (.div .single 0 1 3) (three 0x3F800000 0x80000000 0) = some (0xFF800000, 0x0202) := by decide
theorem test_mac : d6 (.mac .double 0 4 6) (threeD 0x4069000000000000 0x407F400000000000 0x4024000000000000) =
    some (0x40F86AA000000000, 0) := by decide +kernel
/-- R173 without fusion, log 40: the product overflows to plus infinity and meets minus infinity. -/
theorem test_mac_unfused_overflow : macUnfused .single .nearestEven 0x7F7FFFFF#32 0x7F7FFFFF#32 0xFF800000#32 =
    (0x7FC00001#32, { inval := true, ovf := true, inx := true }) := by decide +kernel
theorem test_sqrt : f3 (.sqrt .single 0 3) (three 0x00000030 0 0) = some (0x1B9CC471, 0x5050) := by decide +kernel
theorem test_sqrt_negative : f3 (.sqrt .single 0 3) (three 0x80000001 0 0) = some (0x7FC00001, 0x4141) := by decide
theorem test_cpq : f3 (.cpq .single 0 1) (three 0xFF7FFFFB 0x80800001 7) = some (7, 0x00040000) := by decide
theorem test_cpq_quiet : f3 (.cpq .single 0 1) (three 0x7FC00000 0x3F800000 0) = some (0, 0x00010000) := by decide
theorem test_cps_quiet : f3 (.cps .single 0 1) (three 0x7FC00000 0x3F800000 0) = some (0, 0x00010101) := by decide
theorem test_flim : f3 (.flim .single 0 1 3) (three 0xC0A00000 0x41200000 0xC1200000) = some (0xC0A00000, 0) := by decide
theorem test_flim_crossed : f3 (.flim .single 0 1 3) (three 0x41200000 0xC0A00000 0x40000000) =
    some (0x7FC00001, 0x0101) := by decide
theorem test_max_zeros : f3 (.max .single 0 1 3) (three 0 0x80000000 1) = some (0, 0) := by decide
theorem test_min : d6 (.min .double 0 4 6) (threeD 0x000000000000000A 0xC00000000000000C 0) =
    some (0xC00000000000000C, 0x4040) := by decide +kernel
theorem test_maxnm_nan : f3 (.maxnm .single 0 1 3) (three 0x3F800000 0x7F800001 0) = some (0x3F800000, 0x0101) := by
  decide
theorem test_minnm : f3 (.minnm .single 0 1 3) (three 0 0x80000000 0) = some (0x80000000, 0) := by decide
theorem test_tst_nan : f3 (.tst .single 0) (three 0xFFC0000A 0 9) = some (9, 0x05000000) := by decide
theorem test_tst_sub : f3 (.tst .single 0) { three 0x00000001 0 0 with fsr := 0x00001010 } = some (0, 0x10001010) := by
  decide
theorem test_di2f : f3 (.di2f .single (.fixed .towardPos) 0 3) (three 0xFFFFFFFB 0x7FFFFFFF 0) =
    some (0x5F000000, 0x1010) := by decide
theorem test_li2f : f3 (.li2f .single (.fixed .towardNeg) 0 3) (three 0xFEFFFFFF 0 0) = some (0xCB800001, 0x1010) := by
  decide
theorem test_f2di : d6 (.f2di .double (.fixed .towardZero) 0 6) (threeD 0xC2E4F8B5877B8000 0 0) =
    some (0xFFFF583A53C42400, 0) := by decide +kernel
theorem test_f2li : f3 (.f2li .single (.fixed .towardNeg) 0 3) (three 0xC0200000 0 0) = some (0xFFFFFFFD, 0x1010) := by
  decide
theorem test_f2li_huge : f3 (.f2li .single .fromFcr 0 3) (three 0x4F000000 0 0) = some (0x7FFFFFFF, 0x2121) := by decide
theorem test_cos : after (exec (.cos 0 3) (three 0x4016DB6E 0 0)) (fun t => t.readF 3) = some 0xBF3530E2 := by decide
theorem test_cos_inf : f3 (.cos 0 3) (three 0xFF800000 0 0) = some (0x7FC00001, 0x0101) := by decide
theorem test_sin : after (exec (.sin 0 3) (three 0x3F492492 0 0)) (fun t => t.readF 3) = some 0x3F351398 := by decide
theorem test_sin_inf : f3 (.sin 0 3) (three 0x7F800000 0 0) = some (0x7FC00001, 0x0101) := by decide
theorem test_mov : f3 (.movF .single 0 3) (three 0x7F800001 0 0) = some (0x7F800001, 0) := by decide
theorem test_movc : d6 (.movc .double 27 6) (threeD 0 0 0) = some (0x7FF0000000000000, 0) := by decide
theorem test_and : after (exec (.andLit 0 .fsr) { State.reset with fsr := 0x05047F7F }) (fun t => t.fsr) =
    some 0x05040000 := by decide
theorem test_ior : after (exec (.iorLit 0xFFFF .fear) { State.reset with fear := 0x12340000 }) (fun t => t.fear) =
    some 0x1234FFFF := by decide

/-- F4, W1 and W2 given, and the long word 0xC0800001 at 0x0FFC. -/
def memState : State :=
  { ((State.reset.writeF 4 0x3F800000).writeW 1 0x1000).writeW 2 0xFFFFFFFC with
    mem := Memory.writeLong [] 0x0FFC 0xC0800001 }

theorem test_store : after (exec (.movStore 4 1 2) memState) (fun t => (t.mem.readLong 0x1008, t.readW 1)) =
    some (0x3F800000, 0x1000) := by decide
theorem test_load : after (exec (.movLoad 1 0xFFF 7) memState) (fun t => t.readF 7) = some 0xC0800001 := by decide
theorem test_from_cop_post_dec : after (exec (.movFromCop (.f 4) (.postDec 1)) memState)
    (fun t => (t.mem.readLong 0x1000, t.readW 1)) = some (0x3F800000, 0x0FFC) := by decide
theorem test_from_cop_indexed : after (exec (.movFromCop (.f 4) (.indexed 1 2)) memState)
    (fun t => (t.mem.readLong 0x0FFC, t.readW 1)) = some (0x3F800000, 0x1000) := by decide
theorem test_to_cop_pre_dec : after (exec (.movToCop (.preDec 1) (.f 9)) memState) (fun t => (t.readF 9, t.readW 1)) =
    some (0xC0800001, 0x0FFC) := by decide
theorem test_to_cop_fcr : after (exec (.movToCop (.reg 1) .fcr) memState) (fun t => t.fcr) = some 0x1000 := by decide
theorem test_misaligned :
    (match exec (.movFromCop (.f 4) (.postInc 1)) (memState.writeW 1 0x1002) with
      | .fault e => e == .addressError 0x1002 | _ => false) = true := by decide
theorem test_push : after (exec (.push .fsrh) { State.reset.writeW 15 0x3000 with fsr := 0x05040010 })
    (fun t => (t.mem.readLong 0x3000, t.readW 15, t.pc)) = some (0x05040000, 0x3004, 2) := by decide
theorem test_pop : after (exec (.pop .fcr) (memState.writeW 15 0x1000)) (fun t => (t.fcr, t.readW 15, t.pc)) =
    some (0xC0800001, 0x0FFC, 2) := by decide
theorem test_lit : after (exec (.movLit 0x40490FDB (.f 3)) State.reset) (fun t => (t.readF 3, t.pc)) =
    some (0x40490FDB, 8) := by decide

/-- At 0x0100, with condition 0 stated as "FSR.LT = 1". -/
def branchState : State :=
  { State.reset with
    pc := 0x0100
    fsr := 0x00040000
    condTable := (Vector.replicate 16 CondEntry.absent).set 0 (.given [{ mask := 4, value := 4 }]) }

theorem test_fbra_taken : after (exec (.fbra 0 3) branchState) (fun t => t.pc) = some 0x010A := by decide
theorem test_fbra_not_taken : after (exec (.fbra 0 3) { branchState with fsr := 0 }) (fun t => t.pc) = some 0x0104 := by
  decide
theorem test_trap :
    (match exec (.div .single 0 1 3) { three 0x3F800000 0 0 with fcr := 0x7D } with
      | .fault e => e == .fpuTrap { div0 := true } | _ => false) = true := by decide
theorem test_step : after (step ((three 0x3F800000 0x3F800000 0).withFetchWord 32 0x80061002))
    (fun t => (t.readF 3, t.pc, t.complete)) = some (0x40000000, 4, false) := by decide
theorem test_step_end : after (step { (three 0x3F800000 0x3F800000 0).withFetchWord 32 0x80061002 with endAddr := some 4 })
    (fun t => t.complete) = some true := by decide

/-! ## Witnesses: for each statement with hypotheses, inputs that meet them together, at the boundaries of its clauses -/

/-- Whether an instruction gives a next state. -/
def runs (o : Outcome) : Bool := (after o fun _ => ()).isSome

/-- A state whose next step runs the table word `w`. -/
def fetching (nbits w : Nat) : State := State.reset.withFetchWord nbits w

/-- The name by which the decoder refuses what stands at `pc`. -/
def refusedAs (s : State) : Option DecodeRefusal :=
  match decodeBytes (fetchBytes s) with
  | .ok _ => none
  | .error e => some e

theorem witness_DecodeOfEncode : (Instr.movToCop (.indexed 15 14) (.f 31)).wellFormed = true ∧
    (Instr.fbra 15 0xFFFFF).wellFormed = true ∧ (Instr.mac .double 30 0 30).wellFormed = true := by decide
theorem witness_EncodeOfDecode : decode [0x8135, 0xCF02, 7] = .ok (.add .double 30 28 26) := by decide
theorem witness_StepRunsDecoded_next : (fetching 32 0x80061002).complete = false ∧
    decodeBytes (fetchBytes (fetching 32 0x80061002)) = .ok (.add .single 0 1 3) ∧
    runs (exec (.add .single 0 1 3) (fetching 32 0x80061002)) = true := by decide
theorem witness_StepRunsDecoded_fault : ((fetching 16 0x27F0).writeW 15 2).complete = false ∧
    decodeBytes (fetchBytes ((fetching 16 0x27F0).writeW 15 2)) = .ok (.push (.f 31)) ∧
    exec (.push (.f 31)) ((fetching 16 0x27F0).writeW 15 2) = .fault (.addressError 2) := ⟨rfl, by decide, rfl⟩
theorem witness_StepRunsDecoded_refused : (fetching 32 0x8200000D).complete = false ∧
    decodeBytes (fetchBytes (fetching 32 0x8200000D)) = .ok (.movLitWord2 0 .fsr) ∧
    exec (.movLitWord2 0 .fsr) (fetching 32 0x8200000D) = .refused .noSuchOpcode := ⟨rfl, by decide, rfl⟩
theorem witness_StepStops : ({ State.reset with complete := true } : State).complete = true ∧
    State.reset.complete = false ∧ State.reset.prog.read State.reset.pc.toNat = none ∧
    refusedAs { State.reset with prog := [(0, 0x06), (1, 0x80)] } = some .truncated ∧
    refusedAs { State.reset with prog := [(0, 0x12)] } = some .truncated ∧
    refusedAs (fetching 32 0x8000000E) = some .noSuchOpcode ∧
    refusedAs (fetching 32 0x80461002) = some .notThisCoprocessor ∧
    refusedAs (fetching 32 0x80061012) = some .nonZeroU ∧
    refusedAs (fetching 32 0x81061002) = some .oddPairRegister ∧
    refusedAs (fetching 32 0x8D000006) = some .reservedField ∧
    refusedAs (fetching 16 0x0600) = some .shortFormNotGiven := by decide
theorem witness_PlacedWordIsFetched : State.reset.prog.wf ∧ decodeTableWord 16 0x2612 = some (.push .fsrh) ∧
    decodeTableWord 64 0x8220000D820007F1 = some (.movLit 0x7F .fcr) := by decide
theorem witness_StepKeepsInv : (fetching 32 0x80061002).mem.wf ∧ (fetching 32 0x80061002).prog.wf ∧
    (fetching 32 0x80061002).pc.getLsbD 0 = false ∧ runs (step (fetching 32 0x80061002)) = true := by decide
theorem witness_MaskedNeverTraps : Masked State.reset ∧ Masked { State.reset with fcr := 0xFFFFFFFF } := by decide
theorem witness_TrapMatchesMaskedRun_traps :
    (Instr.abs .single 0 3).signals = true ∧ trapEnabled (0x3F : Word) .subo = true ∧
    after (exec (.abs .single 0 3) { three 1 0 0 with fcr := (0x3F ||| 0x7F), fsr := (0x7F00 &&& 0xFFFF80FF) })
      (fun t => stickyFlag t.fsr .subo) = some true := by decide
theorem witness_TrapMatchesMaskedRun_goes_on :
    (Instr.abs .single 0 3).signals = true ∧ trapEnabled (0x40 : Word) .subo = false ∧
    after (exec (.abs .single 0 3) { three 1 0 0 with fcr := (0x40 ||| 0x7F), fsr := (0x0100 &&& 0xFFFF80FF) })
      (fun t => t.fsr) = some 0x4040 := by decide
/-- COS of a signalling NaN and SIN of an infinity trap with INVAL alone where only INVAL is trap-enabled. -/
theorem test_trig_traps :
    exec (.cos 0 3) { three 0x7F800001 0 0 with fcr := 0x7E } = .fault (.fpuTrap { inval := true }) ∧
    exec (.sin 0 3) { three 0xFF800000 0 0 with fcr := 0x7E } = .fault (.fpuTrap { inval := true }) := ⟨rfl, rfl⟩
theorem witness_OthersNeverTrap : (Instr.tst .double 0).signals = false ∧ (Instr.tst .double 0).writesFsr = false ∧
    (Instr.tst .double 0).writesFear = false ∧ runs (exec (.tst .double 0) State.reset) = true ∧
    (Instr.pop .fear).signals = false ∧ (Instr.pop .fear).writesFsr = false ∧
    runs (exec (.pop .fear) memState) = true := by decide
theorem witness_PcAdvances : runs (exec (.push .fsr) memState) = true ∧ runs (exec (.pop .fsr) memState) = true ∧
    runs (exec (.movLit 0 .fcr) memState) = true ∧ runs (exec (.fbra 0 3) branchState) = true ∧
    runs (exec (.tst .single 0) memState) = true := by decide
theorem witness_StickyNeverCleared : (Instr.neg .single 0 3).writesFsr = false ∧
    runs (exec (.neg .single 0 3) { State.reset with fsr := 0x4000 }) = true ∧
    stickyFlag (0x4000 : Word) .subo = true := by decide
theorem witness_StatusWriters : runs (exec (.cpq .single 0 1) State.reset) = true ∧
    runs (exec (.cps .double 0 2) State.reset) = true ∧ runs (exec (.tst .double 0) State.reset) = true ∧
    runs (exec (.andLit 0 .fcr) State.reset) = true ∧ runs (exec (.max .single 0 1 3) State.reset) = true := by decide
theorem witness_ImageImmutable : runs (exec (.movFromCop .fsrh (.preInc 0)) State.reset) = true := by decide
theorem witness_OnlyStoresWrite : memState.mem.wf ∧ runs (exec (.movStore 4 1 2) memState) = true ∧
    runs (exec (.movLoad 1 0xFFF 7) memState) = true ∧ memState.mem.read 0x0FFC = some 1 ∧
    runs (exec (.movc .single 31 0) memState) = true ∧ runs (exec (.movFromCop .fsr (.reg 3)) memState) = true ∧
    runs (exec (.movToCop (.reg 3) .fear) memState) = true := by decide

/-! ### Numbers -/

/-- A single-precision pattern. -/
def single (w : Word) : Prec.single.Pattern := w

/-- A double-precision pattern. -/
def double (w : BitVec 64) : Prec.double.Pattern := w

theorem witness_RoundExact : isFinite (single 0) = true ∧ isFinite (single 0x80000000) = true ∧
    isFinite (single 0x00000001) = true ∧ isFinite (single 0x7F7FFFFF) = true ∧
    isFinite (double 0xFFEFFFFFFFFFFFFF) = true ∧ 0 < 3 := by decide
/-- A third of the quantum, the tie at half of it, and the largest exact value below the overflow threshold. -/
theorem witness_RoundDirected : (Machine.round .single .nearestEven 1 (3 * 2 ^ 149) false).2.ovf = false ∧
    (Machine.round .single .nearestEven (-1) (2 ^ 150) false).2.ovf = false ∧
    (Machine.round .single .nearestEven (2 ^ 128 - 2 ^ 103 - 1) 1 false).2.ovf = false := by decide +kernel
theorem witness_RoundNearest : (Machine.round .single .nearestEven 16777217 1 false).2.ovf = false ∧
    isFinite (single 0x4B800000) = true ∧ isFinite (single 0x4B800001) = true := by decide +kernel
/-- A tie: 2^24 + 1 lies halfway between 2^24, which is delivered, and 2^24 + 2. -/
theorem witness_RoundNearest_tie : (Machine.round .single .nearestEven 16777217 1 false).1 = 0x4B800000#32 ∧
    quanta (single 0x4B800001) ≠ quanta (single 0x4B800000) ∧
    (quanta (single 0x4B800000) - 16777217 * 2 ^ 149).natAbs =
      (quanta (single 0x4B800001) - 16777217 * 2 ^ 149).natAbs := by decide +kernel
/-- The two sides of each mode's threshold: one below the tie, and at it; one below 2^128, and at it. -/
theorem witness_RoundOverflow_threshold : Prec.overflowBound .single = 2 ^ (128 + 149) ∧
    (Machine.round .single .nearestEven (2 ^ 128 - 2 ^ 103 - 1) 1 false).2.ovf = false ∧
    (Machine.round .single .towardZero (2 ^ 128 - 1) 1 false).2.ovf = false ∧
    (Machine.round .single .towardPos (2 ^ 128 - 2 ^ 104) 1 false).2.ovf = false ∧
    (Machine.round .single .towardPos (2 ^ 128 - 2 ^ 104 + 1) 1 false).2.ovf = true := by decide +kernel
theorem witness_RoundOverflow : (Machine.round .single .nearestEven (2 ^ 128 - 2 ^ 103) 1 false).2.ovf = true ∧
    (Machine.round .single .towardZero (2 ^ 128) 1 false).2.ovf = true ∧
    (Machine.round .single .towardNeg (-(2 ^ 128)) 1 false).2.ovf = true ∧
    (Machine.round .single .towardPos (-(2 ^ 128)) 1 false).2.ovf = true := by decide +kernel
theorem witness_SqrtCorrect : isFinite (single 1) = true ∧ isZero (single 1) = false ∧ signOf (single 1) = false ∧
    isFinite (single 0x7F7FFFFF) = true ∧ isZero (single 0x7F7FFFFF) = false ∧ signOf (single 0x7F7FFFFF) = false := by
  decide
theorem witness_RoundToIntCorrect : isFinite (single 0xC0200000) = true ∧ isFinite (double 0x3FE0000000000000) = true := by
  decide
theorem witness_CompareOrder : isNaN (single 0x7F800001) = true ∧ isNaN (single 0x80000000) = false ∧
    isFinite (single 0x80000000) = true ∧ isInf (single 0xFF800000) = true := by decide
theorem witness_TotalOrder : isNaN (single 0x80000000) = false ∧ isNaN (single 0) = false ∧
    isNaN (single 0x7F800000) = false ∧ tLt (single 0x80000000) (single 0) = true ∧
    tLt (single 0) (single 0x7F800000) = true ∧ tLt (single 0) (single 0) = false := by decide

/-! ### Floating-point instructions: operands in F0, F1 and F3 of a masked state -/

/-- A well-formed instruction, a masked state, and operands in F0, F1 and F3 of which `hyps` holds, at every triple. -/
def met (i : Instr) (hyps : Prec.single.Pattern → Prec.single.Pattern → Prec.single.Pattern → Bool)
    (l : List (Word × Word × Word)) : Bool :=
  l.all fun v => i.wellFormed && decide (Masked (three v.1 v.2.1 v.2.2)) &&
    hyps ((three v.1 v.2.1 v.2.2).readFP .single 0) ((three v.1 v.2.1 v.2.2).readFP .single 1)
      ((three v.1 v.2.1 v.2.2).readFP .single 3)

/-- For the double-precision instances of the statements below. -/
theorem witness_double : (Instr.mac .double 0 4 6).wellFormed = true ∧ Masked (threeD 1 2 3) ∧
    (threeD 1 2 3).readFP .double 4 = double 2 := by decide
theorem witness_AbsNegResult : met (.abs .single 0 3) (fun _ _ _ => true) [(0x807FFFFF, 0, 0)] = true ∧
    met (.neg .single 0 3) (fun _ _ _ => true) [(0xFFFFFFFF, 0, 0)] = true := by decide
/-- This and the four that follow are for the clauses of `SumDone`, for AddResult and, with the sign inverted, SubResult. -/
theorem witness_SumDone_nan : met (.add .single 0 1 3) (fun x y _ => isNaN x || isNaN y)
    [(0x7F800001, 0, 0), (0, 0xFFFFFFFF, 0)] = true := by decide
theorem witness_SumDone_opposite : met (.add .single 0 1 3) (fun x y _ => isInf x && isInf y && signOf x != signOf y)
    [(0x7F800000, 0xFF800000, 0)] = true := by decide
theorem witness_SumDone_inf_left : met (.add .single 0 1 3)
    (fun x y _ => isInf x && !isNaN y && (!isInf y || signOf x == signOf y))
    [(0x7F800000, 0x7F800000, 0), (0x7F800000, 0xFF7FFFFF, 0)] = true := by decide
theorem witness_SumDone_inf_right : met (.add .single 0 1 3) (fun x y _ => isFinite x && isInf y)
    [(0x7F7FFFFF, 0xFF800000, 0)] = true := by decide
theorem witness_SumDone_finite : met (.add .single 0 1 3) (fun x y _ => isFinite x && isFinite y)
    [(0x7F7FFFFF, 0x7F7FFFFF, 0), (0, 0x80000000, 0), (1, 0x80000001, 0)] = true := by decide
theorem witness_SubResult : met (.sub .single 0 1 3) (fun _ y _ => (negate y).msb == !y.msb && negate y == 0x80000001#32)
    [(0, 1, 0)] = true ∧ ∀ i < 31, (0x80000001#32).getLsbD i = (1#32).getLsbD i := by decide
theorem witness_MulResult_nan : met (.mul .single 0 1 3) (fun x y _ => isNaN x || isNaN y)
    [(0x7F800001, 0, 0), (0, 0x7FC00000, 0)] = true := by decide
theorem witness_MulResult_zero_inf : met (.mul .single 0 1 3)
    (fun x y _ => isZero x && isInf y || isInf x && isZero y)
    [(0x80000000, 0x7F800000, 0), (0xFF800000, 0, 0)] = true := by decide
theorem witness_MulResult_inf : met (.mul .single 0 1 3)
    (fun x y _ => isInf x && !isNaN y && !isZero y || isInf y && !isNaN x && !isZero x)
    [(0x7F800000, 1, 0), (0x80000001, 0xFF800000, 0), (0x7F800000, 0xFF800000, 0)] = true := by decide
theorem witness_MulResult_finite : met (.mul .single 0 1 3) (fun x y _ => isFinite x && isFinite y)
    [(0x7F7FFFFF, 0x7F7FFFFF, 0), (1, 0x80000001, 0), (0, 0x80000000, 0)] = true := by decide
theorem witness_DivResult_nan : met (.div .single 0 1 3) (fun x y _ => isNaN x || isNaN y)
    [(0x7F800001, 0, 0), (0, 0x7FC00000, 0)] = true := by decide
theorem witness_DivResult_invalid : met (.div .single 0 1 3)
    (fun x y _ => isZero x && isZero y || isInf x && isInf y)
    [(0, 0x80000000, 0), (0x7F800000, 0xFF800000, 0)] = true := by decide
theorem witness_DivResult_inf : met (.div .single 0 1 3) (fun x y _ => isInf x && isFinite y)
    [(0x7F800000, 0x80000000, 0), (0x7F800000, 0x7F7FFFFF, 0)] = true := by decide
theorem witness_DivResult_by_inf : met (.div .single 0 1 3) (fun x y _ => isFinite x && isInf y)
    [(1, 0xFF800000, 0), (0, 0x7F800000, 0)] = true := by decide
theorem witness_DivResult_by_zero : met (.div .single 0 1 3) (fun x y _ => isFinite x && !isZero x && isZero y)
    [(1, 0x80000000, 0), (0xFF7FFFFF, 0, 0)] = true := by decide
theorem witness_DivResult_finite : met (.div .single 0 1 3) (fun x y _ => isFinite x && isFinite y && !isZero y)
    [(0, 1, 0), (0x7F7FFFFF, 0x80000001, 0)] = true := by decide
theorem witness_MacResult_nan : met (.mac .single 0 1 3) (fun x y c => isNaN x || isNaN y || isNaN c)
    [(0, 0x7F800000, 0x7FC00000), (0x7F800001, 0, 0), (0, 0x7FFFFFFF, 0)] = true := by decide
theorem witness_MacResult_zero_inf : met (.mac .single 0 1 3)
    (fun x y c => (isZero x && isInf y || isInf x && isZero y) && !isNaN c)
    [(0, 0x7F800000, 0x7F800000), (0xFF800000, 0x80000000, 1)] = true := by decide
theorem witness_MacResult_finite : met (.mac .single 0 1 3) (fun x y c => isFinite x && isFinite y && isFinite c)
    [(0x7F7FFFFF, 0x7F7FFFFF, 0xFF7FFFFF), (0, 0x80000000, 0)] = true := by decide
theorem witness_MacResult_inf_addend : met (.mac .single 0 1 3) (fun x y c => isFinite x && isFinite y && isInf c)
    [(0x7F7FFFFF, 0x7F7FFFFF, 0xFF800000)] = true := by decide
theorem witness_MacResult_inf_product : met (.mac .single 0 1 3)
    (fun x y c => (isInf x && !isNaN y && !isZero y || isInf y && !isNaN x && !isZero x) && !isNaN c &&
      (!isInf c || signOf c == (signOf x != signOf y)))
    [(0x7F800000, 0x80000001, 0xFF800000), (1, 0x7F800000, 0x80000000)] = true := by decide
theorem witness_MacResult_opposite : met (.mac .single 0 1 3)
    (fun x y c => (isInf x && !isNaN y && !isZero y || isInf y && !isNaN x && !isZero x) && isInf c &&
      signOf c != (signOf x != signOf y)) [(0x7F800000, 0x80000001, 0x7F800000)] = true := by decide
theorem witness_SqrtResult : met (.sqrt .single 0 3) (fun x _ _ => isNaN x) [(0x7F800001, 0, 0)] = true ∧
    met (.sqrt .single 0 3) (fun x _ _ => isZero x) [(0x80000000, 0, 0)] = true ∧
    met (.sqrt .single 0 3) (fun x _ _ => !isNaN x && !isZero x && signOf x)
      [(0x80000001, 0, 0), (0xFF800000, 0, 0)] = true ∧
    met (.sqrt .single 0 3) (fun x _ _ => isInf x && !signOf x) [(0x7F800000, 0, 0)] = true ∧
    met (.sqrt .single 0 3) (fun x _ _ => isFinite x && !isZero x && !signOf x)
      [(1, 0, 0), (0x7F7FFFFF, 0, 0)] = true := by decide
theorem witness_CompareResult : met (.cpq .single 0 1) (fun x y _ => isNaN x || fLt x y) [(0xFF7FFFFB, 0x80800001, 0)] = true ∧
    met (.cps .single 0 1) (fun x _ _ => isNaN x) [(0x7FC00000, 0, 0)] = true := by decide
theorem witness_FlimResult_stops : met (.flim .single 0 1 3) (fun lo hi c => isNaN lo || isNaN hi || isNaN c)
      [(1, 0, 0x7F800001)] = true ∧
    met (.flim .single 0 1 3) (fun lo hi c => fLt hi lo && !isNaN c) [(1, 0, 0)] = true := by decide
theorem witness_FlimResult_limits :
    met (.flim .single 0 1 3) (fun lo hi c => !isNaN lo && !fLt hi lo && fLt hi c) [(0, 0, 1), (1, 2, 3)] = true ∧
    met (.flim .single 0 1 3) (fun lo hi c => !isNaN hi && !fLt hi lo && !fLt hi c && fLt c lo) [(1, 1, 0)] = true ∧
    met (.flim .single 0 1 3)
      (fun lo hi c => !isNaN lo && !isNaN hi && !isNaN c && !fLt hi lo && !fLt hi c && !fLt c lo)
      [(1, 3, 1), (1, 3, 3), (0, 0x80000000, 0)] = true := by decide
theorem witness_MaxMinResult : met (.max .single 0 1 3) (fun x y _ => isNaN x || isNaN y) [(0, 0x7F800001, 0)] = true ∧
    met (.max .single 0 1 3) (fun x y _ => !isNaN x && !isNaN y) [(0, 0x80000000, 0)] = true := by decide
theorem witness_MaxnmMinnmResult : met (.maxnm .single 0 1 3) (fun _ _ _ => true)
    [(0x7F800001, 0x7FC00000, 0), (0x7F800001, 0, 0), (0, 0x7FC00000, 0), (0x80000000, 0, 0)] = true := by decide
theorem witness_TstResult : (Instr.tst .double 30).wellFormed = true := by decide
theorem witness_FloatToIntResult_special :
    met (.f2li .single .fromFcr 0 3) (fun x _ _ => isNaN x || isInf x) [(0xFF800000, 0, 0), (0x7FC00000, 0, 0)] = true ∧
    met (.f2li .single .fromFcr 0 3) (fun x _ _ => isSub x) [(0x807FFFFF, 0, 0)] = true := by decide
theorem witness_FloatToIntResult_range :
    met (.f2li .single .fromFcr 0 3)
      (fun x _ _ => isFinite x && !isSub x && decide (2 ^ 31 - 1 < roundToInt .nearestEven x)) [(0x4F000000, 0, 0)] = true ∧
    met (.f2li .single .fromFcr 0 3)
      (fun x _ _ => isFinite x && !isSub x && decide (roundToInt .nearestEven x < -2 ^ 31)) [(0xCF000001, 0, 0)] = true ∧
    met (.f2li .single .fromFcr 0 3)
      (fun x _ _ => isFinite x && !isSub x && decide (-2 ^ 31 ≤ roundToInt .nearestEven x) &&
        decide (roundToInt .nearestEven x ≤ 2 ^ 31 - 1)) [(0xCF000000, 0, 0), (0x4EFFFFFF, 0, 0), (0, 0, 0)] = true ∧
    convMode .fromFcr State.reset.fcr = .nearestEven := by decide
theorem witness_FloatToIntResult_double : (Instr.f2di .double .fromFcr 0 6).wellFormed = true ∧
    isFinite (double 0x43E0000000000000) = true ∧
    2 ^ 63 - 1 < roundToInt .nearestEven (double 0x43E0000000000000) ∧
    roundToInt .nearestEven (double 0xC3E0000000000000) = -2 ^ 63 ∧
    roundToInt .nearestEven (double 0xC3E0000000000001) < -2 ^ 63 := by decide +kernel
theorem witness_IntToFloatResult : met (.li2f .single (.fixed .towardNeg) 0 3) (fun _ _ _ => true) [(0x80000000, 0, 0)] = true ∧
    met (.di2f .single .fromFcr 0 3) (fun _ _ _ => true) [(0xFFFFFFFF, 0xFFFFFFFF, 0)] = true := by decide
/-- For RefusedForms. -/
theorem witness_RefusedForms : (Instr.div .double 0 2 31).formError = some .oddPairRegister ∧
    (Instr.movToCop (.indexed 0 15) .fcr).formError = some .reservedField ∧ (1 : FReg).getLsbD 0 = true := by decide
/-- For MovCopies, MovcLoadsConstant and Li2fDoubleExact: an even and an odd register. -/
theorem witness_even_pair : (30 : FReg).getLsbD 0 = false ∧ (31 : FReg).getLsbD 0 = true := by decide
theorem witness_TrigResult : met (.cos 0 3) (fun x _ _ => isNaN x) [(0x7F800001, 0, 0)] = true ∧
    met (.cos 0 3) (fun x _ _ => isInf x) [(0xFF800000, 0, 0)] = true ∧
    met (.sin 0 3) (fun x _ _ => isFinite x) [(0x3F492492, 0, 0), (0x80000000, 0, 0), (0x7F7FFFFF, 0, 0)] = true := by
  decide

/-! ### Memory -/

/-- A well-formed operand, a canonical memory, and an admitted address: the hypotheses of the moves to memory. -/
def admittedAt (o : WOperand) (s : State) (a : Word) : Prop :=
  o.formError = none ∧ s.mem.wf ∧ operandAddr s o = some a ∧ Admitted s.writable a ∧ Admitted s.readable a

/-- For MovCopToMemory and MovMemoryToCop: the modes that change no register, at both ends of the data space. -/
theorem witness_MovCopToMemory_plain : admittedAt (.ind 0) State.reset 0 ∧
    admittedAt (.ind 0) (State.reset.writeW 0 0xFFFFFFFC) 0xFFFFFFFC ∧ admittedAt (.indexed 1 2) memState 0x0FFC := by
  unfold admittedAt; decide
/-- For MovCopToMemory and MovMemoryToCop: the four modifying modes. -/
theorem witness_MovCopToMemory_modifying : admittedAt (.postInc 15) State.reset 0 ∧
    admittedAt (.postDec 0) State.reset 0 ∧ admittedAt (.preDec 0) State.reset 0xFFFFFFFC ∧
    admittedAt (.preInc 2) memState 0 := by unfold admittedAt; decide
theorem witness_OffsetMoves : memState.mem.wf ∧ offsetAddr memState 1 0x800 = 0xFFFFF000 ∧
    Admitted memState.writable 0xFFFFF000 ∧ offsetAddr memState 1 0x7FF = 0x2FFC ∧ Admitted memState.readable 0x2FFC := by
  decide
/-- For PushStores, PopLoads and PushThenPop. -/
theorem witness_PushThenPop : memState.mem.wf ∧ Admitted memState.writable (memState.readW 15) ∧
    Admitted memState.readable (memState.readW 15) ∧ Admitted memState.readable (memState.readW 15 - 4) := by decide
theorem witness_StackFormsAreMoves_next : runs (exec (.movFromCop .fsr (.postInc 15)) State.reset) = true ∧
    runs (exec (.movToCop (.preDec 15) .fcr) State.reset) = true := by decide
theorem witness_StackFormsAreMoves_fault :
    exec (.movFromCop .fsr (.postInc 15)) (State.reset.writeW 15 3) = .fault (.addressError 3) ∧
    exec (.movToCop (.preDec 15) .fcr) (State.reset.writeW 15 3) = .fault (.addressError 0xFFFFFFFF) := ⟨rfl, rfl⟩
theorem witness_AccessStops_misaligned : (0x1001 : Word).extractLsb' 0 2 ≠ 0#2 ∧ (0x1003 : Word).extractLsb' 0 2 ≠ 0#2 ∧
    offsetAddr (memState.writeW 1 0x1001) 1 0 = 0x1001 ∧
    operandAddr (memState.writeW 1 0x1001) (.ind 1) = some 0x1001 ∧ (WOperand.ind 1).formError = none ∧
    (memState.writeW 15 0x1001).readW 15 = 0x1001 ∧ (memState.writeW 15 0x1005).readW 15 - 4 = 0x1001 := by decide

/-- Only the bytes 0x1000 to 0x1006 are admitted, so the long word at 0x1004 lacks its last byte. -/
def smallMem : State :=
  { memState with readable := [{ base := 0x1000, size := 7 }], writable := [{ base := 0x1000, size := 7 }] }

theorem witness_AccessStops_outside : (0x1004 : Word).extractLsb' 0 2 = 0#2 ∧
    inRegions smallMem.writable (0x1004 + 3) = false ∧ inRegions smallMem.readable (0x1004 + 3) = false ∧
    inRegions smallMem.writable (0x0FFC + 0) = false ∧ offsetAddr smallMem 1 1 = 0x1004 ∧
    operandAddr smallMem (.preInc 1) = some 0x1004 ∧ (WOperand.preInc 1).formError = none ∧
    (smallMem.writeW 15 0x1004).readW 15 = 0x1004 ∧ (smallMem.writeW 15 0x1008).readW 15 - 4 = 0x1004 := by decide
theorem witness_FbraBranches : branchState.condTable[(0 : BitVec 4).toNat]'(by decide) = .given [{ mask := 4, value := 4 }] ∧
    State.reset.condTable[(15 : BitVec 4).toNat]'(by decide) = .unstated ∧
    branchState.condTable[(15 : BitVec 4).toNat]'(by decide) = .absent := by decide

end Sys2Proof.Tests
end

section
/-! PROOFS. What every instruction that completes does (`Completes`), said once, and the statements about the whole
machine and about moves between registers and the stack that follow from it. -/

namespace Sys2Proof.Machine

/-! ## Writes of coprocessor registers -/

theorem litWrite_eq_copWrite (s : State) (d : LitDst) (v : Word) : litWrite s d v = copWrite s d.asDst v := by
  cases d <;> rfl

theorem sregWrite_eq_copWrite (s : State) (r : SReg) (v : Word) : sregWrite s r v = copWrite s r.asDst v := by
  cases r <;> rfl

theorem sregRead_eq_copRead (s : State) (r : SReg) : sregRead s r = copRead s r.asDst.asSrc := by
  cases r <;> rfl

section
variable (s : State) (d : CopDst) (v : Word)

@[simp] theorem copWrite_w : (copWrite s d v).w = s.w := by cases d <;> rfl
@[simp] theorem copWrite_pc : (copWrite s d v).pc = s.pc := by cases d <;> rfl
@[simp] theorem copWrite_mem : (copWrite s d v).mem = s.mem := by cases d <;> rfl
@[simp] theorem copWrite_prog : (copWrite s d v).prog = s.prog := by cases d <;> rfl
@[simp] theorem copWrite_readable : (copWrite s d v).readable = s.readable := by cases d <;> rfl
@[simp] theorem copWrite_writable : (copWrite s d v).writable = s.writable := by cases d <;> rfl
@[simp] theorem copWrite_condTable : (copWrite s d v).condTable = s.condTable := by cases d <;> rfl
@[simp] theorem copWrite_endAddr : (copWrite s d v).endAddr = s.endAddr := by cases d <;> rfl
@[simp] theorem copWrite_complete : (copWrite s d v).complete = s.complete := by cases d <;> rfl
@[simp] theorem copWrite_draws : (copWrite s d v).draws = s.draws := by cases d <;> rfl
@[simp] theorem copWrite_readW (n : WReg) : (copWrite s d v).readW n = s.readW n := by cases d <;> rfl

@[simp] theorem copRead_copWrite_self : copRead (copWrite s d v) d.asSrc = v := by
  cases d with
  | f r => exact State.readF_writeF_self s r v
  | fsr | fcr | fear => rfl

variable {s d v}

theorem copWrite_fsr (h : d ≠ .fsr) : (copWrite s d v).fsr = s.fsr := by
  cases d with
  | fsr => exact absurd rfl h
  | f _ | fcr | fear => rfl

theorem copWrite_fcr (h : d ≠ .fcr) : (copWrite s d v).fcr = s.fcr := by
  cases d with
  | fcr => exact absurd rfl h
  | f _ | fsr | fear => rfl

theorem copWrite_fear (h : d ≠ .fear) : (copWrite s d v).fear = s.fear := by
  cases d with
  | fear => exact absurd rfl h
  | f _ | fsr | fcr => rfl

theorem copWrite_readF {r : FReg} (h : d ≠ .f r) : (copWrite s d v).readF r = s.readF r := by
  cases d with
  | f q => exact State.readF_writeF_ne s v fun e => h (e ▸ rfl)
  | fsr | fcr | fear => rfl

end

@[simp] theorem copRead_retire (s : State) (n : Nat) (c : CopSrc) : copRead (s.retire n) c = copRead s c := by
  cases c <;> rfl

/-! ## Updates of address registers -/

section
variable (s : State) (o : WOperand)

@[simp] theorem operandUpdate_f : (operandUpdate s o).f = s.f := by cases o <;> rfl
@[simp] theorem operandUpdate_pc : (operandUpdate s o).pc = s.pc := by cases o <;> rfl
@[simp] theorem operandUpdate_fsr : (operandUpdate s o).fsr = s.fsr := by cases o <;> rfl
@[simp] theorem operandUpdate_fcr : (operandUpdate s o).fcr = s.fcr := by cases o <;> rfl
@[simp] theorem operandUpdate_fear : (operandUpdate s o).fear = s.fear := by cases o <;> rfl
@[simp] theorem operandUpdate_mem : (operandUpdate s o).mem = s.mem := by cases o <;> rfl
@[simp] theorem operandUpdate_prog : (operandUpdate s o).prog = s.prog := by cases o <;> rfl
@[simp] theorem operandUpdate_readable : (operandUpdate s o).readable = s.readable := by cases o <;> rfl
@[simp] theorem operandUpdate_writable : (operandUpdate s o).writable = s.writable := by cases o <;> rfl
@[simp] theorem operandUpdate_condTable : (operandUpdate s o).condTable = s.condTable := by cases o <;> rfl
@[simp] theorem operandUpdate_endAddr : (operandUpdate s o).endAddr = s.endAddr := by cases o <;> rfl
@[simp] theorem operandUpdate_complete : (operandUpdate s o).complete = s.complete := by cases o <;> rfl
@[simp] theorem operandUpdate_draws : (operandUpdate s o).draws = s.draws := by cases o <;> rfl
@[simp] theorem operandUpdate_readF (r : FReg) : (operandUpdate s o).readF r = s.readF r := by cases o <;> rfl

end

/-! ## Memory accesses -/

/-- A read that succeeds leaves the data memory in canonical form. -/
theorem memRead_wf {s t : State} {a v : Word} (hw : s.mem.wf) (h : memRead s a = .ok (v, t)) : t.mem.wf := by
  obtain ⟨v', m, hm, hwf, -⟩ := memRead_admitted hw (memRead_ok h).1
  rw [hm] at h
  cases h
  exact hwf

/-- A write that succeeds leaves the data memory in canonical form. -/
theorem memWrite_wf {s t : State} {a v : Word} (hw : s.mem.wf) (h : memWrite s a v = .ok t) : t.mem.wf := by
  obtain ⟨m, hm, hwf, -⟩ := memWrite_admitted v hw (memWrite_ok h).1
  rw [hm] at h
  cases h
  exact hwf

/-- A load faults only by its address. -/
theorem loading_fault {s : State} {a : Word} {k : Word → State → Outcome} {e : Fault}
    (h : loading s a k = .fault e) :
    e = .addressError a ∨ e = .notAdmitted a ∨ ∃ v t, k v t = .fault e := by
  unfold loading memRead at h
  split at h
  · cases h
    rename_i hr
    split at hr
    · cases hr; exact .inl rfl
    · split at hr <;> cases hr
      exact .inr (.inl rfl)
  · exact .inr (.inr ⟨_, _, h⟩)

/-- A store faults only by its address. -/
theorem storing_fault {s : State} {a v : Word} {k : State → Outcome} {e : Fault} (h : storing s a v k = .fault e) :
    e = .addressError a ∨ e = .notAdmitted a ∨ ∃ t, k t = .fault e := by
  unfold storing memWrite at h
  split at h
  · cases h
    rename_i hr
    split at hr
    · cases hr; exact .inl rfl
    · split at hr <;> cases hr
      exact .inr (.inl rfl)
  · exact .inr (.inr ⟨_, h⟩)

/-- A long word is determined by its four bytes. -/
theorem eq_of_bytes_eq {v w : Word} (h : ∀ i < 4, v.extractLsb' (8 * i) 8 = w.extractLsb' (8 * i) 8) : v = w := by
  apply BitVec.eq_of_getLsbD_eq
  intro j hj
  have hb := congrArg (·.getLsbD (j % 8)) (h (j / 8) (by omega))
  simpa [BitVec.getLsbD_extractLsb', Nat.mod_lt, Nat.div_add_mod] using hb

/-! ## The bits of FSR -/

/-- The compare flags are bits 19:16 (R29); every other bit of FSR is kept. -/
theorem getLsbD_compareWord (fsr : Word) (r : Relation) {n : Nat} (h : n < 16 ∨ 19 < n) :
    (compareWord fsr r).getLsbD n = fsr.getLsbD n := by
  by_cases hn : n < 32
  · have hmask : ∀ i : Fin 32, i.val < 16 ∨ 19 < i.val →
        (0xFFF0FFFF#32).getLsbD i.val = true ∧ ∀ r : Relation, (1#32 <<< r.bit).getLsbD i.val = false := by
      intro i hi
      refine ⟨by revert i; decide, fun r => ?_⟩
      cases r <;> (revert i; decide)
    obtain ⟨h1, h2⟩ := hmask ⟨n, hn⟩ h
    simp only [compareWord, BitVec.getLsbD_or, BitVec.getLsbD_and, h1, h2, Bool.and_true, Bool.or_false]
  · rw [BitVec.getLsbD_of_ge _ _ (by omega), BitVec.getLsbD_of_ge _ _ (by omega)]

/-- The test flags are bits 28:24 (R30); every other bit of FSR is kept. -/
theorem getLsbD_testWord {p : Prec} (fsr : Word) (x : p.Pattern) {n : Nat} (h : n < 24 ∨ 28 < n) :
    (testWord fsr x).getLsbD n = fsr.getLsbD n := by
  by_cases hn : n < 32
  · have hmask : ∀ i : Fin 32, i.val < 24 ∨ 28 < i.val → (0xE0FFFFFF#32).getLsbD i.val = true := by decide
    have hflag : n < 24 ∨ 5 ≤ n - 24 := by omega
    simp only [testWord, BitVec.getLsbD_or, BitVec.getLsbD_and, hmask ⟨n, hn⟩ h, BitVec.getLsbD_shiftLeft]
    rcases hflag with hlt | hge
    · simp [hlt]
    · simp [BitVec.getLsbD_of_ge _ (n - 24) hge]
  · rw [BitVec.getLsbD_of_ge _ _ (by omega), BitVec.getLsbD_of_ge _ _ (by omega)]

/-- The five test flags (R208). -/
theorem testWord_flags {p : Prec} (fsr : Word) (x : p.Pattern) :
    (testWord fsr x).getLsbD 28 = isSub x ∧ (testWord fsr x).getLsbD 27 = isInf x ∧
      (testWord fsr x).getLsbD 26 = signOf x ∧ (testWord fsr x).getLsbD 25 = isZero x ∧
      (testWord fsr x).getLsbD 24 = isNaN x := by
  simp only [testWord, BitVec.getLsbD_or, BitVec.getLsbD_and]
  generalize isSub x = a, isInf x = b, signOf x = c, isZero x = d, isNaN x = e
  revert a b c d e
  simp only [show (0xE0FFFFFF#32).getLsbD 28 = false ∧ (0xE0FFFFFF#32).getLsbD 27 = false ∧
    (0xE0FFFFFF#32).getLsbD 26 = false ∧ (0xE0FFFFFF#32).getLsbD 25 = false ∧ (0xE0FFFFFF#32).getLsbD 24 = false by
      decide, Bool.and_false, Bool.false_or]
  decide

/-- AND and IOR keep bits 31:16 of their register (R290, R292). -/
theorem getLsbD_append_high (x : Word) (lo : BitVec 16) {n : Nat} (h : 16 ≤ n) :
    (x.extractLsb' 16 16 ++ lo : Word).getLsbD n = x.getLsbD n := by
  rw [show (x.extractLsb' 16 16 ++ lo : Word).getLsbD n = _ from BitVec.getLsbD_append]
  have h1 : ¬ n < 16 := by omega
  by_cases hn : n < 32
  · have h2 : n - 16 < 16 := by omega
    have h3 : 16 + (n - 16) = n := by omega
    simp [h1, h2, h3]
  · have h2 : ¬ n - 16 < 16 := by omega
    simp [h1, h2, BitVec.getLsbD_of_ge x n (by omega)]

/-- `Signal` keeps FSR[31:16]. -/
theorem getLsbD_statusWord_high (fsr : Word) (list sig : Kinds) {n : Nat} (h : 16 ≤ n) :
    (statusWord fsr list sig).getLsbD n = fsr.getLsbD n :=
  getLsbD_statusWord fsr list sig (by simp [exceptionBits]; omega)

theorem Kind.stickyBit_lt (k : Kind) : k.stickyBit < 16 := by cases k <;> decide

@[simp] theorem stickyFlag_compareWord (fsr : Word) (r : Relation) (k : Kind) :
    stickyFlag (compareWord fsr r) k = stickyFlag fsr k :=
  getLsbD_compareWord fsr r (.inl k.stickyBit_lt)

@[simp] theorem stickyFlag_testWord {p : Prec} (fsr : Word) (x : p.Pattern) (k : Kind) :
    stickyFlag (testWord fsr x) k = stickyFlag fsr k :=
  getLsbD_testWord fsr x (.inl (k.stickyBit_lt.trans (by decide)))

@[simp] theorem statusFlag_testWord {p : Prec} (fsr : Word) (x : p.Pattern) (k : Kind) :
    statusFlag (testWord fsr x) k = statusFlag fsr k :=
  getLsbD_testWord fsr x (.inl (k.bit_lt.trans (by decide)))

/-- FSRH shows FSR[31:16] in its upper half (R33). -/
theorem fsrh_extract_high (fsr : Word) : (fsrhOf fsr).extractLsb' 16 16 = fsr.extractLsb' 16 16 := by
  have hones : (0xFFFF0000#32).extractLsb' 16 16 = BitVec.allOnes 16 := rfl
  rw [fsrhOf, BitVec.extractLsb'_and, hones, BitVec.and_allOnes]

/-- The lower half of FSRH is zero (R33). -/
theorem fsrh_extract_low (fsr : Word) : (fsrhOf fsr).extractLsb' 0 16 = 0#16 := by
  have hzero : (0xFFFF0000#32).extractLsb' 0 16 = 0#16 := rfl
  rw [fsrhOf, BitVec.extractLsb'_and, hzero, BitVec.and_zero]

/-- The codes of FCR[9:8] as a field (R34). -/
theorem roundModeOf_eq (fcr : Word) :
    roundModeOf fcr =
      if fcr.extractLsb' 8 2 = 0#2 then .nearestEven else if fcr.extractLsb' 8 2 = 1#2 then .towardZero
      else if fcr.extractLsb' 8 2 = 2#2 then .towardPos else .towardNeg := by
  have hbit1 : fcr.getLsbD 9 = (fcr.extractLsb' 8 2).getLsbD 1 := by simp
  have hbit0 : fcr.getLsbD 8 = (fcr.extractLsb' 8 2).getLsbD 0 := by simp
  rw [roundModeOf, hbit1, hbit0]
  generalize fcr.extractLsb' 8 2 = c
  revert c
  decide

/-! ## What an instruction that completes does -/

/-- Every way in which an instruction completes from `s`: `Signal` and a destination's write, a compare, the test flags,
a branch, or a move; the state on the right is the next one. -/
inductive Completes (s : State) : Instr → State → Prop
  | delivered {i : Instr} (hi : i.signals = true) (p : Prec) (list sig : Kinds) (fd : FReg) (v : p.Pattern) :
    Completes s i (((s.signalled list sig).writeFP p fd v).retire 4)
  | cpq (p : Prec) (fb fs : FReg) (sig : Kinds) (r : Relation) :
    Completes s (.cpq p fb fs)
      ({ s.signalled listSelect sig with fsr := compareWord (statusWord s.fsr listSelect sig) r }.retire 4)
  | cps (p : Prec) (fb fs : FReg) (sig : Kinds) (r : Relation) :
    Completes s (.cps p fb fs)
      ({ s.signalled listSelect sig with fsr := compareWord (statusWord s.fsr listSelect sig) r }.retire 4)
  | tst (p : Prec) (fs : FReg) :
    Completes s (.tst p fs) ({ s with fsr := testWord s.fsr (s.readFP p fs) }.retire 4)
  | andLit (lit : BitVec 16) (r : SReg) :
    Completes s (.andLit lit r) ((copWrite s r.asDst ((copRead s r.asDst.asSrc).extractLsb' 16 16 ++
      ((copRead s r.asDst.asSrc).extractLsb' 0 16 &&& lit))).retire 4)
  | iorLit (lit : BitVec 16) (r : SReg) :
    Completes s (.iorLit lit r) ((copWrite s r.asDst ((copRead s r.asDst.asSrc).extractLsb' 16 16 ++
      ((copRead s r.asDst.asSrc).extractLsb' 0 16 ||| lit))).retire 4)
  | fbra (b : BitVec 4) (n : BitVec 20) (c : BitVec 16 → Bool) (hc : fbraCond s b = some c) :
    Completes s (.fbra b n) (s.jump (if c (fsrHigh s.fsr) then branchTarget s n else s.pc + 4))
  | movF (p : Prec) (fs fd : FReg) : Completes s (.movF p fs fd) ((s.writeFP p fd (s.readFP p fs)).retire 4)
  | movc (p : Prec) (index : BitVec 5) (fd : FReg) :
    Completes s (.movc p index fd) ((s.writeFP p fd (constOf p index)).retire 4)
  | movStore (fs : FReg) (wnd : WReg) (k : BitVec 12) (m : Memory)
    (hm : memWrite s (offsetAddr s wnd k) (s.readF fs) = .ok { s with mem := m }) :
    Completes s (.movStore fs wnd k) ({ s with mem := m }.retire 4)
  | movLoad (wns : WReg) (k : BitVec 12) (fd : FReg) (v : Word) (m : Memory)
    (hm : memRead s (offsetAddr s wns k) = .ok (v, { s with mem := m })) :
    Completes s (.movLoad wns k fd) ((({ s with mem := m } : State).writeF fd v).retire 4)
  | copToReg (src : CopSrc) (dst : WOperand) (ho : operandAddr s dst = none) :
    Completes s (.movFromCop src dst) ((s.writeW dst.base (copRead s src)).retire 4)
  | copToMem (src : CopSrc) (dst : WOperand) (a : Word) (m : Memory) (ho : operandAddr s dst = some a)
    (hm : memWrite s a (copRead s src) = .ok { s with mem := m }) :
    Completes s (.movFromCop src dst) ((operandUpdate { s with mem := m } dst).retire 4)
  | regToCop (src : WOperand) (dst : CopDst) (ho : operandAddr s src = none) :
    Completes s (.movToCop src dst) ((copWrite s dst (s.readW src.base)).retire 4)
  | memToCop (src : WOperand) (dst : CopDst) (a v : Word) (m : Memory) (ho : operandAddr s src = some a)
    (hm : memRead s a = .ok (v, { s with mem := m })) :
    Completes s (.movToCop src dst) ((copWrite (operandUpdate { s with mem := m } src) dst v).retire 4)
  | movLit (lit : BitVec 32) (dst : LitDst) : Completes s (.movLit lit dst) ((copWrite s dst.asDst lit).retire 8)
  | pop (dst : CopDst) (v : Word) (m : Memory) (hm : memRead s (s.readW sp - 4) = .ok (v, { s with mem := m })) :
    Completes s (.pop dst) ((copWrite (({ s with mem := m } : State).writeW sp (s.readW sp - 4)) dst v).retire 2)
  | push (src : CopSrc) (m : Memory) (hm : memWrite s (s.readW sp) (copRead s src) = .ok { s with mem := m }) :
    Completes s (.push src) ((({ s with mem := m } : State).writeW sp (s.readW sp + 4)).retire 2)

section
variable {s t : State} {i : Instr} {p : Prec}

theorem Completes.of_deliver (hi : i.signals = true) {list : Kinds} {fd : FReg} {r : Result p}
    (h : withForm i (deliver p list fd r s) = .next t) : Completes s i t := by
  obtain ⟨-, rfl⟩ := deliver_next (withForm_next h).2
  exact .delivered hi p list r.2 fd r.1

theorem Completes.of_arith (hi : i.signals = true) {list : Kinds} {fd : FReg} {ops : List p.Pattern}
    {core : Result p} (h : withForm i (arith p list fd ops core s) = .next t) : Completes s i t :=
  .of_deliver hi (arith_eq p list fd ops core s ▸ h)

/-- A next state of a compare is the signalled state with the compare flags written. -/
theorem compareEnd_next {sig : Kinds} {x y : p.Pattern} (h : withForm i (compareEnd sig x y s) = .next t) :
    t = { s.signalled listSelect sig with
      fsr := compareWord (statusWord s.fsr listSelect sig) (compareValues x y) }.retire 4 :=
  (trapOr_next (withForm_next h).2).2

/-- A next state of a load, with the data memory the read leaves. -/
theorem loading_next_mem {a : Word} {k : Word → State → Outcome} (h : loading s a k = .next t) :
    ∃ v m, memRead s a = .ok (v, { s with mem := m }) ∧ k v { s with mem := m } = .next t := by
  obtain ⟨v, u, hr, hk⟩ := loading_next h
  obtain ⟨-, m, rfl⟩ := memRead_ok hr
  exact ⟨v, m, hr, hk⟩

/-- A next state of a store, with the data memory the write leaves. -/
theorem storing_next_mem {a v : Word} {k : State → Outcome} (h : storing s a v k = .next t) :
    ∃ m, memWrite s a v = .ok { s with mem := m } ∧ k { s with mem := m } = .next t := by
  obtain ⟨u, hr, hk⟩ := storing_next h
  obtain ⟨-, m, rfl⟩ := memWrite_ok hr
  exact ⟨m, hr, hk⟩

end

/-- F2DI ends as every instruction with a 64-bit destination does. -/
theorem execF2di_eq (p : Prec) (rnd : RndSel) (fs fd : FReg) (s : State) :
    execF2di p rnd fs fd s = withForm (.f2di p rnd fs fd)
      (deliver .double listToInt fd (toInt (convMode rnd s.fcr) (s.readFP p fs) 64) s) := rfl

/-- F2LI ends as every instruction with a 32-bit destination does. -/
theorem execF2li_eq (p : Prec) (rnd : RndSel) (fs fd : FReg) (s : State) :
    execF2li p rnd fs fd s = withForm (.f2li p rnd fs fd)
      (deliver .single listToInt fd (toInt (convMode rnd s.fcr) (s.readFP p fs) 32) s) := rfl

/-- The inversion of `exec`: a next state is one of those of `Completes`. -/
theorem completes_of_exec {i : Instr} {s t : State} (h : exec i s = .next t) : Completes s i t := by
  cases i with
  | abs p fs fd | neg p fs fd | di2f p rnd fs fd | li2f p rnd fs fd | maxnm p fb fs fd | minnm p fb fs fd =>
    exact .of_deliver rfl h
  | f2di p rnd fs fd => exact .of_deliver rfl ((execF2di_eq p rnd fs fd s).symm.trans h)
  | f2li p rnd fs fd => exact .of_deliver rfl ((execF2li_eq p rnd fs fd s).symm.trans h)
  | add p fb fs fd | sub p fb fs fd | mul p fb fs fd | div p fb fs fd | mac p fb fs fd | flim p fb fs fd
  | max p fb fs fd | min p fb fs fd | sqrt p fs fd | cos fs fd | sin fs fd =>
    exact .of_arith rfl h
  | cpq p fb fs => exact compareEnd_next h ▸ .cpq p fb fs _ _
  | cps p fb fs => exact compareEnd_next h ▸ .cps p fb fs _ _
  | tst p fs => cases (withForm_next h).2; exact .tst p fs
  | movF p fs fd => cases (withForm_next h).2; exact .movF p fs fd
  | movc p index fd => cases (withForm_next h).2; exact .movc p index fd
  | andLit lit r =>
    cases h
    rw [sregWrite_eq_copWrite, sregRead_eq_copRead]
    exact .andLit lit r
  | iorLit lit r =>
    cases h
    rw [sregWrite_eq_copWrite, sregRead_eq_copRead]
    exact .iorLit lit r
  | movLit lit dst =>
    cases h
    rw [litWrite_eq_copWrite]
    exact .movLit lit dst
  | fbra b n =>
    simp only [exec, execFbra] at h
    split at h
    · cases h
    · rename_i c hc
      cases h
      exact .fbra b n c hc
  | movStore fs wnd k =>
    obtain ⟨m, hm, hk⟩ := storing_next_mem h
    cases hk
    exact .movStore fs wnd k m hm
  | movLoad wns k fd =>
    obtain ⟨v, m, hm, hk⟩ := loading_next_mem h
    cases hk
    exact .movLoad wns k fd v m hm
  | movFromCop src dst =>
    have hb := (withForm_next h).2
    split at hb
    · rename_i ho
      cases hb
      exact .copToReg src dst ho
    · rename_i a ho
      obtain ⟨m, hm, hk⟩ := storing_next_mem hb
      cases hk
      exact .copToMem src dst a m ho hm
  | movToCop src dst =>
    have hb := (withForm_next h).2
    split at hb
    · rename_i ho
      cases hb
      exact .regToCop src dst ho
    · rename_i a ho
      obtain ⟨v, m, hm, hk⟩ := loading_next_mem hb
      cases hk
      exact .memToCop src dst a v m ho hm
  | movLitWord2 hi dst => cases h
  | pop dst =>
    obtain ⟨v, m, hm, hk⟩ := loading_next_mem h
    cases hk
    exact .pop dst v m hm
  | push src =>
    obtain ⟨m, hm, hk⟩ := storing_next_mem h
    cases hk
    exact .push src m hm

/-! ## The invariant -/

theorem getLsbD_zero_add_of_even {a b : Word} (ha : a.getLsbD 0 = false) (hb : b.getLsbD 0 = false) :
    (a + b).getLsbD 0 = false := by
  have h := BitVec.getLsbD_add (i := 0) (by decide) a b
  rw [h, ha, hb]
  simp

/-- A branch target is even where `pc` is (R26, R291). -/
theorem branchTarget_even {s : State} (n : BitVec 20) (h : s.pc.getLsbD 0 = false) :
    (branchTarget s n).getLsbD 0 = false := by
  have hd : (2 * n.signExtend 32).getLsbD 0 = false := by
    rw [BitVec.mul_comm, show (2 : Word) = BitVec.twoPow 32 1 by rfl, BitVec.mul_twoPow_eq_shiftLeft,
      BitVec.getLsbD_shiftLeft]
    rfl
  exact getLsbD_zero_add_of_even (getLsbD_zero_add_of_even h rfl) hd

namespace Completes

variable {i : Instr} {s t : State}

/-- No instruction changes the program image (R72). -/
theorem prog_eq (h : Completes s i t) : t.prog = s.prog := by cases h <;> simp

/-- Every instruction keeps the canonical form of the data memory (R64). -/
theorem mem_wf (h : Completes s i t) (hw : s.mem.wf) : t.mem.wf := by
  cases h with
  | movStore _ _ _ _ hm | copToMem _ _ _ _ _ hm | push _ _ hm =>
    have hwf := memWrite_wf hw hm
    simpa using hwf
  | movLoad _ _ _ _ _ hm | memToCop _ _ _ _ _ _ hm | pop _ _ _ hm =>
    have hwf := memRead_wf hw hm
    simpa using hwf
  | _ => simpa using hw

/-- `pc` moves by the length of an instruction or to a branch target (R26, R291). -/
theorem pc_cases (h : Completes s i t) :
    t.pc = s.pc + 2 ∨ t.pc = s.pc + 4 ∨ t.pc = s.pc + 8 ∨ ∃ n, t.pc = branchTarget s n := by
  cases h with
  | fbra b n c hc =>
    rw [State.jump_pc]
    split
    · exact .inr (.inr (.inr ⟨n, rfl⟩))
    · exact .inr (.inl rfl)
  | _ => simp

/-- Every instruction keeps `pc` even (R25, R26). -/
theorem pc_even (h : Completes s i t) (he : s.pc.getLsbD 0 = false) : t.pc.getLsbD 0 = false := by
  rcases h.pc_cases with hpc | hpc | hpc | ⟨n, hpc⟩ <;> rw [hpc]
  · exact getLsbD_zero_add_of_even he rfl
  · exact getLsbD_zero_add_of_even he rfl
  · exact getLsbD_zero_add_of_even he rfl
  · exact branchTarget_even n he

theorem inv (h : Completes s i t) (hi : Inv s) : Inv t :=
  ⟨h.mem_wf hi.mem_wf, h.prog_eq ▸ hi.prog_wf, h.pc_even hi.pc_even⟩

/-! ## The special registers -/

/-- What an instruction that does not have FSR as destination does to FSR (R28 to R31, R36). -/
theorem fsr_cases (h : Completes s i t) (hw : i.writesFsr = false) :
    t.fsr = s.fsr ∨
    (i.signals = true ∧ ∃ list sig, t.fsr = statusWord s.fsr list sig ∨
      ∃ r, t.fsr = compareWord (statusWord s.fsr list sig) r) ∨
    ∃ (p : Prec) (x : p.Pattern), t.fsr = testWord s.fsr x := by
  cases h with
  | delivered hi p list sig fd v => exact .inr (.inl ⟨hi, list, sig, .inl (by simp)⟩)
  | cpq _ _ _ sig r | cps _ _ _ sig r => exact .inr (.inl ⟨rfl, listSelect, sig, .inr ⟨r, rfl⟩⟩)
  | tst p fs => exact .inr (.inr ⟨p, _, rfl⟩)
  | andLit _ r | iorLit _ r | movLit _ r | regToCop _ r | memToCop _ r | pop r =>
    cases r with
    | fsr => cases hw
    | _ => exact .inl (by simp [copWrite, SReg.asDst, LitDst.asDst])
  | _ => exact .inl (by simp)

/-- Only a software write of FSR clears a sticky flag (R142). -/
theorem stickyFlag_kept (h : Completes s i t) (hw : i.writesFsr = false) {k : Kind}
    (hk : stickyFlag s.fsr k = true) : stickyFlag t.fsr k = true := by
  rcases h.fsr_cases hw with e | ⟨-, list, sig, e | ⟨r, e⟩⟩ | ⟨p, x, e⟩ <;> rw [e]
  · exact hk
  · simp [stickyFlag_statusWord, hk]
  · simp [stickyFlag_statusWord, hk]
  · simpa using hk

/-- An instruction that neither signals nor has FSR as destination keeps every exception flag (R312). -/
theorem flags_kept (h : Completes s i t) (hi : i.signals = false) (hw : i.writesFsr = false) (k : Kind) :
    statusFlag t.fsr k = statusFlag s.fsr k ∧ stickyFlag t.fsr k = stickyFlag s.fsr k := by
  rcases h.fsr_cases hw with e | ⟨hs, -⟩ | ⟨p, x, e⟩
  · simp [e]
  · rw [hi] at hs; cases hs
  · simp [e]

/-- FEAR changes only by `Signal` and by a software write (R35, R36). -/
theorem fear_eq (h : Completes s i t) (hi : i.signals = false) (hw : i.writesFear = false) : t.fear = s.fear := by
  cases h with
  | delivered hs => rw [hi] at hs; cases hs
  | cpq | cps => cases hi
  | movLit _ d => cases d <;> rfl
  | andLit _ r | iorLit _ r | regToCop _ r | memToCop _ r | pop r =>
    cases r with
    | fear => cases hw
    | _ => simp [copWrite, SReg.asDst]
  | _ => simp

end Completes

/-- A next state of a step is that of an instruction, followed by the end test. -/
theorem step_next {s t : State} (h : step s = .next t) :
    ∃ i u, decodeBytes (fetchBytes s) = .ok i ∧ exec i s = .next u ∧ t = u.noteEnd := by
  unfold step at h
  split at h
  · cases h
  split at h
  · rename_i e _
    cases e <;> cases h
  · rename_i i hi
    unfold afterExec at h
    split at h <;> cases h
    rename_i u hu
    exact ⟨i, u, hi, hu, rfl⟩

/-- An instruction that does not signal faults only by a memory access (R312). -/
theorem not_fpuTrap_of_not_signals {i : Instr} {s : State} {sig : Kinds} (hi : i.signals = false) :
    exec i s ≠ .fault (.fpuTrap sig) := by
  intro h
  cases i with
  | tst | movF | movc => cases (withForm_fault h).2
  | andLit | iorLit | movLit | movLitWord2 => cases h
  | fbra b n =>
    simp only [exec, execFbra] at h
    split at h <;> cases h
  | movStore | push =>
    rcases storing_fault h with e | e | ⟨_, e⟩ <;> cases e
  | movLoad | pop =>
    rcases loading_fault h with e | e | ⟨_, _, e⟩ <;> cases e
  | movFromCop src dst =>
    have hb := (withForm_fault h).2
    split at hb
    · cases hb
    · rcases storing_fault hb with e | e | ⟨_, e⟩ <;> cases e
  | movToCop src dst =>
    have hb := (withForm_fault h).2
    split at hb
    · cases hb
    · rcases loading_fault hb with e | e | ⟨_, _, e⟩ <;> cases e
  | _ => cases hi

/-! ## Sums and products in either order -/

section
variable {p : Prec}

/-- An infinity is the infinity of its sign (R131). -/
theorem eq_infOf_of_isInf {x : p.Pattern} (h : isInf x = true) : x = infOf p (signOf x) := by
  have hc : classOf x = .inf := by simpa [isInf] using h
  have hmag : x.toNat % 2 ^ (p.width - 1) = p.infMag := by
    unfold classOf at hc
    split at hc
    · split at hc <;> cases hc
    split at hc
    · rename_i he
      split at hc
      · rename_i hm
        have hx := x.isLt
        cases p <;>
          simp [expField, manField, Prec.infMag, Prec.expMax, Prec.manBits, Prec.expBits] at he hm ⊢ <;> omega
      · split at hc <;> cases hc
    · cases hc
  conv_lhs => rw [← pack_self x, hmag]
  rfl

theorem zeroSumSign_comm (rm : RoundMode) (a b : Bool) : zeroSumSign rm a b = zeroSumSign rm b a := by
  cases a <;> cases b <;> rfl

/-- The sum does not depend on the order of the addends: two infinities that add up are the same pattern (R171). -/
theorem addCore_comm (rm : RoundMode) (x y : p.Pattern) : addCore p rm x y = addCore p rm y x := by
  unfold addCore
  rw [Int.add_comm (quanta x), zeroSumSign_comm rm (signOf x)]
  cases hx : isInf x <;> cases hy : isInf y
  · simp
  · simp
  · simp
  · by_cases hs : signOf x = signOf y
    · have hxy : x = y := by rw [eq_infOf_of_isInf hx, eq_infOf_of_isInf hy, hs]
      simp [hxy]
    · simp [hs, Ne.symm hs]

theorem mulCore_comm (rm : RoundMode) (x y : p.Pattern) : mulCore p rm x y = mulCore p rm y x := by
  unfold mulCore
  rw [Int.mul_comm (quanta x), bne_comm (a := signOf x), Bool.or_comm (isInf x),
    Bool.or_comm (isZero x && isInf y), Bool.and_comm (isInf x), Bool.and_comm (isZero x)]

/-- `arith` looks at its two operands as a set (R138, R139). -/
theorem arith_swap (list : Kinds) (fd : FReg) (x y : p.Pattern) (core : Result p) (s : State) :
    arith p list fd [x, y] core s = arith p list fd [y, x] core s := by
  have hany : ∀ f : p.Pattern → Bool, [x, y].any f = [y, x].any f := fun f => by simp [Bool.or_comm]
  simp only [arith, subKinds, snanKinds, hany]

theorem withForm_congr {i j : Instr} (h : i.formError = j.formError) (o : Outcome) : withForm i o = withForm j o := by
  simp only [withForm, h]

end

/-! ## The stack -/

/-- PUSH at an admitted address: the next state (R272). -/
theorem exec_push_admitted (src : CopSrc) {s : State} (hw : s.mem.wf) (ha : Admitted s.writable (s.readW 15)) :
    ∃ m : Memory, m.wf ∧ Stored (s.readW 15) (copRead s src) s { s with mem := m } ∧
      exec (.push src) s = .next ((({ s with mem := m } : State).writeW 15 (s.readW 15 + 4)).retire 2) := by
  obtain ⟨m, hm, hwf, hst⟩ := memWrite_admitted (copRead s src) hw ha
  refine ⟨m, hwf, hst, ?_⟩
  show storing s (s.readW 15) (copRead s src) _ = _
  rw [storing, hm]
  rfl

/-- POP at an admitted address: the next state (R271). -/
theorem exec_pop_admitted (dst : CopDst) {s : State} (hw : s.mem.wf) (ha : Admitted s.readable (s.readW 15 - 4)) :
    ∃ (v : Word) (m : Memory), Loaded (s.readW 15 - 4) v s { s with mem := m } ∧
      exec (.pop dst) s =
        .next ((copWrite (({ s with mem := m } : State).writeW 15 (s.readW 15 - 4)) dst v).retire 2) := by
  obtain ⟨v, m, hm, -, hl⟩ := memRead_admitted hw ha
  refine ⟨v, m, hl, ?_⟩
  show loading s (s.readW 15 - 4) _ = _
  rw [loading, hm]
  rfl

end Sys2Proof.Machine

namespace Sys2Proof

open Machine

/-! ## Frames -/

theorem Stored.of_mem_eq {a v : Word} {s t u : State} (h : Stored a v s t) (hu : u.mem = t.mem) : Stored a v s u :=
  ⟨fun i hi => hu ▸ h.bytes i hi, fun b hb => hu ▸ h.outside b hb⟩

theorem Loaded.of_mem_eq {a v : Word} {s t u : State} (h : Loaded a v s t) (hu : u.mem = t.mem) : Loaded a v s u :=
  ⟨fun i hi => hu ▸ h.bytes i hi, fun b x hx => hu ▸ h.known b x hx, fun b hb => hu ▸ h.outside b hb⟩

/-- A long word stored and then read back is the same one (R62). -/
theorem Loaded.eq_of_stored {a v w : Word} {s t u : State} (hs : Stored a v s t) (hl : Loaded a w t u) : w = v := by
  refine eq_of_bytes_eq fun i hi => ?_
  have h := hl.known _ _ (hs.bytes i hi)
  rw [hl.bytes i hi] at h
  exact Option.some.inj h

theorem CopKept.refl (s : State) : CopKept s s := ⟨fun _ => rfl, rfl, rfl, rfl⟩

theorem CopKept.retire {s u : State} (h : CopKept s u) (n : Nat) : CopKept s (u.retire n) :=
  ⟨h.f, h.fsr, h.fcr, h.fear⟩

/-- A W register written over another data memory. -/
theorem CopKept.of_writeW (s : State) (m : Memory) (r : WReg) (v : Word) :
    CopKept s (({ s with mem := m } : State).writeW r v) :=
  ⟨fun _ => rfl, rfl, rfl, rfl⟩

/-- A coprocessor register written over a state whose coprocessor registers are those of `s`. -/
theorem CopWritten.of_copKept {s u : State} (h : CopKept s u) (d : CopDst) (v : Word) (n : Nat) :
    CopWritten d v s ((copWrite u d v).retire n) where
  value := by simp
  f r hr := (copWrite_readF hr).trans (h.f r)
  fsr hd := (copWrite_fsr hd).trans h.fsr
  fcr hd := (copWrite_fcr hd).trans h.fcr
  fear hd := (copWrite_fear hd).trans h.fear

/-- A coprocessor register written before the instruction retires. -/
theorem RestKept.of_copWrite {ww : WReg → Bool} {s u : State} {n : Nat} (h : RestKept ww s (u.retire n)) (d : CopDst)
    (v : Word) : RestKept ww s ((copWrite u d v).retire n) := by
  obtain ⟨hw, hprog, hread, hwrite, hcond, hend, hcomplete, hdraws⟩ := h
  cases d <;> exact ⟨hw, hprog, hread, hwrite, hcond, hend, hcomplete, hdraws⟩

/-- The instruction retired and nothing else. -/
theorem RestKept.of_retire (s : State) (n : Nat) : RestKept (fun _ => false) s (s.retire n) := by
  constructor <;> simp

/-- A W register written over another data memory, and the instruction retired. -/
theorem RestKept.of_writeW (s : State) (m : Memory) (r : WReg) (v : Word) (n : Nat) :
    RestKept (· == r) s ((({ s with mem := m } : State).writeW r v).retire n) where
  w q hq := State.readW_writeW_ne { s with mem := m } v (by simpa using hq)
  prog := rfl
  readable := rfl
  writable := rfl
  condTable := rfl
  endAddr := rfl
  complete := rfl
  draws := rfl

end Sys2Proof

open Sys2Proof Sys2Proof.Machine

/-- Settles O7: a step is an instruction that completes, followed by the end test, which leaves the invariant alone. -/
theorem stepKeepsInv : Obligations.StepKeepsInv := by
  intro s t hs h
  obtain ⟨i, u, -, hu, rfl⟩ := step_next h
  obtain ⟨hm, hp, hpc⟩ := (completes_of_exec hu).inv hs
  exact ⟨hm, hp, hpc⟩

/-- Settles O12: from what an instruction can do to FSR and FEAR, and the faults of a memory access. -/
theorem othersNeverTrap : Obligations.OthersNeverTrap := by
  intro i s hi
  exact ⟨fun sig => not_fpuTrap_of_not_signals hi, fun t h hw => (completes_of_exec h).flags_kept hi hw,
    fun t h hw => (completes_of_exec h).fear_eq hi hw⟩

/-- Settles O13, by the ways an instruction completes. -/
theorem pcAdvances : Obligations.PcAdvances := by
  intro i s t h
  cases completes_of_exec h with
  | delivered hi =>
    cases i with
    | push | pop | movLit | fbra => cases hi
    | _ => simp
  | fbra b n c hc => exact ⟨c, hc, rfl⟩
  | _ => simp

/-- Settles O14: whatever else writes FSR keeps its sticky flags. -/
theorem stickyNeverCleared : Obligations.StickyNeverCleared :=
  fun _ _ _ _ hw h hk => (completes_of_exec h).stickyFlag_kept hw hk

/-- Settles O15, by the ways an instruction completes. -/
theorem statusWriters : Obligations.StatusWriters := by
  refine ⟨fun i s t n hn h => ?_, fun i s t h => ?_⟩
  · cases completes_of_exec h with
    | delivered hi p list sig fd v =>
      have hk : (((s.signalled list sig).writeFP p fd v).retire 4).fsr.getLsbD n = s.fsr.getLsbD n := by
        simpa using getLsbD_statusWord_high s.fsr list sig hn
      cases i with
      | andLit | fbra | iorLit | movStore | movF | movc | movFromCop | movLoad | movToCop | movLit | movLitWord2
      | pop | push | tst => cases hi
      | cpq | cps => exact fun _ => hk
      | _ => exact hk
    | cpq _ _ _ sig r | cps _ _ _ sig r =>
      exact fun hr => (getLsbD_compareWord _ r hr).trans (getLsbD_statusWord_high _ _ _ hn)
    | tst => exact fun hr => getLsbD_testWord _ _ hr
    | andLit _ r | iorLit _ r =>
      cases r with
      | fsr =>
        simp only [State.retire_fsr, copWrite, SReg.asDst, copRead, CopDst.asSrc]
        exact getLsbD_append_high _ _ hn
      | fcr | fear => rfl
    | movLit _ d | regToCop _ d | memToCop _ d | pop d => cases d <;> simp [copWrite, LitDst.asDst]
    | _ => simp
  · cases completes_of_exec h with
    | delivered hi p list sig fd v =>
      have hk : (((s.signalled list sig).writeFP p fd v).retire 4).fcr = s.fcr := by simp
      cases i with
      | andLit | fbra | iorLit | movStore | movF | movc | movFromCop | movLoad | movToCop | movLit | movLitWord2
      | pop | push | tst => cases hi
      | _ => exact hk
    | andLit _ d | iorLit _ d | movLit _ d | regToCop _ d | memToCop _ d | pop d =>
      cases d <;> simp [copWrite, SReg.asDst, LitDst.asDst]
    | _ => simp

/-- Settles O33: the form check, the operand kinds and the two cores are symmetric in the sources. -/
theorem addMulCommute : Obligations.AddMulCommute := by
  intro p fb fs fd s
  have hpairs : (p.admits fb && p.admits fs && p.admits fd) = (p.admits fs && p.admits fb && p.admits fd) := by
    rw [Bool.and_comm (p.admits fb)]
  have hadd : (Instr.add p fb fs fd).formError = (Instr.add p fs fb fd).formError := congrArg pairCheck hpairs
  have hmul : (Instr.mul p fb fs fd).formError = (Instr.mul p fs fb fd).formError := congrArg pairCheck hpairs
  refine ⟨?_, ?_⟩
  · show withForm (.add p fb fs fd) _ = withForm (.add p fs fb fd) _
    rw [withForm_congr hadd, addCore_comm, arith_swap]
  · show withForm (.mul p fb fs fd) _ = withForm (.mul p fs fb fd) _
    rw [withForm_congr hmul, mulCore_comm, arith_swap]

/-- Settles O40, by the bits of `testWord`. -/
theorem tstResult : Obligations.TstResult := by
  intro p fs s x hf hx
  subst hx
  obtain ⟨hsub, hinf, hsign, hzero, hnan⟩ := testWord_flags s.fsr (s.readFP p fs)
  refine ⟨_, withForm_eq hf _,
    ⟨fun n hn => getLsbD_testWord _ _ ?_, fun r => rfl, rfl, fun a => rfl, ?_, rfl⟩, rfl, ?_⟩
  · simp at hn
    omega
  · constructor <;> intros <;> rfl
  · simp only [State.retire_fsr, hsub, hinf, hsign, hzero, hnan]
    simp [isSub, isInf, isZero, isNaN, signOf]

/-- Settles O47, by the frames of a W register's and of a coprocessor register's write. -/
theorem movRegister : Obligations.MovRegister := by
  refine ⟨fun src n s => ⟨_, rfl, ?_⟩, fun n dst s => ⟨_, rfl, ?_⟩, fun s => ?_⟩
  · exact ⟨State.readW_writeW_self s n _, (CopKept.of_writeW s s.mem n _).retire 4, fun a => rfl,
      .of_writeW s s.mem n _ 4, rfl⟩
  · exact ⟨.of_copKept (.refl s) dst _ 4, fun a => by simp, .of_copWrite (.of_retire s 4) dst _, by simp⟩
  · exact ⟨fsrh_extract_high s.fsr, fsrh_extract_low s.fsr⟩

/-- Settles O48, by the frame of a coprocessor register's write. -/
theorem movLitWrites : Obligations.MovLitWrites := by
  intro lit dst s
  have he : exec (.movLit lit dst) s = .next ((copWrite s dst.asDst lit).retire 8) := by
    rw [← litWrite_eq_copWrite]
    rfl
  exact ⟨_, he, .of_copKept (.refl s) dst.asDst lit 8, fun a => by simp, .of_copWrite (.of_retire s 8) _ _, by simp⟩

/-- Settles O54, by the state after an admitted store and the frame of W15's write. -/
theorem pushStores : Obligations.PushStores := by
  intro src s hw ha
  obtain ⟨m, -, hst, he⟩ := exec_push_admitted src hw ha
  exact ⟨_, he, hst.of_mem_eq rfl, (CopKept.of_writeW s m 15 _).retire 2, .of_writeW s m 15 _ 2,
    State.readW_writeW_self { s with mem := m } 15 _, rfl⟩

/-- Settles O55, by the state after an admitted load and the frames of its two writes. -/
theorem popLoads : Obligations.PopLoads := by
  intro dst s hw ha
  obtain ⟨v, m, hl, he⟩ := exec_pop_admitted dst hw ha
  exact ⟨_, v, he, hl.of_mem_eq (by simp), .of_copKept (.of_writeW s m 15 _) dst v 2,
    .of_copWrite (.of_writeW s m 15 _ 2) dst v, by simp, by simp⟩

/-- Settles O56: the POP reads at the address of the PUSH the long word the PUSH stored there. -/
theorem pushThenPop : Obligations.PushThenPop := by
  intro src dst s hw haw har
  obtain ⟨m, hwf, hst, hpush⟩ := exec_push_admitted src hw haw
  generalize ht : (({ s with mem := m } : State).writeW 15 (s.readW 15 + 4)).retire 2 = t at hpush
  have hsp : t.readW 15 - 4 = s.readW 15 := by
    rw [← ht, State.retire_readW, State.readW_writeW_self, BitVec.add_sub_cancel]
  have hmem : t.mem = m := by rw [← ht]; rfl
  have hread : t.readable = s.readable := by rw [← ht]; rfl
  obtain ⟨v, m', hl, hpop⟩ := exec_pop_admitted dst (s := t) (hmem ▸ hwf) (by rw [hsp, hread]; exact har)
  rw [hsp] at hl hpop
  refine ⟨t, _, hpush, hpop, ?_, fun r => ?_, ?_⟩
  · rw [copRead_retire, copRead_copWrite_self]
    exact hl.eq_of_stored (hst.of_mem_eq hmem)
  · rw [State.retire_readW, copWrite_readW]
    by_cases hr : r = 15
    · rw [hr, State.readW_writeW_self]
    · rw [State.readW_writeW_ne _ _ hr, ← ht]
      exact State.readW_writeW_ne { s with mem := m } _ hr
  · have hpc : t.pc = s.pc + 2 := by rw [← ht]; rfl
    rw [State.retire_pc, copWrite_pc, State.writeW_pc, hpc, BitVec.add_assoc]
    rfl

/-- Settles O8: both memories are empty and `pc` is 0. -/
theorem resetInv : Obligations.ResetInv := ⟨State.reset_mem_wf, State.reset_prog_wf, rfl⟩

/-- Settles O9, by evaluating each field of the state after reset. -/
theorem resetValues : Obligations.ResetValues := by
  have hspace : ∀ a : Nat, inRegions [wholeSpace] a = decide (a < 2 ^ 32) := by
    intro a
    simp [inRegions, Region.contains, wholeSpace]
  refine ⟨fun r => ?_, fun r => ?_, rfl, rfl, rfl, rfl, fun _ => rfl, fun _ => rfl,
    fun a => ⟨hspace a, hspace a⟩, fun b => ?_, rfl, rfl, rfl⟩
  · exact Vector.getElem_replicate ..
  · exact Vector.getElem_replicate ..
  · exact Vector.getElem_replicate ..

/-- Settles O18, by the four values of the field. -/
theorem roundModeField : Obligations.RoundModeField :=
  ⟨fun s => roundModeOf_eq s.fcr, fun _ _ => rfl, fun _ => rfl⟩

end

section
/-! PROOFS. Steps, fetches and the accesses to data memory: what a load or a store answers by its address, said once, and
the statements about memory and the moves to and from it that follow. -/

namespace Sys2Proof.Machine

/-! ## One step -/

/-- The step of a run that goes on, where the bytes at `pc` decode (R116). -/
theorem step_decoded {s : State} {i : Instr} (hc : s.complete = false) (hd : decodeBytes (fetchBytes s) = .ok i) :
    step s = afterExec (exec i s) := by
  simp [step, hc, hd]

/-- The step of a run that goes on, where the bytes at `pc` decode to nothing (R115). -/
theorem step_undecoded {s : State} {e : DecodeRefusal} (hc : s.complete = false)
    (hd : decodeBytes (fetchBytes s) = .error e) : step s = stopOf s e := by
  simp [step, hc, hd]

/-- Where the image has no byte at `pc` nothing is fetched (R72). -/
theorem fetchBytes_undefined {s : State} (h : s.prog.read s.pc.toNat = none) : fetchBytes s = [] := by
  simp [fetchBytes, Memory.bytesFrom, h]

/-! ## Fetching what was placed in the program image -/

theorem add_one_add_ofNat (a : Word) (i : Nat) : a + 1 + BitVec.ofNat 32 i = a + BitVec.ofNat 32 (i + 1) := by
  rw [BitVec.ofNat_add, BitVec.add_assoc, BitVec.add_comm 1]
  rfl

/-- An address comes again only after the whole space (log 31). -/
theorem toNat_ne_add_ofNat (a : Word) {n : Nat} (h0 : 0 < n) (hn : n < 2 ^ 32) :
    a.toNat ≠ (a + BitVec.ofNat 32 n).toNat := by
  have ha := a.isLt
  simp only [BitVec.toNat_add, BitVec.toNat_ofNat]
  omega

/-- Bytes stored from an address on leave every byte at another address alone. -/
theorem Memory.read_writeBytes_outside {x : Nat} (bs : List Byte) :
    ∀ {m : Memory} {a : PcWord}, m.wf → (∀ i < bs.length, x ≠ (a + BitVec.ofNat 32 i).toNat) →
      (m.writeBytes a bs).read x = m.read x := by
  induction bs with
  | nil => exact fun _ _ => rfl
  | cons b bs ih =>
    intro m a hm hx
    have hhead : x ≠ a.toNat := by simpa using hx 0 (by simp)
    have htail : ∀ i < bs.length, x ≠ (a + 1 + BitVec.ofNat 32 i).toNat := fun i hi => by
      rw [add_one_add_ofNat]
      exact hx (i + 1) (by simpa using hi)
    calc ((m.write a.toNat b).writeBytes (a + 1) bs).read x
      _ = (m.write a.toNat b).read x := ih (Memory.wf_write a.toNat b hm a.isLt) htail
      _ = m.read x := by rw [Memory.read_write _ _ _ _ hm, if_neg hhead]

/-- Bytes stored from an address on are read back from it, the wrap at the top of the space included. -/
theorem Memory.bytesFrom_writeBytes (bs : List Byte) :
    ∀ {m : Memory} {a : PcWord}, m.wf → bs.length ≤ 2 ^ 32 → (m.writeBytes a bs).bytesFrom a bs.length = bs := by
  induction bs with
  | nil => exact fun _ _ => rfl
  | cons b bs ih =>
    intro m a hm hlen
    rw [List.length_cons] at hlen
    have hwf : (m.write a.toNat b).wf := Memory.wf_write a.toNat b hm a.isLt
    have hhead : ((m.write a.toNat b).writeBytes (a + 1) bs).read a.toNat = some b := by
      rw [Memory.read_writeBytes_outside bs hwf fun i hi => add_one_add_ofNat a i ▸
        toNat_ne_add_ofNat a i.succ_pos (by omega), Memory.read_write _ _ _ _ hm, if_pos rfl]
    simp only [Memory.writeBytes, List.length_cons, Memory.bytesFrom, hhead]
    rw [ih hwf (by omega)]

theorem length_psBytes (ws : List PsWord) : (psBytes ws).length = 2 * ws.length := by
  induction ws with
  | nil => rfl
  | cons h ws ih =>
    simp only [psBytes, bytesOf_eq, List.length_append, List.length_cons, List.length_nil, ih]
    omega

/-- A row fills the eight bytes of a fetch. -/
theorem length_tableWords (nbits w : Nat) : (tableWords nbits w).length = 4 := by
  unfold tableWords
  split <;> rfl

/-- The fetch at `pc` finds the row that was placed there (R72). -/
theorem fetchBytes_withFetchWord {s : State} (hp : s.prog.wf) (nbits w : Nat) :
    fetchBytes (s.withFetchWord nbits w) = psBytes (tableWords nbits w) := by
  have hlen : (psBytes (tableWords nbits w)).length = 8 := by rw [length_psBytes, length_tableWords]
  have h := Memory.bytesFrom_writeBytes (psBytes (tableWords nbits w)) (a := s.pc) hp (by rw [hlen]; decide)
  rwa [hlen] at h

/-! ## Addresses -/

/-- Only the register mode addresses no memory (R261). -/
theorem operandAddr_none {s : State} {o : WOperand} (h : operandAddr s o = none) : ∃ n, o = .reg n := by
  cases o with
  | reg n => exact ⟨n, rfl⟩
  | _ => cases h

/-- The literal of the offset forms is a signed number of long words (R105). -/
theorem slit14_eq_ofInt (k : BitVec 12) : slit14 k = BitVec.ofInt 32 (4 * k.toInt) := by
  have h : (k ++ 0#2).toInt = 4 * k.toInt := by
    rw [BitVec.toInt_append_zero]
    omega
  rw [slit14, BitVec.signExtend, h]

/-! ## What an access answers -/

/-- A long word with a byte outside a set of the launch memory is not in it (R75). -/
theorem admits_eq_false {rs : List Region} {a : Word} {i : Nat} (hi : i < 4)
    (h : inRegions rs (a.toNat + i) = false) : admits rs a = false := by
  rw [← Bool.not_eq_true, admits_iff]
  intro hall
  rw [hall i hi] at h
  cases h

section
variable {s : State} {a : Word}

theorem loading_misaligned (h : a.extractLsb' 0 2 ≠ 0#2) (k : Word → State → Outcome) :
    loading s a k = .fault (.addressError a) := by
  rw [loading, memRead_misaligned h]

theorem storing_misaligned (h : a.extractLsb' 0 2 ≠ 0#2) (v : Word) (k : State → Outcome) :
    storing s a v k = .fault (.addressError a) := by
  rw [storing, memWrite_misaligned h]

theorem loading_notAdmitted {i : Nat} (hal : a.extractLsb' 0 2 = 0#2) (hi : i < 4)
    (h : inRegions s.readable (a.toNat + i) = false) (k : Word → State → Outcome) :
    loading s a k = .fault (.notAdmitted a) := by
  simp [loading, memRead, aligned_iff.mpr hal, admits_eq_false hi h]

theorem storing_notAdmitted {i : Nat} (hal : a.extractLsb' 0 2 = 0#2) (hi : i < 4)
    (h : inRegions s.writable (a.toNat + i) = false) (v : Word) (k : State → Outcome) :
    storing s a v k = .fault (.notAdmitted a) := by
  simp [storing, memWrite, aligned_iff.mpr hal, admits_eq_false hi h]

/-- An admitted load goes on with the long word at the address. -/
theorem loading_admitted (hw : s.mem.wf) (ha : Admitted s.readable a) :
    ∃ (v : Word) (m : Memory), Loaded a v s { s with mem := m } ∧
      ∀ k : Word → State → Outcome, loading s a k = k v { s with mem := m } := by
  obtain ⟨v, m, hm, -, hl⟩ := memRead_admitted hw ha
  exact ⟨v, m, hl, fun k => by rw [loading, hm]⟩

/-- An admitted store goes on with the long word at the address. -/
theorem storing_admitted (v : Word) (hw : s.mem.wf) (ha : Admitted s.writable a) :
    ∃ m : Memory, Stored a v s { s with mem := m } ∧
      ∀ k : State → Outcome, storing s a v k = k { s with mem := m } := by
  obtain ⟨m, hm, -, hst⟩ := memWrite_admitted v hw ha
  exact ⟨m, hst, fun k => by rw [storing, hm]⟩

/-- A read that succeeds keeps every byte that held a value (R75). -/
theorem memRead_known {v : Word} {m : Memory} (hw : s.mem.wf) (h : memRead s a = .ok (v, { s with mem := m })) {x : Nat}
    {b : Byte} (hb : s.mem.read x = some b) : m.read x = some b := by
  obtain ⟨v', m', hm, -, hl⟩ := memRead_admitted hw (memRead_ok h).1
  rw [hm] at h
  cases h
  exact hl.known x b hb

end

/-! ## The memory forms as loads and stores -/

section
variable (s : State)

theorem exec_movStore (fs : FReg) (w : WReg) (k : BitVec 12) :
    exec (.movStore fs w k) s = storing s (offsetAddr s w k) (s.readF fs) fun t => .next (t.retire 4) := rfl

theorem exec_movLoad (w : WReg) (k : BitVec 12) (fd : FReg) :
    exec (.movLoad w k fd) s = loading s (offsetAddr s w k) fun v t => .next ((t.writeF fd v).retire 4) := rfl

theorem exec_push (src : CopSrc) :
    exec (.push src) s =
      storing s (s.readW 15) (copRead s src) fun t => .next ((t.writeW 15 (s.readW 15 + 4)).retire 2) := rfl

theorem exec_pop (dst : CopDst) :
    exec (.pop dst) s = loading s (s.readW 15 - 4) fun v t =>
      .next ((copWrite (t.writeW 15 (s.readW 15 - 4)) dst v).retire 2) := rfl

variable {s} {o : WOperand} {a : Word}

/-- `MOV.l` to memory (R267), in the modes that have an address. -/
theorem exec_movFromCop_mem (src : CopSrc) (hf : o.formError = none) (ho : operandAddr s o = some a) :
    exec (.movFromCop src o) s =
      storing s a (copRead s src) fun t => .next ((operandUpdate t o).retire 4) := by
  have hwf : (Instr.movFromCop src o).wellFormed = true := by simp [Instr.wellFormed, Instr.formError, hf]
  simp only [exec, execMovFromCop, withForm_eq hwf, ho]

/-- `MOV.l` from memory (R269), in the modes that have an address. -/
theorem exec_movToCop_mem (dst : CopDst) (hf : o.formError = none) (ho : operandAddr s o = some a) :
    exec (.movToCop o dst) s =
      loading s a fun v t => .next ((copWrite (operandUpdate t o) dst v).retire 4) := by
  have hwf : (Instr.movToCop o dst).wellFormed = true := by simp [Instr.wellFormed, Instr.formError, hf]
  simp only [exec, execMovToCop, withForm_eq hwf, ho]

end

/-! ## The address register after the access -/

section
variable (s : State) {o : WOperand} {n : WReg}

theorem operandUpdate_readW_inc (h : o = .postInc n ∨ o = .preInc n) :
    (operandUpdate s o).readW n = s.readW n + 4 := by
  rcases h with rfl | rfl <;> exact State.readW_writeW_self s n _

theorem operandUpdate_readW_dec (h : o = .postDec n ∨ o = .preDec n) :
    (operandUpdate s o).readW n = s.readW n - 4 := by
  rcases h with rfl | rfl <;> exact State.readW_writeW_self s n _

end

/-! ## What an instruction that completes leaves in memory and in the launch parameters -/

namespace Completes

variable {i : Instr} {s t : State}

/-- No instruction changes a launch parameter (R341, R346). -/
theorem launch_eq (h : Completes s i t) : t.readable = s.readable ∧ t.writable = s.writable ∧
    t.condTable = s.condTable ∧ t.endAddr = s.endAddr := by
  cases h <;> simp

end Completes

end Sys2Proof.Machine

namespace Sys2Proof

open Machine

/-! ## Frames over another data memory -/

section
variable (s : State) (m : Memory) (o : WOperand) (n : Nat)

theorem CopKept.of_mem : CopKept s { s with mem := m } := ⟨fun _ => rfl, rfl, rfl, rfl⟩

theorem CopKept.of_operandUpdate : CopKept s (operandUpdate { s with mem := m } o) where
  f r := operandUpdate_readF _ o r
  fsr := operandUpdate_fsr _ o
  fcr := operandUpdate_fcr _ o
  fear := operandUpdate_fear _ o

theorem RestKept.of_mem : RestKept (fun _ => false) s (({ s with mem := m } : State).retire n) := by
  constructor <;> intros <;> rfl

/-- The access changed the address register of its mode and no other W register (R261). -/
theorem RestKept.of_operandUpdate :
    RestKept (o.modifies ·) s ((operandUpdate { s with mem := m } o).retire n) := by
  cases o with
  | reg | ind | indexed => exact .of_mem s m n
  | postInc r | postDec r | preDec r | preInc r => exact .of_writeW s m r _ n

end

end Sys2Proof

open Sys2Proof Sys2Proof.Machine

/-- Settles O6: the fetch reads back the eight bytes of the row. -/
theorem placedWordIsFetched : Obligations.PlacedWordIsFetched := by
  intro s nbits w i hp hd
  rw [fetchBytes_withFetchWord hp]
  unfold decodeTableWord at hd
  cases hr : decodeBytes (psBytes (tableWords nbits w)) with
  | error e => rw [hr] at hd; cases hd
  | ok j => rw [hr] at hd; cases hd; rfl

/-- Settles O16, by the ways an instruction completes. -/
theorem imageImmutable : Obligations.ImageImmutable := by
  intro i s t h
  have hc := completes_of_exec h
  exact ⟨hc.prog_eq, hc.launch_eq⟩

/-- Settles O17, by the ways an instruction completes: only a store's and a load's write the data memory, and a load's
keeps every byte that held a value. -/
theorem onlyStoresWrite : Obligations.OnlyStoresWrite := by
  intro i s t hw h
  cases completes_of_exec h with
  | delivered hi p list sig fd v =>
    have hmem : ∀ a, (((s.signalled list sig).writeFP p fd v).retire 4).mem.read a = s.mem.read a := fun a => by simp
    cases i with
    | andLit | fbra | iorLit | movStore | movF | movc | movFromCop | movLoad | movToCop | movLit | movLitWord2
    | pop | push | tst => cases hi
    | _ => exact hmem
  | movStore | push => trivial
  | copToReg _ _ ho | regToCop _ _ ho =>
    obtain ⟨n, rfl⟩ := operandAddr_none ho
    simp
  | copToMem src dst a m ho hm =>
    cases dst with
    | reg n => cases ho
    | _ => trivial
  | memToCop src dst a v m ho hm =>
    have hknown : ∀ x b, s.mem.read x = some b →
        ((copWrite (operandUpdate { s with mem := m } src) dst v).retire 4).mem.read x = some b := by
      simpa using fun x b => memRead_known hw hm
    cases src with
    | reg n => cases ho
    | _ => exact hknown
  | movLoad _ _ _ _ _ hm | pop _ _ _ hm => simpa using fun x b => memRead_known hw hm
  | _ => simp

/-- Settles O51, by the state after an admitted access and its frame. -/
theorem offsetMoves : Obligations.OffsetMoves := by
  refine ⟨fun fs wnd k s hw ha => ?_, fun wns k fd s hw ha => ?_⟩
  · obtain ⟨m, hst, hk⟩ := storing_admitted (s.readF fs) hw ha
    exact ⟨_, (exec_movStore s fs wnd k).trans (hk _), hst.of_mem_eq rfl, (CopKept.of_mem s m).retire 4, .of_mem s m 4,
      rfl⟩
  · obtain ⟨v, m, hl, hk⟩ := loading_admitted hw ha
    exact ⟨_, v, (exec_movLoad s wns k fd).trans (hk _), hl.of_mem_eq rfl, .of_copKept (.of_mem s m) (.f fd) v 4,
      .of_copWrite (.of_mem s m 4) (.f fd) v, rfl⟩

/-- Settles O52, by the state after an admitted store and the frame of the address register's update. -/
theorem movCopToMemory : Obligations.MovCopToMemory := by
  intro src dst s a hf hw ho ha
  obtain ⟨m, hst, hk⟩ := storing_admitted (copRead s src) hw ha
  exact ⟨_, (exec_movFromCop_mem src hf ho).trans (hk _), hst.of_mem_eq (by simp),
    (CopKept.of_operandUpdate s m dst).retire 4, .of_operandUpdate s m dst 4,
    fun n h => operandUpdate_readW_inc { s with mem := m } h, fun n h => operandUpdate_readW_dec { s with mem := m } h,
    by simp⟩

/-- Settles O53, by the state after an admitted load and the frames of its two writes. -/
theorem movMemoryToCop : Obligations.MovMemoryToCop := by
  intro src dst s a hf hw ho ha
  obtain ⟨v, m, hl, hk⟩ := loading_admitted hw ha
  refine ⟨_, v, (exec_movToCop_mem dst hf ho).trans (hk _), hl.of_mem_eq (by simp),
    .of_copKept (.of_operandUpdate s m src) dst v 4, .of_copWrite (.of_operandUpdate s m src 4) dst v, fun n h => ?_,
    fun n h => ?_, by simp⟩
  · rw [State.retire_readW, copWrite_readW]
    exact operandUpdate_readW_inc { s with mem := m } h
  · rw [State.retire_readW, copWrite_readW]
    exact operandUpdate_readW_dec { s with mem := m } h

/-- Settles O58: every memory form is a load or a store at its address, which the access's checks stop. -/
theorem accessStops : Obligations.AccessStops := by
  refine ⟨fun s a h => ⟨?_, ?_, ?_, ?_, ?_, ?_⟩,
    fun s a i hal hi => ⟨fun hout => ⟨?_, ?_, ?_⟩, fun hout => ⟨?_, ?_, ?_⟩⟩⟩
  · rintro fs w k rfl
    exact (exec_movStore s fs w k).trans (storing_misaligned h _ _)
  · rintro fd w k rfl
    exact (exec_movLoad s w k fd).trans (loading_misaligned h _)
  · exact fun c o hf ho => (exec_movFromCop_mem c hf ho).trans (storing_misaligned h _ _)
  · exact fun o c hf ho => (exec_movToCop_mem c hf ho).trans (loading_misaligned h _)
  · rintro c rfl
    exact (exec_push s c).trans (storing_misaligned h _ _)
  · rintro c rfl
    exact (exec_pop s c).trans (loading_misaligned h _)
  · rintro fs w k rfl
    exact (exec_movStore s fs w k).trans (storing_notAdmitted hal hi hout _ _)
  · exact fun c o hf ho => (exec_movFromCop_mem c hf ho).trans (storing_notAdmitted hal hi hout _ _)
  · rintro c rfl
    exact (exec_push s c).trans (storing_notAdmitted hal hi hout _ _)
  · rintro fd w k rfl
    exact (exec_movLoad s w k fd).trans (loading_notAdmitted hal hi hout _)
  · exact fun o c hf ho => (exec_movToCop_mem c hf ho).trans (loading_notAdmitted hal hi hout _)
  · rintro c rfl
    exact (exec_pop s c).trans (loading_notAdmitted hal hi hout _)

/-- Settles O4: the step is the instruction followed by the end test. -/
theorem stepRunsDecoded : Obligations.StepRunsDecoded := by
  intro s i hc hd
  have hstep := step_decoded hc hd
  refine ⟨fun t h => ?_, fun e h => ?_, fun r h => ?_⟩ <;> (rw [hstep, h]; rfl)

/-- Settles O5: nothing fetched decodes as a word cut short, and each refusal of the decoder stops the step by its
name. -/
theorem stepStops : Obligations.StepStops := by
  intro s
  refine ⟨fun hc => ?_, fun hc hn => ?_, step_undecoded, step_undecoded, step_undecoded, step_undecoded, step_undecoded,
    step_undecoded, step_undecoded⟩
  · rw [step, if_pos hc]
  · exact step_undecoded hc (congrArg decodeBytes (fetchBytes_undefined hn))

/-- Settles O50, by the modes of `operandAddr`; the offset register counts bytes and the literal long words. -/
theorem operandAddresses : Obligations.OperandAddresses := by
  intro s n b k
  have hscale : wbScale * s.readW b = s.readW b := BitVec.one_mul _
  refine ⟨rfl, rfl, rfl, rfl, rfl, rfl, ?_, ?_⟩
  · rw [operandAddr, hscale]
  · rw [offsetAddr, slit14_eq_ofInt]

end

section
/-! PROOFS. Decoder and encoder agree: a word is the encoder's exactly when each of its fields is, so every format has
one lemma that says which words of it decode, and to what; both directions of the round trip are read off these lemmas. -/

namespace Sys2Proof

/-! ## Fields of words -/

/-- A field of a field. -/
theorem extract_extract {k s l t m : Nat} (w : BitVec k) (h : t + m ≤ l) :
    (w.extractLsb' s l).extractLsb' t m = w.extractLsb' (s + t) m := by
  apply BitVec.eq_of_getLsbD_eq
  intro i hi
  have hl : t + i < l := by omega
  simp [BitVec.getLsbD_extractLsb', hl, Nat.add_assoc]

/-- A field is a concatenation exactly when its two parts are the concatenated ones. -/
theorem extract_eq_append_iff {k m n s : Nat} {w : BitVec k} {x : BitVec m} {y : BitVec n} :
    w.extractLsb' s (m + n) = x ++ y ↔ w.extractLsb' (s + n) m = x ∧ w.extractLsb' s n = y := by
  constructor
  · intro h
    constructor
    · rw [← extract_extract w (Nat.add_comm n m).le, h, extract_high _ _ le_rfl, Nat.sub_self, extract_all]
    · rw [← Nat.add_zero s, ← extract_extract w (by omega : 0 + n ≤ m + n), h, extract_low _ _ (Nat.zero_add n).le,
        extract_all]
  · rintro ⟨rfl, rfl⟩
    exact (BitVec.extractLsb'_append_extractLsb'_eq_extractLsb' rfl).symm

theorem eq_append_iff {m n : Nat} {w : BitVec (m + n)} {x : BitVec m} {y : BitVec n} :
    w = x ++ y ↔ w.extractLsb' n m = x ∧ w.extractLsb' 0 n = y := by
  have h := extract_eq_append_iff (w := w) (s := 0) (x := x) (y := y)
  rwa [extract_all, Nat.zero_add] at h

/-- Two PS words are the halves of the word they make up (R72). -/
theorem halves_append_eq (h l : PsWord) : halves (h ++ l : BitVec 32) = [h, l] := by
  rw [halves_eq, extract_high h l le_rfl, extract_low h l le_rfl, Nat.sub_self, extract_all, extract_all]

/-! ## `U` masks -/

/-- The mask of the `U` fields that `fs` lists, each by its lowest bit and its length. -/
def maskOf (fs : List (Nat × Nat)) : BitVec 32 :=
  fs.foldr (fun f m => (BitVec.allOnes f.2).setWidth 32 <<< f.1 ||| m) 0#32

theorem and_fieldMask_eq_zero_iff {w : BitVec 32} {s l : Nat} :
    w &&& (BitVec.allOnes l).setWidth 32 <<< s = 0#32 ↔ w.extractLsb' s l = 0#l := by
  constructor
  · intro h
    apply BitVec.eq_of_getLsbD_eq
    intro i hi
    have hbit := congrArg (·.getLsbD (s + i)) h
    simp only [BitVec.getLsbD_and, BitVec.getLsbD_shiftLeft, BitVec.getLsbD_setWidth, BitVec.getLsbD_allOnes,
      BitVec.getLsbD_zero] at hbit
    by_cases h32 : s + i < 32
    · have hi32 : i < 32 := by omega
      simpa [h32, hi, hi32] using hbit
    · simp [BitVec.getLsbD_of_ge w (s + i) (by omega)]
  · intro h
    apply BitVec.eq_of_getLsbD_eq
    intro i hi
    have hbit := congrArg (·.getLsbD (i - s)) h
    simp only [BitVec.getLsbD_extractLsb', BitVec.getLsbD_zero] at hbit
    by_cases hs : i < s
    · simp [hs]
    · have hsi : s + (i - s) = i := by omega
      by_cases hl : i - s < l
      · simp_all
      · simp [hl]

/-- The `U` bits of a word are 0 exactly when each of the fields they make up is (R108). -/
theorem and_maskOf_eq_zero_iff {w : BitVec 32} {fs : List (Nat × Nat)} :
    w &&& maskOf fs = 0#32 ↔ ∀ f ∈ fs, w.extractLsb' f.1 f.2 = 0#f.2 := by
  induction fs with
  | nil => simp [maskOf]
  | cons f fs ih =>
    rw [List.forall_mem_cons, ← ih, ← and_fieldMask_eq_zero_iff, ← BitVec.or_eq_zero_iff, ← BitVec.and_or_distrib_left]
    rfl

/-- The `U` fields of a cell's row: those of `d`, `s`, `b` and `e` that its format lacks, and the gaps of FPK and FPL
(R92 to R98). -/
def FpOp.blanks : FpOp → List (Nat × Nat)
  | .add | .sub | .max | .maxnm | .min | .minnm | .mac | .mul | .div | .flim => [(4, 3)]
  | .abs | .neg | .sqrt | .sin | .cos | .movF => [(7, 5), (4, 3)]
  | .cpq | .cps => [(17, 5), (4, 3)]
  | .tst => [(17, 5), (7, 5), (4, 3)]
  | .f2li | .f2di | .li2f | .di2f => [(7, 5)]
  | .movc => [(9, 8)]
  | .andLit | .iorLit => [(24, 1)]

theorem FpOp.uMask_eq (op : FpOp) : op.uMask = maskOf op.blanks := by cases op <;> rfl

/-! ## Words of each format -/

theorem eq_fpWord_iff {w : BitVec 32} {op : FpOp} {p : Prec} {d s b : FReg} {e : BitVec 3} :
    w = fpWord op p d s b e ↔ w.extractLsb' 25 7 = op.group ∧ w.extractLsb' 24 1 = p.bit ∧ w.extractLsb' 22 2 = 0#2 ∧
      w.extractLsb' 17 5 = d ∧ w.extractLsb' 12 5 = s ∧ w.extractLsb' 7 5 = b ∧ w.extractLsb' 4 3 = e ∧
      w.extractLsb' 0 4 = op.minor := by
  unfold fpWord
  refine (eq_append_iff (m := 7 + 1 + 2 + 5 + 5 + 5 + 3) (n := 4)).trans ?_
  iterate 6 rw [extract_eq_append_iff]
  simp only [and_assoc]

theorem eq_fpkWord_iff {w : BitVec 32} {op : FpOp} {p : Prec} {d : FReg} {index : BitVec 5} :
    w = fpkWord op p d index ↔ w.extractLsb' 25 7 = op.group ∧ w.extractLsb' 24 1 = p.bit ∧ w.extractLsb' 22 2 = 0#2 ∧
      w.extractLsb' 17 5 = d ∧ w.extractLsb' 9 8 = 0#8 ∧ w.extractLsb' 4 5 = index ∧ w.extractLsb' 0 4 = op.minor := by
  unfold fpkWord
  refine (eq_append_iff (m := 7 + 1 + 2 + 5 + 8 + 5) (n := 4)).trans ?_
  iterate 5 rw [extract_eq_append_iff]
  simp only [and_assoc]

theorem eq_fplWord_iff {w : BitVec 32} {op : FpOp} {r : SReg} {lit : BitVec 16} :
    w = fplWord op r lit ↔ w.extractLsb' 25 7 = op.group ∧ w.extractLsb' 24 1 = 0#1 ∧ w.extractLsb' 22 2 = 0#2 ∧
      w.extractLsb' 20 2 = r.code ∧ w.extractLsb' 4 16 = lit ∧ w.extractLsb' 0 4 = op.minor := by
  unfold fplWord
  refine (eq_append_iff (m := 7 + 1 + 2 + 2 + 16) (n := 4)).trans ?_
  iterate 4 rw [extract_eq_append_iff]
  simp only [and_assoc]

theorem eq_fbrWord_iff {w : BitVec 32} {c : BitVec 4} {n : BitVec 20} :
    w = fbrWord c n ↔ w.extractLsb' 28 4 = 0b1011#4 ∧ w.extractLsb' 24 4 = c ∧ w.extractLsb' 4 20 = n ∧
      w.extractLsb' 2 2 = 0#2 ∧ w.extractLsb' 0 2 = 0b10#2 := by
  unfold fbrWord
  refine (eq_append_iff (m := 4 + 4 + 20 + 2) (n := 2)).trans ?_
  iterate 3 rw [extract_eq_append_iff]
  simp only [and_assoc]

theorem eq_mvoWord_iff {w : BitVec 32} {g : BitVec 7} {f : FReg} {n : WReg} {k : BitVec 12} :
    w = mvoWord g f n k ↔ w.extractLsb' 25 7 = g ∧ w.extractLsb' 20 5 = f ∧ w.extractLsb' 16 4 = n ∧
      w.extractLsb' 4 12 = k ∧ w.extractLsb' 2 2 = 0#2 ∧ w.extractLsb' 0 2 = 0b01#2 := by
  unfold mvoWord
  refine (eq_append_iff (m := 7 + 5 + 4 + 12 + 2) (n := 2)).trans ?_
  iterate 4 rw [extract_eq_append_iff]
  simp only [and_assoc]

theorem eq_mvxOutWord_iff {w : BitVec 32} {c : CopSrc} {o : WOperand} :
    w = mvxOutWord c o ↔ w.extractLsb' 25 7 = mvxOutGroup ∧ w.extractLsb' 20 5 = c.code ∧ w.extractLsb' 16 4 = o.base ∧
      w.extractLsb' 13 3 = 0#3 ∧ w.extractLsb' 10 3 = o.mode ∧ w.extractLsb' 6 4 = o.offset ∧
      w.extractLsb' 5 1 = c.rBit ∧ w.extractLsb' 4 1 = 0#1 ∧ w.extractLsb' 2 2 = 0#2 ∧ w.extractLsb' 0 2 = 0b00#2 := by
  unfold mvxOutWord
  refine (eq_append_iff (m := 7 + 5 + 4 + 3 + 3 + 4 + 1 + 1 + 2) (n := 2)).trans ?_
  iterate 8 rw [extract_eq_append_iff]
  simp only [and_assoc]

theorem eq_mvxInWord_iff {w : BitVec 32} {o : WOperand} {c : CopDst} :
    w = mvxInWord o c ↔ w.extractLsb' 25 7 = mvxInGroup ∧ w.extractLsb' 20 5 = c.code ∧ w.extractLsb' 16 4 = o.base ∧
      w.extractLsb' 13 3 = o.mode ∧ w.extractLsb' 10 3 = 0#3 ∧ w.extractLsb' 6 4 = o.offset ∧
      w.extractLsb' 5 1 = c.rBit ∧ w.extractLsb' 4 1 = 0#1 ∧ w.extractLsb' 2 2 = 0#2 ∧ w.extractLsb' 0 2 = 0b00#2 := by
  unfold mvxInWord
  refine (eq_append_iff (m := 7 + 5 + 4 + 3 + 3 + 4 + 1 + 1 + 2) (n := 2)).trans ?_
  iterate 8 rw [extract_eq_append_iff]
  simp only [and_assoc]

theorem eq_mvlWord1_iff {w lit : BitVec 32} :
    w = mvlWord1 lit ↔ w.extractLsb' 25 7 = 0b1000001#7 ∧ w.extractLsb' 24 1 = 0#1 ∧
      w.extractLsb' 4 20 = lit.extractLsb' 0 20 ∧ w.extractLsb' 3 1 = 0#1 ∧ w.extractLsb' 0 3 = 0b001#3 := by
  unfold mvlWord1
  refine (eq_append_iff (m := 7 + 1 + 20 + 1) (n := 3)).trans ?_
  iterate 3 rw [extract_eq_append_iff]
  simp only [and_assoc]

theorem eq_mvlWord2_iff {w : BitVec 32} {hi : BitVec 12} {d : LitDst} :
    w = mvlWord2 hi d ↔ w.extractLsb' 25 7 = 0b1000001#7 ∧ w.extractLsb' 20 5 = d.code ∧ w.extractLsb' 19 1 = 0#1 ∧
      w.extractLsb' 13 6 = hi.extractLsb' 6 6 ∧ w.extractLsb' 10 3 = 0#3 ∧ w.extractLsb' 4 6 = hi.extractLsb' 0 6 ∧
      w.extractLsb' 3 1 = d.rBit ∧ w.extractLsb' 0 3 = 0b101#3 := by
  unfold mvlWord2
  refine (eq_append_iff (m := 7 + 5 + 1 + 6 + 3 + 6 + 1) (n := 3)).trans ?_
  iterate 6 rw [extract_eq_append_iff]
  simp only [and_assoc]

theorem eq_stkWord_iff {h : PsWord} {g : BitVec 7} {c : BitVec 5} {r : BitVec 1} :
    h = stkWord g c r ↔ h.extractLsb' 9 7 = g ∧ h.extractLsb' 4 5 = c ∧ h.extractLsb' 2 2 = 0#2 ∧
      h.extractLsb' 1 1 = r ∧ h.extractLsb' 0 1 = 0#1 := by
  unfold stkWord
  refine (eq_append_iff (m := 7 + 5 + 2 + 1) (n := 1)).trans ?_
  iterate 3 rw [extract_eq_append_iff]
  simp only [and_assoc]

/-! ## Field codes -/

@[simp] theorem bit_precOfBit (b : BitVec 1) : (precOfBit b).bit = b := by revert b; decide

@[simp] theorem bit_fieldP (w : BitVec 32) : (fieldP w).bit = w.extractLsb' 24 1 := bit_precOfBit _

/-- A bit that is not `R_SPECIAL` is its complement. -/
theorem eq_not_rSpecial {r : BitVec 1} (h : r ≠ rSpecial) : r = ~~~rSpecial := by revert r; decide

theorem rndOfCode_eq_ok_iff {e : BitVec 3} {r : RndSel} : rndOfCode e = .ok r ↔ e = r.code := by
  refine ⟨fun h => ?_, fun h => h ▸ rndOfCode_code r⟩
  unfold rndOfCode at h
  split_ifs at h <;> cases h <;> assumption

theorem sregOfCode_eq_ok_iff {c : BitVec 2} {r : SReg} : sregOfCode c = .ok r ↔ c = r.code := by
  refine ⟨fun h => ?_, fun h => h ▸ sregOfCode_code r⟩
  unfold sregOfCode at h
  split_ifs at h <;> cases h <;> assumption

theorem copSrcOf_eq_ok_iff {r : BitVec 1} {n : BitVec 5} {c : CopSrc} :
    copSrcOf r n = .ok c ↔ r = c.rBit ∧ n = c.code := by
  refine ⟨fun h => ?_, fun ⟨hr, hn⟩ => hr ▸ hn ▸ copSrcOf_code c⟩
  unfold copSrcOf at h
  split_ifs at h with hr
  · cases h
    exact ⟨eq_not_rSpecial hr, rfl⟩
  all_goals cases h; exact ⟨not_not.mp hr, ‹_›⟩

theorem copDstOf_eq_ok_iff {r : BitVec 1} {n : BitVec 5} {c : CopDst} :
    copDstOf r n = .ok c ↔ r = c.rBit ∧ n = c.code := by
  refine ⟨fun h => ?_, fun ⟨hr, hn⟩ => hr ▸ hn ▸ copDstOf_code c⟩
  unfold copDstOf at h
  split_ifs at h with hr
  · cases h
    exact ⟨eq_not_rSpecial hr, rfl⟩
  all_goals cases h; exact ⟨not_not.mp hr, ‹_›⟩

theorem litDstOf_eq_ok_iff {r : BitVec 1} {n : BitVec 5} {c : LitDst} :
    litDstOf r n = .ok c ↔ r = c.rBit ∧ n = c.code := by
  refine ⟨fun h => ?_, fun ⟨hr, hn⟩ => hr ▸ hn ▸ litDstOf_code c⟩
  unfold litDstOf at h
  split_ifs at h with hr
  · cases h
    exact ⟨eq_not_rSpecial hr, rfl⟩
  all_goals cases h; exact ⟨not_not.mp hr, ‹_›⟩

theorem wOperandOf_eq_ok_iff {m : BitVec 3} {n b : WReg} {o : WOperand} :
    wOperandOf m n b = .ok o ↔ o.formError = none ∧ m = o.mode ∧ n = o.base ∧ b = o.offset := by
  refine ⟨fun h => ?_, fun ⟨hf, hm, hn, hb⟩ => hm ▸ hn ▸ hb ▸ wOperandOf_code hf⟩
  unfold wOperandOf at h
  split_ifs at h with hm hb hb
  · cases h
    exact ⟨if_neg hb, hm, rfl, rfl⟩
  all_goals cases h; exact ⟨rfl, ‹_›, rfl, not_not.mp hb⟩

/-! ## The parts of the decoder -/

theorem checkForm_eq_ok_iff {i j : Instr} : checkForm i = .ok j ↔ i = j ∧ j.wellFormed = true := by
  unfold checkForm Instr.wellFormed
  constructor
  · intro h
    split at h <;> cases h
    exact ⟨rfl, by simpa⟩
  · rintro ⟨rfl, h⟩
    rw [Option.isNone_iff_eq_none.mp h]

/-- The checks of R116 (4) pass. -/
theorem checked_eq_ok_iff {zz : BitVec 2} {u : BitVec 32} {term : Decoded} {i : Instr} :
    checked zz u term = .ok i ↔ zz = 0#2 ∧ u = 0#32 ∧ term = .ok i ∧ i.wellFormed = true := by
  unfold checked
  split_ifs with hz hu
  · simp [hz]
  · simp [hu]
  · cases term with
    | error e => simp
    | ok j => simp_all [checkForm_eq_ok_iff]

theorem singleOnly_eq_ok_iff {w : BitVec 32} {i j : Instr} : singleOnly w i = .ok j ↔ fieldP w = .single ∧ i = j := by
  unfold singleOnly
  split <;> simp_all

theorem conversion_eq_ok_iff {w : BitVec 32} {mk : RndSel → Instr} {i : Instr} :
    conversion w mk = .ok i ↔ ∃ r : RndSel, w.extractLsb' 4 3 = r.code ∧ mk r = i := by
  simp only [conversion, ← rndOfCode_eq_ok_iff]
  split <;> simp_all

theorem specialLit_eq_ok_iff {w : BitVec 32} {mk : BitVec 16 → SReg → Instr} {i : Instr} :
    specialLit w mk = .ok i ↔ ∃ r : SReg, w.extractLsb' 20 2 = r.code ∧ mk (w.extractLsb' 4 16) r = i := by
  simp only [specialLit, ← sregOfCode_eq_ok_iff]
  split <;> simp_all

theorem fpOpOf_eq_some_iff {g : BitVec 7} {m : BitVec 4} {op : FpOp} :
    fpOpOf g m = some op ↔ g = op.group ∧ m = op.minor := by
  refine ⟨fun h => ?_, fun ⟨hg, hm⟩ => hg ▸ hm ▸ fpOpOf_code op⟩
  have hcell := List.find?_some h
  simp only [Bool.and_eq_true, beq_iff_eq] at hcell
  exact ⟨hcell.1.symm, hcell.2.symm⟩

/-- The FP formats: the cell, `zz`, the `U` fields and the term (R116 (4)). -/
theorem decodeFp_eq_ok_iff {w : BitVec 32} {i : Instr} :
    decodeFp w = .ok i ↔ ∃ op : FpOp, (w.extractLsb' 25 7 = op.group ∧ w.extractLsb' 0 4 = op.minor) ∧
      w.extractLsb' 22 2 = 0#2 ∧ (∀ f ∈ op.blanks, w.extractLsb' f.1 f.2 = 0#f.2) ∧ fpTerm op w = .ok i ∧
      i.wellFormed = true := by
  simp only [decodeFp, ← fpOpOf_eq_some_iff, ← and_maskOf_eq_zero_iff, ← FpOp.uMask_eq, ← checked_eq_ok_iff]
  split <;> simp_all

/-- Format FBR (R99). -/
theorem decodeFbr_eq_ok_iff {w : BitVec 32} {i : Instr} (hl : w.extractLsb' 0 2 = 0b10#2)
    (hg : w.extractLsb' 28 4 = 0b1011#4) :
    decodeFbr w = .ok i ↔ ∃ c n, w = fbrWord c n ∧ i = .fbra c n := by
  simp only [decodeFbr, checked_eq_ok_iff, eq_fbrWord_iff]
  constructor
  · rintro ⟨hz, -, hi, -⟩
    cases hi
    exact ⟨_, _, ⟨hg, rfl, rfl, hz, hl⟩, rfl⟩
  · rintro ⟨c, n, ⟨-, rfl, rfl, hz, -⟩, rfl⟩
    exact ⟨hz, trivial, rfl, rfl⟩

/-- Format MVO, the store (R100). -/
theorem decodeMvo_store_iff {w : BitVec 32} {i : Instr} (hl : w.extractLsb' 0 2 = 0b01#2)
    (hg : w.extractLsb' 25 7 = 0b1000011#7) :
    decodeMvo w = .ok i ↔ ∃ f n k, w = mvoWord 0b1000011#7 f n k ∧ i = .movStore f n k := by
  simp only [decodeMvo, if_pos hg, checked_eq_ok_iff, eq_mvoWord_iff]
  constructor
  · rintro ⟨hz, -, hi, -⟩
    cases hi
    exact ⟨_, _, _, ⟨hg, rfl, rfl, rfl, hz, hl⟩, rfl⟩
  · rintro ⟨f, n, k, ⟨-, rfl, rfl, rfl, hz, -⟩, rfl⟩
    exact ⟨hz, trivial, rfl, rfl⟩

/-- Format MVO, the load (R100). -/
theorem decodeMvo_load_iff {w : BitVec 32} {i : Instr} (hl : w.extractLsb' 0 2 = 0b01#2)
    (hg : w.extractLsb' 25 7 = 0b1000010#7) :
    decodeMvo w = .ok i ↔ ∃ f n k, w = mvoWord 0b1000010#7 f n k ∧ i = .movLoad n k f := by
  have hstore : w.extractLsb' 25 7 ≠ 0b1000011#7 := by rw [hg]; decide
  simp only [decodeMvo, if_neg hstore, if_pos hg, checked_eq_ok_iff, eq_mvoWord_iff]
  constructor
  · rintro ⟨hz, -, hi, -⟩
    cases hi
    exact ⟨_, _, _, ⟨hg, rfl, rfl, rfl, hz, hl⟩, rfl⟩
  · rintro ⟨f, n, k, ⟨-, rfl, rfl, rfl, hz, -⟩, rfl⟩
    exact ⟨hz, trivial, rfl, rfl⟩

/-- The `U` fields of the second word of format MVL (R102). -/
theorem mvlMask_eq : 0x00081C00#32 = maskOf [(19, 1), (10, 3)] := rfl

/-- The second word of format MVL met on its own (R115 (a)): no other word whose low bits are those of format MVO stands
for anything. -/
theorem decodeMvo_word2_iff {w : BitVec 32} {i : Instr} (hstore : w.extractLsb' 25 7 ≠ 0b1000011#7)
    (hload : w.extractLsb' 25 7 ≠ 0b1000010#7) :
    decodeMvo w = .ok i ↔ ∃ hi d, w = mvlWord2 hi d ∧ i = .movLitWord2 hi d := by
  simp only [decodeMvo, if_neg hstore, if_neg hload, mvlMask_eq, and_maskOf_eq_zero_iff, List.forall_mem_cons,
    eq_mvlWord2_iff]
  constructor
  · intro h
    split_ifs at h with hword
    obtain ⟨hg, hl, h19, h10, -⟩ := hword
    split at h
    · cases h
    rename_i d hd
    cases h
    obtain ⟨hr, hc⟩ := litDstOf_eq_ok_iff.mp hd
    obtain ⟨h13, h4⟩ := (eq_append_iff (m := 6) (n := 6)).mp (Eq.refl (w.extractLsb' 13 6 ++ w.extractLsb' 4 6))
    exact ⟨_, d, ⟨hg, hc, h19, h13.symm, h10, h4.symm, hr, hl⟩, rfl⟩
  · rintro ⟨hi, d, ⟨hg, hc, h19, h13, h10, h4, hr, hl⟩, rfl⟩
    have hhi : w.extractLsb' 13 6 ++ w.extractLsb' 4 6 = hi := (eq_append_iff.mpr ⟨h13.symm, h4.symm⟩).symm
    rw [if_pos ⟨hg, hl, h19, h10, List.forall_mem_nil _⟩, litDstOf_eq_ok_iff.mpr ⟨hr, hc⟩, hhi]

theorem movFromCopTerm_eq_ok_iff {w : BitVec 32} {i : Instr} :
    movFromCopTerm w = .ok i ↔ ∃ c o, copSrcOf (w.extractLsb' 5 1) (w.extractLsb' 20 5) = .ok c ∧
      wOperandOf (w.extractLsb' 10 3) (w.extractLsb' 16 4) (w.extractLsb' 6 4) = .ok o ∧ .movFromCop c o = i := by
  unfold movFromCopTerm
  cases copSrcOf (w.extractLsb' 5 1) (w.extractLsb' 20 5) <;>
    cases wOperandOf (w.extractLsb' 10 3) (w.extractLsb' 16 4) (w.extractLsb' 6 4) <;> simp

theorem movToCopTerm_eq_ok_iff {w : BitVec 32} {i : Instr} :
    movToCopTerm w = .ok i ↔ ∃ c o, copDstOf (w.extractLsb' 5 1) (w.extractLsb' 20 5) = .ok c ∧
      wOperandOf (w.extractLsb' 13 3) (w.extractLsb' 16 4) (w.extractLsb' 6 4) = .ok o ∧ .movToCop o c = i := by
  unfold movToCopTerm
  cases copDstOf (w.extractLsb' 5 1) (w.extractLsb' 20 5) <;>
    cases wOperandOf (w.extractLsb' 13 3) (w.extractLsb' 16 4) (w.extractLsb' 6 4) <;> simp

theorem mvxOutMask_eq : 0x0000E010#32 = maskOf [(13, 3), (4, 1)] := rfl

theorem mvxInMask_eq : 0x00001C10#32 = maskOf [(10, 3), (4, 1)] := rfl

/-- Format MVX from coprocessor (R101). -/
theorem decodeMvx_out_iff {w : BitVec 32} {i : Instr} (hl : w.extractLsb' 0 2 = 0b00#2)
    (hg : w.extractLsb' 25 7 = mvxOutGroup) :
    decodeMvx w = .ok i ↔ ∃ c o, o.formError = none ∧ w = mvxOutWord c o ∧ i = .movFromCop c o := by
  simp only [decodeMvx, if_pos hg, checked_eq_ok_iff, movFromCopTerm_eq_ok_iff, copSrcOf_eq_ok_iff,
    wOperandOf_eq_ok_iff, mvxOutMask_eq, and_maskOf_eq_zero_iff, List.forall_mem_cons, eq_mvxOutWord_iff]
  constructor
  · rintro ⟨hz, ⟨h13, h4, -⟩, ⟨c, o, ⟨hr, hc⟩, ⟨hf, hm, hn, hb⟩, rfl⟩, -⟩
    exact ⟨c, o, hf, ⟨hg, hc, hn, h13, hm, hb, hr, h4, hz, hl⟩, rfl⟩
  · rintro ⟨c, o, hf, ⟨-, hc, hn, h13, hm, hb, hr, h4, hz, -⟩, rfl⟩
    exact ⟨hz, ⟨h13, h4, List.forall_mem_nil _⟩, ⟨c, o, ⟨hr, hc⟩, ⟨hf, hm, hn, hb⟩, rfl⟩,
      Option.isNone_iff_eq_none.mpr hf⟩

/-- Format MVX to coprocessor (R101). -/
theorem decodeMvx_in_iff {w : BitVec 32} {i : Instr} (hl : w.extractLsb' 0 2 = 0b00#2)
    (hg : w.extractLsb' 25 7 = mvxInGroup) :
    decodeMvx w = .ok i ↔ ∃ c o, o.formError = none ∧ w = mvxInWord o c ∧ i = .movToCop o c := by
  have hout : w.extractLsb' 25 7 ≠ mvxOutGroup := by rw [hg]; decide
  simp only [decodeMvx, if_neg hout, if_pos hg, checked_eq_ok_iff, movToCopTerm_eq_ok_iff, copDstOf_eq_ok_iff,
    wOperandOf_eq_ok_iff, mvxInMask_eq, and_maskOf_eq_zero_iff, List.forall_mem_cons, eq_mvxInWord_iff]
  constructor
  · rintro ⟨hz, ⟨h10, h4, -⟩, ⟨c, o, ⟨hr, hc⟩, ⟨hf, hm, hn, hb⟩, rfl⟩, -⟩
    exact ⟨c, o, hf, ⟨hg, hc, hn, hm, h10, hb, hr, h4, hz, hl⟩, rfl⟩
  · rintro ⟨c, o, hf, ⟨-, hc, hn, hm, h10, hb, hr, h4, hz, -⟩, rfl⟩
    exact ⟨hz, ⟨h10, h4, List.forall_mem_nil _⟩, ⟨c, o, ⟨hr, hc⟩, ⟨hf, hm, hn, hb⟩, rfl⟩,
      Option.isNone_iff_eq_none.mpr hf⟩

theorem isMvlFirst_iff {w : BitVec 32} :
    isMvlFirst w = true ↔ w.extractLsb' 25 7 = 0b1000001#7 ∧ w.extractLsb' 0 3 = 0b001#3 := by
  simp [isMvlFirst]

/-- The split `zz` of format MVL (R102). -/
theorem append_eq_zero_iff (a b : BitVec 1) : a ++ b = 0#2 ↔ a = 0#1 ∧ b = 0#1 := by
  revert a b
  decide

/-- Format MVL (R102, R106): the literal's three parts and its destination. -/
theorem decodeMvl_eq_ok_iff {w w2 : BitVec 32} {i : Instr} (hfirst : isMvlFirst w = true) :
    decodeMvl w w2 = .ok i ↔
      ∃ lit d, w = mvlWord1 lit ∧ w2 = mvlWord2 (lit.extractLsb' 20 12) d ∧ i = .movLit lit d := by
  obtain ⟨hg, hl⟩ := isMvlFirst_iff.mp hfirst
  simp only [decodeMvl, eq_mvlWord1_iff, eq_mvlWord2_iff]
  constructor
  · intro h
    split_ifs at h with hword
    obtain ⟨hg2, hl2⟩ := hword
    simp only [checked_eq_ok_iff, append_eq_zero_iff, mvlMask_eq, and_maskOf_eq_zero_iff, List.forall_mem_cons] at h
    obtain ⟨⟨h24, h3⟩, ⟨h19, h10, -⟩, hi, -⟩ := h
    split at hi
    · cases hi
    rename_i d hd
    cases hi
    obtain ⟨hr, hc⟩ := litDstOf_eq_ok_iff.mp hd
    obtain ⟨hhi, hlo⟩ := eq_append_iff.mp (rfl : w2.extractLsb' 13 6 ++ w2.extractLsb' 4 6 ++ w.extractLsb' 4 20 = _)
    obtain ⟨h13, h4⟩ := eq_append_iff.mp hhi
    exact ⟨_, d, ⟨hg, h24, hlo.symm, h3, hl⟩, ⟨hg2, hc, h19, h13.symm, h10, h4.symm, hr, hl2⟩, rfl⟩
  · rintro ⟨lit, d, ⟨-, h24, hlo, h3, -⟩, ⟨hg2, hc, h19, h13, h10, h4, hr, hl2⟩, rfl⟩
    have hlit : w2.extractLsb' 13 6 ++ w2.extractLsb' 4 6 ++ w.extractLsb' 4 20 = lit :=
      (eq_append_iff.mpr ⟨eq_append_iff.mpr ⟨h13.symm, h4.symm⟩, hlo.symm⟩).symm
    simp only [if_pos (And.intro hg2 hl2), checked_eq_ok_iff, append_eq_zero_iff, mvlMask_eq, and_maskOf_eq_zero_iff,
      List.forall_mem_cons, litDstOf_eq_ok_iff.mpr ⟨hr, hc⟩, hlit]
    exact ⟨⟨h24, h3⟩, ⟨h19, h10, List.forall_mem_nil _⟩, trivial, rfl⟩

/-- The `U` bit of a 16-bit word, as `decode16` widens it (R103). -/
theorem and_one_setWidth_eq_zero_iff {h : PsWord} :
    (h &&& 0x0001#16).setWidth 32 = 0#32 ↔ h.extractLsb' 0 1 = 0#1 := by
  simp only [← BitVec.toNat_inj, BitVec.toNat_setWidth, BitVec.toNat_and, BitVec.toNat_ofNat, BitVec.extractLsb'_toNat]
  norm_num [Nat.and_one_is_mod]
  omega

/-- Format STK, PUSH (R103). -/
theorem decode16_push_iff {h : PsWord} {i : Instr} (hg : h.extractLsb' 9 7 = 0b0010011#7) :
    decode16 h = .ok i ↔ ∃ c : CopSrc, h = stkWord 0b0010011#7 c.code c.rBit ∧ i = .push c := by
  simp only [decode16, if_pos hg, checked_eq_ok_iff, and_one_setWidth_eq_zero_iff, eq_stkWord_iff]
  constructor
  · rintro ⟨hz, hu, hi, -⟩
    split at hi
    · cases hi
    rename_i c hcop
    cases hi
    obtain ⟨hr, hc⟩ := copSrcOf_eq_ok_iff.mp hcop
    exact ⟨c, ⟨hg, hc, hz, hr, hu⟩, rfl⟩
  · rintro ⟨c, ⟨-, hc, hz, hr, hu⟩, rfl⟩
    rw [copSrcOf_eq_ok_iff.mpr ⟨hr, hc⟩]
    exact ⟨hz, hu, rfl, rfl⟩

/-- Format STK, POP (R103). -/
theorem decode16_pop_iff {h : PsWord} {i : Instr} (hg : h.extractLsb' 9 7 = 0b0010111#7) :
    decode16 h = .ok i ↔ ∃ c : CopDst, h = stkWord 0b0010111#7 c.code c.rBit ∧ i = .pop c := by
  have hpush : h.extractLsb' 9 7 ≠ 0b0010011#7 := by rw [hg]; decide
  simp only [decode16, if_neg hpush, if_pos hg, checked_eq_ok_iff, and_one_setWidth_eq_zero_iff, eq_stkWord_iff]
  constructor
  · rintro ⟨hz, hu, hi, -⟩
    split at hi
    · cases hi
    rename_i c hcop
    cases hi
    obtain ⟨hr, hc⟩ := copDstOf_eq_ok_iff.mp hcop
    exact ⟨c, ⟨hg, hc, hz, hr, hu⟩, rfl⟩
  · rintro ⟨c, ⟨-, hc, hz, hr, hu⟩, rfl⟩
    rw [copDstOf_eq_ok_iff.mpr ⟨hr, hc⟩]
    exact ⟨hz, hu, rfl, rfl⟩

/-! ## The length of a word and its format -/

/-- A field of a known field. -/
theorem extract_of_extract {k s l : Nat} {w : BitVec k} {x : BitVec l} (hx : w.extractLsb' s l = x) (t m : Nat)
    (h : t + m ≤ l) : w.extractLsb' (s + t) m = x.extractLsb' t m :=
  hx ▸ (extract_extract w h).symm

/-- A 32-bit instruction other than the first word of format MVL is one word (R91, R116). -/
theorem decode_halves {w : BitVec 32} (htop : w.extractLsb' 31 1 = s32) (hfirst : isMvlFirst w = false)
    (rest : List PsWord) : decode (halves w ++ rest) = decode32 w := by
  simp [decode, halves_top, htop, halves_join, hfirst]

/-- The first word of format MVL takes a second one (R102, R116). -/
theorem decode_halves_mvl {w : BitVec 32} (htop : w.extractLsb' 31 1 = s32) (hfirst : isMvlFirst w = true)
    (w2 : BitVec 32) (rest : List PsWord) : decode (halves w ++ halves w2 ++ rest) = decodeMvl w w2 := by
  simp [decode, halves_top, htop, halves_join, hfirst]

/-- A 16-bit instruction is one PS word (R91, R116). -/
theorem decode_cons {h : PsWord} (htop : h.extractLsb' 15 1 ≠ s32) (rest : List PsWord) :
    decode (h :: rest) = decode16 h := by
  simp only [decode, if_pos htop]

/-- What the decoder answers, it read from one PS word, from two, or from the four of format MVL (R91, R116). -/
theorem decode_eq_ok {ws : List PsWord} {i : Instr} (h : decode ws = .ok i) :
    (∃ x rest, ws = x :: rest ∧ decode16 x = .ok i) ∨
    (∃ w rest, ws = halves w ++ rest ∧ decode32 w = .ok i) ∨
    ∃ w w2 rest, ws = halves w ++ halves w2 ++ rest ∧ isMvlFirst w = true ∧ decodeMvl w w2 = .ok i := by
  unfold decode at h
  split at h
  · cases h
  rename_i x rest
  split_ifs at h with htop
  · exact .inl ⟨x, rest, rfl, h⟩
  split at h
  · cases h
  rename_i l rest'
  split_ifs at h with hfirst
  · split at h
    · rename_i h2 l2 rest2
      refine .inr (.inr ⟨x ++ l, h2 ++ l2, rest2, ?_, hfirst, h⟩)
      rw [halves_append_eq, halves_append_eq]
      rfl
    · cases h
    · cases h
  · refine .inr (.inl ⟨x ++ l, rest', ?_, h⟩)
    rw [halves_append_eq]
    rfl

/-- Only a word with the low bits of the formats MVO and MVL is the first one of MVL. -/
theorem isMvlFirst_eq_false {w : BitVec 32} (hl : w.extractLsb' 0 2 ≠ 0b01#2) : isMvlFirst w = false :=
  Bool.eq_false_iff.mpr fun h => hl (extract_of_extract (isMvlFirst_iff.mp h).2 0 2 (by decide))

theorem isMvlFirst_eq_false_of_group {w : BitVec 32} (hg : w.extractLsb' 25 7 ≠ 0b1000001#7) : isMvlFirst w = false :=
  Bool.eq_false_iff.mpr fun h => hg (isMvlFirst_iff.mp h).1

theorem decode32_fbr {w : BitVec 32} (hl : w.extractLsb' 0 2 = 0b10#2) (hg : w.extractLsb' 28 4 = 0b1011#4) :
    decode32 w = decodeFbr w := by
  simp only [decode32, if_pos hl, if_pos hg]

theorem decode32_fp {w : BitVec 32} (hl : w.extractLsb' 0 2 = 0b10#2) (hg : w.extractLsb' 28 4 ≠ 0b1011#4) :
    decode32 w = decodeFp w := by
  simp only [decode32, if_pos hl, if_neg hg]

theorem decode32_mvo {w : BitVec 32} (hl : w.extractLsb' 0 2 = 0b01#2) : decode32 w = decodeMvo w := by
  simp [decode32, hl]

theorem decode32_mvx {w : BitVec 32} (hl : w.extractLsb' 0 2 = 0b00#2) : decode32 w = decodeMvx w := by
  simp [decode32, hl]

/-! ## From the words to the instruction -/

/-- The words of `i`, which is well formed, are the halves of `w`. -/
def EncodedBy (i : Instr) (w : BitVec 32) : Prop := i.wellFormed = true ∧ encode i = halves w

/-- The word of a cell is the encoding of its term: the fields of its format, and every `U` bit 0. -/
theorem encode_of_fpTerm {op : FpOp} {w : BitVec 32} {i : Instr} (hg : w.extractLsb' 25 7 = op.group)
    (hm : w.extractLsb' 0 4 = op.minor) (hz : w.extractLsb' 22 2 = 0#2)
    (hu : ∀ f ∈ op.blanks, w.extractLsb' f.1 f.2 = 0#f.2) (ht : fpTerm op w = .ok i) : encode i = halves w := by
  have hp : w.extractLsb' 24 1 = (fieldP w).bit := (bit_fieldP w).symm
  cases op with
  | add | sub | max | maxnm | min | minnm | mac | mul | div | flim =>
    cases ht
    have he : w.extractLsb' 4 3 = 0#3 := hu (4, 3) (by decide)
    exact congrArg halves (eq_fpWord_iff.mpr ⟨hg, hp, hz, rfl, rfl, rfl, he, hm⟩).symm
  | movF | abs | neg | sqrt =>
    cases ht
    have hb : w.extractLsb' 7 5 = 0#5 := hu (7, 5) (by decide)
    have he : w.extractLsb' 4 3 = 0#3 := hu (4, 3) (by decide)
    exact congrArg halves (eq_fpWord_iff.mpr ⟨hg, hp, hz, rfl, rfl, hb, he, hm⟩).symm
  | sin | cos =>
    obtain ⟨hsingle, rfl⟩ := singleOnly_eq_ok_iff.mp ht
    have hb : w.extractLsb' 7 5 = 0#5 := hu (7, 5) (by decide)
    have he : w.extractLsb' 4 3 = 0#3 := hu (4, 3) (by decide)
    exact congrArg halves (eq_fpWord_iff.mpr ⟨hg, hsingle ▸ hp, hz, rfl, rfl, hb, he, hm⟩).symm
  | cpq | cps =>
    cases ht
    have hd : w.extractLsb' 17 5 = 0#5 := hu (17, 5) (by decide)
    have he : w.extractLsb' 4 3 = 0#3 := hu (4, 3) (by decide)
    exact congrArg halves (eq_fpWord_iff.mpr ⟨hg, hp, hz, hd, rfl, rfl, he, hm⟩).symm
  | tst =>
    cases ht
    have hd : w.extractLsb' 17 5 = 0#5 := hu (17, 5) (by decide)
    have hb : w.extractLsb' 7 5 = 0#5 := hu (7, 5) (by decide)
    have he : w.extractLsb' 4 3 = 0#3 := hu (4, 3) (by decide)
    exact congrArg halves (eq_fpWord_iff.mpr ⟨hg, hp, hz, hd, rfl, hb, he, hm⟩).symm
  | movc =>
    cases ht
    have hgap : w.extractLsb' 9 8 = 0#8 := hu (9, 8) (by decide)
    exact congrArg halves (eq_fpkWord_iff.mpr ⟨hg, hp, hz, rfl, hgap, rfl, hm⟩).symm
  | f2li | f2di | li2f | di2f =>
    obtain ⟨r, he, rfl⟩ := conversion_eq_ok_iff.mp ht
    have hb : w.extractLsb' 7 5 = 0#5 := hu (7, 5) (by decide)
    exact congrArg halves (eq_fpWord_iff.mpr ⟨hg, hp, hz, rfl, rfl, hb, he, hm⟩).symm
  | andLit | iorLit =>
    obtain ⟨r, hr, rfl⟩ := specialLit_eq_ok_iff.mp ht
    have htop : w.extractLsb' 24 1 = 0#1 := hu (24, 1) (by decide)
    exact congrArg halves (eq_fplWord_iff.mpr ⟨hg, htop, hz, hr, rfl, hm⟩).symm

theorem encodedBy_of_decodeMvo {w : BitVec 32} {i : Instr} (hl : w.extractLsb' 0 2 = 0b01#2)
    (h : decodeMvo w = .ok i) : EncodedBy i w := by
  by_cases hstore : w.extractLsb' 25 7 = 0b1000011#7
  · obtain ⟨f, n, k, rfl, rfl⟩ := (decodeMvo_store_iff hl hstore).mp h
    exact ⟨rfl, rfl⟩
  by_cases hload : w.extractLsb' 25 7 = 0b1000010#7
  · obtain ⟨f, n, k, rfl, rfl⟩ := (decodeMvo_load_iff hl hload).mp h
    exact ⟨rfl, rfl⟩
  obtain ⟨hi, d, rfl, rfl⟩ := (decodeMvo_word2_iff hstore hload).mp h
  exact ⟨rfl, rfl⟩

theorem encodedBy_of_decodeMvx {w : BitVec 32} {i : Instr} (hl : w.extractLsb' 0 2 = 0b00#2)
    (h : decodeMvx w = .ok i) : EncodedBy i w := by
  by_cases hout : w.extractLsb' 25 7 = mvxOutGroup
  · obtain ⟨c, o, hf, rfl, rfl⟩ := (decodeMvx_out_iff hl hout).mp h
    exact ⟨Option.isNone_iff_eq_none.mpr hf, rfl⟩
  by_cases hin : w.extractLsb' 25 7 = mvxInGroup
  · obtain ⟨c, o, hf, rfl, rfl⟩ := (decodeMvx_in_iff hl hin).mp h
    exact ⟨Option.isNone_iff_eq_none.mpr hf, rfl⟩
  simp [decodeMvx, hout, hin] at h

/-- A 32-bit word that decodes is the encoding of its instruction. -/
theorem encodedBy_of_decode32 {w : BitVec 32} {i : Instr} (h : decode32 w = .ok i) : EncodedBy i w := by
  unfold decode32 at h
  split_ifs at h with hfp hfbr hmvo hmvx
  · obtain ⟨c, n, rfl, rfl⟩ := (decodeFbr_eq_ok_iff hfp hfbr).mp h
    exact ⟨rfl, rfl⟩
  · obtain ⟨op, ⟨hg, hm⟩, hz, hu, ht, hi⟩ := decodeFp_eq_ok_iff.mp h
    exact ⟨hi, encode_of_fpTerm hg hm hz hu ht⟩
  · exact encodedBy_of_decodeMvo hmvo h
  · exact encodedBy_of_decodeMvx hmvx h

/-- A 16-bit word that decodes is the encoding of its instruction. -/
theorem encode_of_decode16 {x : PsWord} {i : Instr} (h : decode16 x = .ok i) :
    i.wellFormed = true ∧ encode i = [x] := by
  by_cases hpush : x.extractLsb' 9 7 = 0b0010011#7
  · obtain ⟨c, rfl, rfl⟩ := (decode16_push_iff hpush).mp h
    exact ⟨rfl, rfl⟩
  by_cases hpop : x.extractLsb' 9 7 = 0b0010111#7
  · obtain ⟨c, rfl, rfl⟩ := (decode16_pop_iff hpop).mp h
    exact ⟨rfl, rfl⟩
  simp only [decode16, if_neg hpush, if_neg hpop] at h
  split_ifs at h

/-! ## From the instruction to the words -/

/-- The word of a cell: its fields tell the cell, and its term is what the decoder answers (R92 to R98). -/
theorem decode_fp {op : FpOp} {w : BitVec 32} {i : Instr} (hg : w.extractLsb' 25 7 = op.group)
    (hm : w.extractLsb' 0 4 = op.minor) (hz : w.extractLsb' 22 2 = 0#2)
    (hu : ∀ f ∈ op.blanks, w.extractLsb' f.1 f.2 = 0#f.2) (ht : fpTerm op w = .ok i) (hi : i.wellFormed = true)
    (rest : List PsWord) : decode (halves w ++ rest) = .ok i := by
  have htop : w.extractLsb' 31 1 = s32 := (extract_of_extract hg 6 1 (by decide)).trans (by cases op <;> rfl)
  have hnotFbr : w.extractLsb' 28 4 ≠ 0b1011#4 := by
    rw [show w.extractLsb' 28 4 = _ from extract_of_extract hg 3 4 (by decide)]
    cases op <;> decide
  have hl : w.extractLsb' 0 2 = 0b10#2 := (extract_of_extract hm 0 2 (by decide)).trans (by cases op <;> rfl)
  rw [decode_halves htop (isMvlFirst_eq_false (by rw [hl]; decide)), decode32_fp hl hnotFbr]
  exact decodeFp_eq_ok_iff.mpr ⟨op, ⟨hg, hm⟩, hz, hu, ht, hi⟩

section
variable (op : FpOp) (p : Prec) (d s b : FReg) (e : BitVec 3)

@[simp] theorem fieldP_fpWord : fieldP (fpWord op p d s b e) = p := by rw [fieldP, fpWord_p, precOfBit_bit]

@[simp] theorem fieldD_fpWord : fieldD (fpWord op p d s b e) = d := fpWord_d op p d s b e

@[simp] theorem fieldS_fpWord : fieldS (fpWord op p d s b e) = s := fpWord_s op p d s b e

@[simp] theorem fieldB_fpWord : fieldB (fpWord op p d s b e) = b := fpWord_b op p d s b e

variable {op p d s b e} {i : Instr}

/-- Formats FP3, FP2, FPV, FPC and FPT (R92 to R96). -/
theorem decode_fpWord (hu : ∀ f ∈ op.blanks, (fpWord op p d s b e).extractLsb' f.1 f.2 = 0#f.2)
    (ht : fpTerm op (fpWord op p d s b e) = .ok i) (hi : i.wellFormed = true) (rest : List PsWord) :
    decode (halves (fpWord op p d s b e) ++ rest) = .ok i :=
  decode_fp (fpWord_group ..) (fpWord_minor ..) (fpWord_zz ..) hu ht hi rest

end

/-- Format FPK (R97). -/
theorem decode_fpkWord {p : Prec} {index : BitVec 5} {d : FReg} (hi : (Instr.movc p index d).wellFormed = true)
    (rest : List PsWord) : decode (halves (fpkWord .movc p d index) ++ rest) = .ok (.movc p index d) := by
  obtain ⟨hg, hp, hz, hd, hgap, hindex, hm⟩ := eq_fpkWord_iff.mp (Eq.refl (fpkWord .movc p d index))
  refine decode_fp hg hm hz (by simp [FpOp.blanks, hgap]) ?_ hi rest
  simp [fpTerm, fieldP, fieldD, hp, hd, hindex]

/-- Format FPL (R98). -/
theorem decode_fplWord {op : FpOp} {mk : BitVec 16 → SReg → Instr} (hop : op.blanks = [(24, 1)])
    (hmk : ∀ w, fpTerm op w = specialLit w mk) {lit : BitVec 16} {r : SReg} (hi : (mk lit r).wellFormed = true)
    (rest : List PsWord) : decode (halves (fplWord op r lit) ++ rest) = .ok (mk lit r) := by
  obtain ⟨hg, htop, hz, hr, hlit, hm⟩ := eq_fplWord_iff.mp (Eq.refl (fplWord op r lit))
  refine decode_fp hg hm hz (by simp [hop, htop]) ?_ hi rest
  rw [hmk, specialLit_eq_ok_iff]
  exact ⟨r, hr, by rw [hlit]⟩

/-- Format FBR (R99). -/
theorem decode_fbrWord (c : BitVec 4) (n : BitVec 20) (rest : List PsWord) :
    decode (halves (fbrWord c n) ++ rest) = .ok (.fbra c n) := by
  obtain ⟨hg, -, -, -, hl⟩ := eq_fbrWord_iff.mp (Eq.refl (fbrWord c n))
  rw [decode_halves (extract_of_extract hg 3 1 (by decide)) (isMvlFirst_eq_false (by rw [hl]; decide)),
    decode32_fbr hl hg]
  exact (decodeFbr_eq_ok_iff hl hg).mpr ⟨c, n, rfl, rfl⟩

/-- Format MVO, the store (R100). -/
theorem decode_mvoWord_store (f : FReg) (n : WReg) (k : BitVec 12) (rest : List PsWord) :
    decode (halves (mvoWord 0b1000011#7 f n k) ++ rest) = .ok (.movStore f n k) := by
  obtain ⟨hg, -, -, -, -, hl⟩ := eq_mvoWord_iff.mp (Eq.refl (mvoWord 0b1000011#7 f n k))
  rw [decode_halves (extract_of_extract hg 6 1 (by decide)) (isMvlFirst_eq_false_of_group (by rw [hg]; decide)),
    decode32_mvo hl]
  exact (decodeMvo_store_iff hl hg).mpr ⟨f, n, k, rfl, rfl⟩

/-- Format MVO, the load (R100). -/
theorem decode_mvoWord_load (f : FReg) (n : WReg) (k : BitVec 12) (rest : List PsWord) :
    decode (halves (mvoWord 0b1000010#7 f n k) ++ rest) = .ok (.movLoad n k f) := by
  obtain ⟨hg, -, -, -, -, hl⟩ := eq_mvoWord_iff.mp (Eq.refl (mvoWord 0b1000010#7 f n k))
  rw [decode_halves (extract_of_extract hg 6 1 (by decide)) (isMvlFirst_eq_false_of_group (by rw [hg]; decide)),
    decode32_mvo hl]
  exact (decodeMvo_load_iff hl hg).mpr ⟨f, n, k, rfl, rfl⟩

/-- Format MVX from coprocessor (R101). -/
theorem decode_mvxOutWord (c : CopSrc) {o : WOperand} (hf : o.formError = none) (rest : List PsWord) :
    decode (halves (mvxOutWord c o) ++ rest) = .ok (.movFromCop c o) := by
  obtain ⟨hg, -, -, -, -, -, -, -, -, hl⟩ := eq_mvxOutWord_iff.mp (Eq.refl (mvxOutWord c o))
  rw [decode_halves (extract_of_extract hg 6 1 (by decide)) (isMvlFirst_eq_false (by rw [hl]; decide)),
    decode32_mvx hl]
  exact (decodeMvx_out_iff hl hg).mpr ⟨c, o, hf, rfl, rfl⟩

/-- Format MVX to coprocessor (R101). -/
theorem decode_mvxInWord {o : WOperand} (c : CopDst) (hf : o.formError = none) (rest : List PsWord) :
    decode (halves (mvxInWord o c) ++ rest) = .ok (.movToCop o c) := by
  obtain ⟨hg, -, -, -, -, -, -, -, -, hl⟩ := eq_mvxInWord_iff.mp (Eq.refl (mvxInWord o c))
  rw [decode_halves (extract_of_extract hg 6 1 (by decide)) (isMvlFirst_eq_false (by rw [hl]; decide)),
    decode32_mvx hl]
  exact (decodeMvx_in_iff hl hg).mpr ⟨c, o, hf, rfl, rfl⟩

/-- Format MVL (R102). -/
theorem decode_mvlWords (lit : BitVec 32) (d : LitDst) (rest : List PsWord) :
    decode (halves (mvlWord1 lit) ++ halves (mvlWord2 (lit.extractLsb' 20 12) d) ++ rest) = .ok (.movLit lit d) := by
  obtain ⟨hg, -, -, -, hl⟩ := eq_mvlWord1_iff.mp (Eq.refl (mvlWord1 lit))
  have hfirst : isMvlFirst (mvlWord1 lit) = true := isMvlFirst_iff.mpr ⟨hg, hl⟩
  rw [decode_halves_mvl (extract_of_extract hg 6 1 (by decide)) hfirst]
  exact (decodeMvl_eq_ok_iff hfirst).mpr ⟨lit, d, rfl, rfl, rfl⟩

/-- The second word of format MVL on its own (R115 (a)). -/
theorem decode_mvlWord2 (hi : BitVec 12) (d : LitDst) (rest : List PsWord) :
    decode (halves (mvlWord2 hi d) ++ rest) = .ok (.movLitWord2 hi d) := by
  obtain ⟨hg, -, -, -, -, -, -, hl⟩ := eq_mvlWord2_iff.mp (Eq.refl (mvlWord2 hi d))
  have hfirst : isMvlFirst (mvlWord2 hi d) = false := by
    simp [isMvlFirst, hl]
  rw [decode_halves (extract_of_extract hg 6 1 (by decide)) hfirst,
    decode32_mvo (extract_of_extract hl 0 2 (by decide))]
  exact (decodeMvo_word2_iff (by rw [hg]; decide) (by rw [hg]; decide)).mpr ⟨hi, d, rfl, rfl⟩

/-- Format STK, PUSH (R103). -/
theorem decode_stkWord_push (c : CopSrc) (rest : List PsWord) :
    decode (stkWord 0b0010011#7 c.code c.rBit :: rest) = .ok (.push c) := by
  obtain ⟨hg, -⟩ := eq_stkWord_iff.mp (Eq.refl (stkWord 0b0010011#7 c.code c.rBit))
  rw [decode_cons (by rw [show BitVec.extractLsb' 15 1 _ = _ from extract_of_extract hg 6 1 (by decide)]; decide)]
  exact (decode16_push_iff hg).mpr ⟨c, rfl, rfl⟩

/-- Format STK, POP (R103). -/
theorem decode_stkWord_pop (c : CopDst) (rest : List PsWord) :
    decode (stkWord 0b0010111#7 c.code c.rBit :: rest) = .ok (.pop c) := by
  obtain ⟨hg, -⟩ := eq_stkWord_iff.mp (Eq.refl (stkWord 0b0010111#7 c.code c.rBit))
  rw [decode_cons (by rw [show BitVec.extractLsb' 15 1 _ = _ from extract_of_extract hg 6 1 (by decide)]; decide)]
  exact (decode16_pop_iff hg).mpr ⟨c, rfl, rfl⟩

end Sys2Proof

open Sys2Proof Sys2Proof.Machine

/-- Settles O1, format by format: in the FP formats the word's fields are the operands, and its `U` fields are 0. -/
theorem decodeOfEncode : Obligations.DecodeOfEncode := by
  intro i rest hi
  cases i with
  | add | sub | mul | div | mac | max | maxnm | min | minnm | flim | abs | neg | sqrt | movF | cos | sin | cpq | cps
  | tst =>
    refine decode_fpWord ?_ ?_ hi rest
    · simp [FpOp.blanks, fpWord_d, fpWord_b, fpWord_e]
    · simp [fpTerm, singleOnly]
  | di2f | f2di | f2li | li2f =>
    refine decode_fpWord ?_ ?_ hi rest
    · simp [FpOp.blanks, fpWord_b]
    · simp [fpTerm, conversion, fpWord_e]
  | movc => exact decode_fpkWord hi rest
  | andLit | iorLit => exact decode_fplWord rfl (fun _ => rfl) hi rest
  | fbra c n => exact decode_fbrWord c n rest
  | movStore f n k => exact decode_mvoWord_store f n k rest
  | movLoad n k f => exact decode_mvoWord_load f n k rest
  | movFromCop c o => exact decode_mvxOutWord c (Option.isNone_iff_eq_none.mp hi) rest
  | movToCop o c => exact decode_mvxInWord c (Option.isNone_iff_eq_none.mp hi) rest
  | movLit lit d => exact decode_mvlWords lit d rest
  | movLitWord2 high d => exact decode_mvlWord2 high d rest
  | push c => exact decode_stkWord_push c rest
  | pop c => exact decode_stkWord_pop c rest

/-- Settles O2, by the three lengths of an instruction: one PS word, two, and the four of format MVL. -/
theorem encodeOfDecode : Obligations.EncodeOfDecode := by
  intro ws i h
  rcases decode_eq_ok h with ⟨x, rest, rfl, hx⟩ | ⟨w, rest, rfl, hw⟩ | ⟨w, w2, rest, rfl, hfirst, hw⟩
  · obtain ⟨hi, he⟩ := encode_of_decode16 hx
    exact ⟨hi, rest, by rw [he]; rfl⟩
  · obtain ⟨hi, he⟩ := encodedBy_of_decode32 hw
    exact ⟨hi, rest, by rw [he]⟩
  · obtain ⟨lit, d, rfl, rfl, rfl⟩ := (decodeMvl_eq_ok_iff hfirst).mp hw
    exact ⟨rfl, rest, rfl⟩

/-- Settles O3: the decoder, run on each of the words. -/
theorem knownWords : Obligations.KnownWords := by
  unfold Obligations.KnownWords
  decide

end

section
/-! PROOFS. The terms that are refused, the stack forms as moves, and the branch. -/

namespace Sys2Proof.Machine

/-! ## Forms that are refused -/

/-- An instruction term that some operand set excludes is asked for its form before anything else (R117). -/
theorem exec_eq_withForm {i : Instr} (h : i.formError ≠ none) (s : State) : ∃ o, exec i s = withForm i o := by
  cases i with
  | andLit | iorLit | fbra | movStore | movLoad | movLit | movLitWord2 | pop | push => exact absurd rfl h
  | _ => exact ⟨_, rfl⟩

theorem exec_oddPairRegister {i : Instr} (h : i.formError = some .oddPairRegister) (s : State) :
    exec i s = .refused .oddPairRegister := by
  obtain ⟨o, ho⟩ := exec_eq_withForm (i := i) (by simp [h]) s
  rw [ho, withForm, h]

theorem exec_reservedField {i : Instr} (h : i.formError = some .reservedField) (s : State) :
    exec i s = .refused .reservedField := by
  obtain ⟨o, ho⟩ := exec_eq_withForm (i := i) (by simp [h]) s
  rw [ho, withForm, h]

/-- An odd register names no pair (R21, R117). -/
theorem admits_double_of_odd {r : FReg} (h : r.getLsbD 0 = true) : Prec.double.admits r = false := by
  rw [Prec.admits, FReg.even, h, Bool.not_true]

/-! ## The stack forms as moves -/

/-- A store stops by its address alone, or goes on with another data memory, whatever follows it (R64, R317). -/
theorem storing_cases (s : State) (a v : Word) :
    (∃ e, ∀ k, storing s a v k = .fault e) ∨ ∃ m : Memory, ∀ k, storing s a v k = k { s with mem := m } := by
  cases h : memWrite s a v with
  | error e => exact .inl ⟨e, fun k => by rw [storing, h]⟩
  | ok t =>
    obtain ⟨-, m, rfl⟩ := memWrite_ok h
    exact .inr ⟨m, fun k => by rw [storing, h]⟩

/-- A load stops by its address alone, or goes on with its value and another data memory, whatever follows it (R64,
R75, R317). -/
theorem loading_cases (s : State) (a : Word) :
    (∃ e, ∀ k, loading s a k = .fault e) ∨
      ∃ (v : Word) (m : Memory), ∀ k, loading s a k = k v { s with mem := m } := by
  cases h : memRead s a with
  | error e => exact .inl ⟨e, fun k => by rw [loading, h]⟩
  | ok r =>
    obtain ⟨v, t⟩ := r
    obtain ⟨-, m, rfl⟩ := memRead_ok h
    exact .inr ⟨v, m, fun k => by rw [loading, h]⟩

/-- Two lengths of an instruction make a difference to `pc` only (R26). -/
theorem retire_eq_retire_with_pc {u : State} {pc : PcWord} (h : u.pc = pc) (n m : Nat) :
    u.retire m = { u.retire n with pc := pc + BitVec.ofNat 32 m } := by
  rw [← h]
  rfl

/-! ## The branch -/

/-- The offset of FBRA is a signed number of PS words (R291). -/
theorem branchTarget_eq (s : State) (n : BitVec 20) :
    branchTarget s n = s.pc + 4 + BitVec.ofInt 32 (2 * n.toInt) := by
  rw [BitVec.ofInt_mul]
  rfl

theorem Condition.holds_iff {c : Condition} {hi : BitVec 16} :
    c.holds hi = true ↔ ∃ m ∈ c, hi &&& m.mask = m.value := by
  simp [Condition.holds, FlagTest.holds]

section
variable {s : State} {b : BitVec 4}

theorem exec_fbra_none (h : fbraCond s b = none) (n : BitVec 20) :
    exec (.fbra b n) s = .refused .unknownCondition := by
  simp only [exec, execFbra, h]

theorem exec_fbra_some {c : BitVec 16 → Bool} (h : fbraCond s b = some c) (n : BitVec 20) :
    exec (.fbra b n) s = .next { s with
      pc := if c (s.fsr.extractLsb' 16 16) then s.pc + 4 + BitVec.ofInt 32 (2 * n.toInt) else s.pc + 4
      draws := s.draws + 1 } := by
  simp only [exec, execFbra, h, branchTarget_eq]
  rfl

theorem fbraCond_unstated (h : s.condTable[b.toNat]'(b.isLt) = .unstated) : fbraCond s b = Config.fbraCond b := by
  simp only [fbraCond, h]

theorem fbraCond_absent (h : s.condTable[b.toNat]'(b.isLt) = .absent) : fbraCond s b = none := by
  simp only [fbraCond, h]

theorem fbraCond_given {c : Condition} (h : s.condTable[b.toNat]'(b.isLt) = .given c) :
    fbraCond s b = some c.holds := by
  simp only [fbraCond, h]

end

end Sys2Proof.Machine

open Sys2Proof Sys2Proof.Machine

/-- Settles O49: every instruction with a restricted operand asks for its form first. -/
theorem refusedForms : Obligations.RefusedForms := by
  refine ⟨fun _ _ _ => rfl, fun i s h => exec_oddPairRegister h s, fun i s h => exec_reservedField h s,
    fun fs fd s h => exec_oddPairRegister ?_ s, fun index fd s h => exec_oddPairRegister ?_ s⟩
  · have hodd : (Prec.double.admits fs && Prec.double.admits fd) = false := by
      rcases h with h | h
      · rw [admits_double_of_odd h, Bool.false_and]
      · rw [admits_double_of_odd h, Bool.and_false]
    exact congrArg pairCheck hodd
  · exact congrArg pairCheck (admits_double_of_odd h)

/-- Settles O57: PUSH and POP make the access of the move, and write what it writes. -/
theorem stackFormsAreMoves : Obligations.StackFormsAreMoves := by
  refine ⟨fun src s => ⟨rfl, rfl, ?_⟩, fun dst s => ⟨rfl, rfl, ?_⟩⟩
  · rw [exec_push, exec_movFromCop_mem (o := .postInc 15) src rfl rfl]
    rcases storing_cases s (s.readW 15) (copRead s src) with ⟨e, hstop⟩ | ⟨m, hgo⟩
    · rw [hstop, hstop]
      exact ⟨nofun, fun _ h => h⟩
    · rw [hgo, hgo]
      refine ⟨fun t h => ?_, nofun⟩
      cases h
      exact congrArg Host.Outcome.next (retire_eq_retire_with_pc rfl 4 2)
  · rw [exec_pop, exec_movToCop_mem (o := .preDec 15) dst rfl rfl]
    rcases loading_cases s (s.readW 15 - 4) with ⟨e, hstop⟩ | ⟨v, m, hgo⟩
    · rw [hstop, hstop]
      exact ⟨nofun, fun _ h => h⟩
    · rw [hgo, hgo]
      refine ⟨fun t h => ?_, nofun⟩
      cases h
      exact congrArg Host.Outcome.next (retire_eq_retire_with_pc (copWrite_pc ..) 4 2)

/-- Settles O60, by what the launch says of the condition code. -/
theorem fbraBranches : Obligations.FbraBranches := by
  intro b n s
  refine ⟨fun c hc => ?_, fun hc => ?_, fun hc => exec_fbra_none (fbraCond_absent hc) n⟩
  · rw [exec_fbra_some (fbraCond_given hc)]
    simp only [Condition.holds_iff]
  · have hopen := fbraCond_unstated hc
    cases hmap : Config.fbraCond b with
    | none => exact exec_fbra_none (hopen.trans hmap) n
    | some c => exact exec_fbra_some (hopen.trans hmap) n

end

section
/-! PROOFS. The numbers: a pattern is a sign and magnitude bits, the classes are ranges of the magnitude bits, and the
value is strictly increasing in them. The classes and the two orders of values follow. -/

namespace Sys2Proof.Machine

variable {p : Prec}

/-! ## Magnitude bits -/

/-- A pattern without its sign bit, as a number. -/
def magBits (x : p.Pattern) : Nat := x.toNat % 2 ^ (p.width - 1)

/-- The magnitude of `val_f`, in quanta, of the pattern with the magnitude bits `m` (R132). -/
def magOf (p : Prec) (m : Nat) : Nat :=
  if m / 2 ^ p.manBits = 0 then m % 2 ^ p.manBits
  else (2 ^ p.manBits + m % 2 ^ p.manBits) * 2 ^ (m / 2 ^ p.manBits - 1)

theorem magBits_lt (x : p.Pattern) : magBits x < 2 ^ (p.width - 1) := Nat.mod_lt _ (by positivity)

theorem pack_magBits (x : p.Pattern) : pack p (signOf x) (magBits x) = x := pack_self x

theorem expField_eq (x : p.Pattern) : expField x = magBits x / 2 ^ p.manBits := by
  conv_lhs => rw [← pack_magBits x]
  exact expField_pack p _ (magBits_lt x)

theorem manField_eq (x : p.Pattern) : manField x = magBits x % 2 ^ p.manBits := by
  conv_lhs => rw [← pack_magBits x]
  exact manField_pack p _ (magBits_lt x)

theorem magQuanta_eq (x : p.Pattern) : magQuanta x = magOf p (magBits x) := by
  simp only [magQuanta, magOf, expField_eq, manField_eq]

theorem magBits_pack (neg : Bool) {m : Nat} (h : m < 2 ^ (p.width - 1)) : magBits (pack p neg m) = m := by
  rw [magBits, toNat_pack p neg h]
  cases neg
  · simp [Nat.mod_eq_of_lt h]
  · simp [Nat.mod_eq_of_lt h]

/-- The sign bit is worth half the patterns (R131). -/
theorem signOf_iff (x : p.Pattern) : signOf x = true ↔ 2 ^ (p.width - 1) ≤ x.toNat := by
  simp [signOf, BitVec.msb_eq_decide]

/-- A pattern is determined by its sign and its magnitude bits. -/
theorem eq_of_sign_magBits {x y : p.Pattern} (hs : signOf x = signOf y) (hm : magBits x = magBits y) : x = y := by
  rw [← pack_magBits x, ← pack_magBits y, hs, hm]

/-! ## The value in quanta -/

/-- From one magnitude to the next: one unit in the last place of its binade. -/
theorem magOf_succ (p : Prec) (m : Nat) : magOf p (m + 1) = magOf p m + 2 ^ (m / 2 ^ p.manBits - 1) := by
  have hpos : 0 < 2 ^ p.manBits := by positivity
  generalize hB : 2 ^ p.manBits = B at hpos
  obtain ⟨q, r, hr, rfl⟩ : ∃ q r, r < B ∧ m = B * q + r :=
    ⟨m / B, m % B, Nat.mod_lt _ hpos, (Nat.div_add_mod m B).symm⟩
  have hdiv : (B * q + r) / B = q := by rw [Nat.mul_add_div hpos, Nat.div_eq_of_lt hr, Nat.add_zero]
  have hmod : (B * q + r) % B = r := by rw [Nat.mul_add_mod, Nat.mod_eq_of_lt hr]
  simp only [magOf, hB, hdiv, hmod]
  by_cases hc : r + 1 < B
  · have hdiv' : (B * q + r + 1) / B = q := by
      rw [Nat.add_assoc, Nat.mul_add_div hpos, Nat.div_eq_of_lt hc, Nat.add_zero]
    have hmod' : (B * q + r + 1) % B = r + 1 := by rw [Nat.add_assoc, Nat.mul_add_mod, Nat.mod_eq_of_lt hc]
    simp only [hdiv', hmod']
    split
    · next h => simp [h]
    · ring
  · have hcarry : B * q + r + 1 = B * (q + 1) := by rw [Nat.mul_succ]; omega
    rw [hcarry, Nat.mul_div_cancel_left _ hpos, Nat.mul_mod_right]
    cases q with
    | zero => simp; omega
    | succ k =>
      have hB : B = r + 1 := by omega
      simp [hB]
      ring

theorem magOf_strictMono (p : Prec) : StrictMono (magOf p) :=
  strictMono_nat_of_lt_succ fun m => by
    rw [magOf_succ]
    have : 0 < 2 ^ (m / 2 ^ p.manBits - 1) := by positivity
    omega

@[simp] theorem magOf_zero (p : Prec) : magOf p 0 = 0 := by simp [magOf]

/-- `q` units in the last place at exponent `k` above the smallest, as magnitude bits and in quanta (R135 step 4). -/
theorem magOf_ulps {k q : Nat} (hq : q < 2 ^ (p.manBits + 1)) (hk : 0 < k → 2 ^ p.manBits ≤ q) :
    magOf p (k * 2 ^ p.manBits + q) = q * 2 ^ k ∧
      magOf p (k * 2 ^ p.manBits + q + 1) = q * 2 ^ k + 2 ^ k := by
  have hpos : 0 < 2 ^ p.manBits := by positivity
  rw [magOf_succ, pow_succ] at *
  generalize hB : 2 ^ p.manBits = B at *
  by_cases hlt : q < B
  · obtain rfl : k = 0 := by
      by_contra h0
      have := hk (by omega)
      omega
    simp [magOf, hB, Nat.div_eq_of_lt hlt, Nat.mod_eq_of_lt hlt]
  · obtain ⟨r, rfl⟩ : ∃ r, q = B + r := ⟨q - B, by omega⟩
    have hr : r < B := by omega
    have he : k * B + (B + r) = B * (k + 1) + r := by ring
    have hdiv : (B * (k + 1) + r) / B = k + 1 := by rw [Nat.mul_add_div hpos, Nat.div_eq_of_lt hr, Nat.add_zero]
    have hmod : (B * (k + 1) + r) % B = r := by rw [Nat.mul_add_mod, Nat.mod_eq_of_lt hr]
    rw [he]
    simp [magOf, hB, hdiv, hmod]

/-- The powers of two that begin a binade. -/
theorem magOf_binade (p : Prec) (k : Nat) : magOf p ((k + 1) * 2 ^ p.manBits) = 2 ^ (p.manBits + k) := by
  have hq : 2 ^ p.manBits < 2 ^ (p.manBits + 1) := Nat.pow_lt_pow_right (by omega) (by omega)
  have h := (magOf_ulps (k := k) hq fun _ => le_rfl).1
  rw [show (k + 1) * 2 ^ p.manBits = k * 2 ^ p.manBits + 2 ^ p.manBits by ring, h, pow_add]

/-! ## Classes as ranges -/

theorem infMag_lt (p : Prec) : p.infMag < 2 ^ (p.width - 1) := by
  cases p <;> simp [Prec.infMag, Prec.expMax, Prec.expBits, Prec.manBits]

theorem manBits_bounds (p : Prec) : 0 < 2 ^ p.manBits ∧ 2 ^ p.manBits < p.infMag := by cases p <;> decide

/-- The class of a pattern, by the ranges of its magnitude bits (R131). -/
theorem classOf_eq (x : p.Pattern) :
    classOf x =
      if magBits x = 0 then .zero else if magBits x < 2 ^ p.manBits then .sub
      else if magBits x < p.infMag then .norm else if magBits x = p.infMag then .inf
      else if magBits x < p.infMag + 2 ^ (p.manBits - 1) then .snan else .qnan := by
  have hm : magBits x = 2 ^ p.manBits * expField x + manField x := by
    rw [expField_eq, manField_eq, Nat.div_add_mod]
  have hf : manField x < 2 ^ p.manBits := Nat.mod_lt _ (by positivity)
  have he : expField x < 2 ^ p.expBits := Nat.mod_lt _ (by positivity)
  rw [hm]
  unfold classOf
  generalize expField x = e, manField x = f at he hf ⊢
  split_ifs <;> first
    | rfl
    | exfalso
      cases p <;> simp only [Prec.infMag, Prec.expMax, Prec.expBits, Prec.manBits] at * <;> omega

section
variable (x : p.Pattern)

theorem classOf_zero_iff : classOf x = .zero ↔ magBits x = 0 := by
  rw [classOf_eq]
  split_ifs <;> simp_all

theorem classOf_sub_iff : classOf x = .sub ↔ 0 < magBits x ∧ magBits x < 2 ^ p.manBits := by
  rw [classOf_eq]
  split_ifs <;> simp <;> omega

theorem classOf_norm_iff : classOf x = .norm ↔ 2 ^ p.manBits ≤ magBits x ∧ magBits x < p.infMag := by
  have ⟨hsub, hnorm⟩ := manBits_bounds p
  rw [classOf_eq]
  split_ifs <;> simp <;> omega

theorem classOf_inf_iff : classOf x = .inf ↔ magBits x = p.infMag := by
  have ⟨hsub, hnorm⟩ := manBits_bounds p
  rw [classOf_eq]
  split_ifs <;> simp <;> omega

theorem classOf_snan_iff :
    classOf x = .snan ↔ p.infMag < magBits x ∧ magBits x < p.infMag + 2 ^ (p.manBits - 1) := by
  have ⟨hsub, hnorm⟩ := manBits_bounds p
  rw [classOf_eq]
  split_ifs <;> simp <;> omega

theorem classOf_qnan_iff : classOf x = .qnan ↔ p.infMag + 2 ^ (p.manBits - 1) ≤ magBits x := by
  have ⟨hsub, hnorm⟩ := manBits_bounds p
  have hquiet : 0 < 2 ^ (p.manBits - 1) := by positivity
  rw [classOf_eq]
  split_ifs <;> simp <;> omega

theorem isZero_iff : isZero x = true ↔ magBits x = 0 := by
  rw [isZero, beq_iff_eq, classOf_zero_iff]

theorem isInf_iff : isInf x = true ↔ magBits x = p.infMag := by
  rw [isInf, beq_iff_eq, classOf_inf_iff]

theorem isFinite_iff : isFinite x = true ↔ magBits x < p.infMag := by
  have ⟨hsub, hnorm⟩ := manBits_bounds p
  simp only [isFinite, isZero, isSub, Bool.or_eq_true, beq_iff_eq, classOf_zero_iff, classOf_sub_iff,
    classOf_norm_iff]
  omega

theorem isNaN_eq_false_iff : isNaN x = false ↔ magBits x ≤ p.infMag := by
  have hquiet : 0 < 2 ^ (p.manBits - 1) := by positivity
  simp only [isNaN, Bool.or_eq_false_iff, beq_eq_false_iff_ne, Ne, classOf_snan_iff, classOf_qnan_iff]
  omega

end

/-! ## The order of values (R146) -/

/-- The value in quanta by its sign and its magnitude bits. -/
theorem quanta_eq (x : p.Pattern) :
    quanta x = if signOf x then -(magOf p (magBits x) : Int) else (magOf p (magBits x) : Int) := by
  rw [quanta, magQuanta_eq]

/-- Where a number stands between zero and the infinities, in quanta; an infinity stands at `magOf p p.infMag`. -/
theorem magOf_le_of_number {x : p.Pattern} (h : isNaN x = false) : magOf p (magBits x) ≤ magOf p p.infMag :=
  (magOf_strictMono p).monotone ((isNaN_eq_false_iff x).mp h)

theorem magOf_lt_of_finite {x : p.Pattern} (h : isFinite x = true) : magOf p (magBits x) < magOf p p.infMag :=
  magOf_strictMono p ((isFinite_iff x).mp h)

theorem magOf_of_inf {x : p.Pattern} (h : isInf x = true) : magOf p (magBits x) = magOf p p.infMag := by
  rw [(isInf_iff x).mp h]

theorem magOf_infMag_pos (p : Prec) : 0 < magOf p p.infMag := by
  have h := magOf_strictMono p (a := 0) (b := p.infMag) (by have := manBits_bounds p; omega)
  rwa [magOf_zero] at h

theorem isZero_iff_quanta (x : p.Pattern) : isZero x = true ↔ quanta x = 0 := by
  have h : magOf p (magBits x) = 0 ↔ magBits x = 0 := by
    simpa using (magOf_strictMono p).injective.eq_iff (a := magBits x) (b := 0)
  rw [isZero_iff, ← h, quanta_eq]
  split <;> omega

/-- A number is determined by its sign and its value. -/
theorem eq_of_sign_quanta {x y : p.Pattern} (hs : signOf x = signOf y) (hq : quanta x = quanta y) : x = y := by
  refine eq_of_sign_magBits hs ((magOf_strictMono p).injective ?_)
  rw [quanta_eq, quanta_eq, hs] at hq
  split at hq <;> omega

/-- A value other than zero tells the sign. -/
theorem eq_of_quanta {x y : p.Pattern} (h0 : quanta x ≠ 0) (hq : quanta x = quanta y) : x = y := by
  refine eq_of_sign_quanta ?_ hq
  rw [quanta_eq] at h0
  rw [quanta_eq, quanta_eq] at hq
  cases hx : signOf x <;> cases hy : signOf y <;> simp [hx, hy] at h0 hq ⊢ <;> omega

/-- On numbers `lt_f` is the order of the values, an infinity standing above every finite magnitude. -/
theorem fLt_iff {x y : p.Pattern} (hx : isNaN x = false) (hy : isNaN y = false) :
    fLt x y = true ↔ quanta x < quanta y := by
  have hG := magOf_infMag_pos p
  have hclass : ∀ z : p.Pattern, isNaN z = false →
      (isFinite z = true ∧ isInf z = false ∧ magOf p (magBits z) < magOf p p.infMag) ∨
      (isFinite z = false ∧ isInf z = true ∧ magOf p (magBits z) = magOf p p.infMag) := by
    intro z hz
    rcases class_cases z with h | h | h
    · exact .inl ⟨h, isInf_eq_false_of_finite h, magOf_lt_of_finite h⟩
    · exact .inr ⟨isFinite_eq_false_of_inf h, h, magOf_of_inf h⟩
    · rw [hz] at h; cases h
  rcases hclass x hx with ⟨hfx, hix, hmx⟩ | ⟨hfx, hix, hmx⟩
  · rcases hclass y hy with ⟨hfy, hiy, hmy⟩ | ⟨hfy, hiy, hmy⟩
    · simp [fLt, hfx, hfy]
    · have hlt : fLt x y = !signOf y := by simp [fLt, hx, hy, hix, hfy, hiy]
      rw [hlt, quanta_eq x, quanta_eq y]
      cases signOf y <;> simp <;> split <;> omega
  · rcases hclass y hy with ⟨hfy, hiy, hmy⟩ | ⟨hfy, hiy, hmy⟩
    · have hlt : fLt x y = signOf x := by simp [fLt, hx, hy, hfx, hix, hiy]
      rw [hlt, quanta_eq x, quanta_eq y]
      cases signOf x <;> simp <;> split <;> omega
    · have hlt : fLt x y = (signOf x && !signOf y) := by
        simp only [fLt, hx, hy, hfx, hix, hiy]
        cases signOf x <;> cases signOf y <;> rfl
      rw [hlt, quanta_eq x, quanta_eq y, hmx, hmy]
      cases signOf x <;> cases signOf y <;> simp
      omega

theorem fLt_eq_false_of_nan {x y : p.Pattern} (h : isNaN x = true ∨ isNaN y = true) : fLt x y = false := by
  rcases h with h | h <;> simp [fLt, h]

theorem fEq_eq_false_of_nan {x y : p.Pattern} (h : isNaN x = true ∨ isNaN y = true) : fEq x y = false := by
  rcases h with h | h <;> simp [fEq, h]

theorem fEq_iff {x y : p.Pattern} (hx : isNaN x = false) (hy : isNaN y = false) :
    fEq x y = true ↔ quanta x = quanta y := by
  have hxy := fLt_iff hx hy
  have hyx := fLt_iff hy hx
  simp only [fEq, hx, hy]
  cases hl : fLt x y <;> cases hg : fLt y x <;> simp [hl, hg] at hxy hyx ⊢ <;> omega

theorem tLt_iff (x y : p.Pattern) :
    tLt x y = true ↔ fLt x y = true ∨
      (isZero x = true ∧ signOf x = true ∧ isZero y = true ∧ signOf y = false) := by
  simp [tLt, and_assoc]

/-- On numbers the order of MAX and MIN is that of the values, and at equal values a minus sign below a plus sign. -/
theorem tLt_iff_quanta {x y : p.Pattern} (hx : isNaN x = false) (hy : isNaN y = false) :
    tLt x y = true ↔
      quanta x < quanta y ∨ (quanta x = quanta y ∧ signOf x = true ∧ signOf y = false) := by
  rw [tLt_iff, fLt_iff hx hy, isZero_iff_quanta, isZero_iff_quanta]
  refine or_congr_right
    ⟨fun ⟨hzx, hsx, hzy, hsy⟩ => ⟨hzx.trans hzy.symm, hsx, hsy⟩, fun ⟨hq, hsx, hsy⟩ => ?_⟩
  have hz : quanta x = 0 := by
    by_contra h0
    rw [eq_of_quanta h0 hq, hsy] at hsx
    cases hsx
  exact ⟨hz, hsx, hq ▸ hz, hsy⟩

end Sys2Proof.Machine

open Sys2Proof Sys2Proof.Machine

/-- Settles O19, by the ranges of the magnitude bits. -/
theorem classRanges : Obligations.ClassRanges := by
  refine ⟨fun x => ?_, fun x => ?_, fun p x => by simp [isNaN]⟩
  · have hmag : magBits x = x.toNat % 2 ^ 31 := rfl
    have hinf : Prec.single.infMag = 0x7F800000 := rfl
    have hsub : 2 ^ Prec.single.manBits = 0x00800000 := rfl
    have hquiet : 2 ^ (Prec.single.manBits - 1) = 0x00400000 := rfl
    rw [classOf_zero_iff, classOf_sub_iff, classOf_norm_iff, classOf_inf_iff, classOf_snan_iff, classOf_qnan_iff,
      hmag, hinf, hsub, hquiet]
    exact ⟨.rfl, by omega, by omega, .rfl, by omega, by omega, signOf_iff x⟩
  · have hmag : magBits x = x.toNat % 2 ^ 63 := rfl
    have hinf : Prec.double.infMag = 0x7FF0000000000000 := rfl
    have hsub : 2 ^ Prec.double.manBits = 0x0010000000000000 := rfl
    have hquiet : 2 ^ (Prec.double.manBits - 1) = 0x0008000000000000 := rfl
    rw [classOf_zero_iff, classOf_sub_iff, classOf_norm_iff, classOf_inf_iff, classOf_snan_iff, classOf_qnan_iff,
      hmag, hinf, hsub, hquiet]
    exact ⟨.rfl, by omega, by omega, .rfl, by omega, by omega, signOf_iff x⟩

/-- Settles O35: on numbers the comparisons are those of the values. -/
theorem compareOrder : Obligations.CompareOrder := by
  intro p x y
  refine ⟨fun h => ⟨fLt_eq_false_of_nan h, fEq_eq_false_of_nan h, fLt_eq_false_of_nan h.symm⟩, fun hx hy => ?_,
    fun hx hy => ?_, fun hx hy => ?_⟩
  · have hlt := fLt_iff hx hy
    have hgt := fLt_iff hy hx
    have heq := fEq_iff hx hy
    rcases lt_trichotomy (quanta x) (quanta y) with h | h | h
    · refine .inl ⟨hlt.mpr h, ?_, ?_⟩ <;> rw [Bool.eq_false_iff] <;> simp [heq, hgt] <;> omega
    · refine .inr (.inl ⟨?_, heq.mpr h, ?_⟩) <;> rw [Bool.eq_false_iff] <;> simp [hlt, hgt] <;> omega
    · refine .inr (.inr ⟨?_, ?_, hgt.mpr h⟩) <;> rw [Bool.eq_false_iff] <;> simp [heq, hlt] <;> omega
  · exact ⟨fLt_iff (isNaN_eq_false_of_finite hx) (isNaN_eq_false_of_finite hy),
      fEq_iff (isNaN_eq_false_of_finite hx) (isNaN_eq_false_of_finite hy)⟩
  · have hnx := isNaN_eq_false_of_inf hx
    have hG := magOf_infMag_pos p
    have hle := magOf_le_of_number hy
    have hqx := quanta_eq x
    rw [magOf_of_inf hx] at hqx
    have hqy := quanta_eq y
    have hne : y ≠ x ↔ quanta x ≠ quanta y := by
      refine not_congr ⟨fun h => h ▸ rfl, fun h => (eq_of_quanta ?_ h).symm⟩
      rw [hqx]; split <;> omega
    rw [fLt_iff hnx hy, fLt_iff hy hnx, hne]
    cases hs : signOf x <;> cases hs' : signOf y <;> simp [hs, hs'] at hqx hqy ⊢ <;> omega

/-- Settles O39: on numbers the order is that of the values with the sign to break a tie. -/
theorem totalOrder : Obligations.TotalOrder := by
  refine ⟨fun p => tLt_iff, fun p x y z hx hy hz => ⟨?_, fun hxy hyz => ?_, fun hxy hyx => ?_⟩⟩
  · rw [Bool.eq_false_iff, Ne, tLt_iff_quanta hx hx]
    simp
  · rw [tLt_iff_quanta hx hy] at hxy
    rw [tLt_iff_quanta hy hz] at hyz
    rw [tLt_iff_quanta hx hz]
    rcases hxy with hxy | ⟨hxy, hsx, hsy⟩ <;> rcases hyz with hyz | ⟨hyz, hsy', hsz⟩
    · exact .inl (hxy.trans hyz)
    · exact .inl (hyz ▸ hxy)
    · exact .inl (hxy ▸ hyz)
    · rw [hsy] at hsy'; cases hsy'
  · rw [Bool.eq_false_iff, Ne, tLt_iff_quanta hx hy, not_or, not_lt] at hxy
    rw [Bool.eq_false_iff, Ne, tLt_iff_quanta hy hx, not_or, not_lt] at hyx
    obtain ⟨hle, hs⟩ := hxy
    obtain ⟨hge, hs'⟩ := hyx
    have hq : quanta x = quanta y := le_antisymm hge hle
    refine eq_of_sign_quanta ?_ hq
    cases h : signOf x <;> cases h' : signOf y <;> simp [h, h', hq] at hs hs' ⊢

end

section
/-! PROOFS. Rounding: the exact value lies between two neighbouring magnitudes, and the mode chooses one of them by the
rest above the lower one. What `round` delivers and signals is said once in these terms (`round_eq`). -/

namespace Sys2Proof.Machine

variable {p : Prec}

/-! ## The unit in the last place -/

/-- `floor(log2 (a / d))` as a bound on the rational number. -/
theorem floorLog2_bounds {a d : Nat} (ha : 0 < a) (hd : 0 < d) :
    (2 : ℚ) ^ floorLog2 a d ≤ (a : ℚ) / d ∧ (a : ℚ) / d < (2 : ℚ) ^ (floorLog2 a d + 1) := by
  have hdq : (0 : ℚ) < d := by exact_mod_cast hd
  rw [le_div_iff₀ hdq, div_lt_iff₀ hdq]
  rcases Nat.lt_or_ge a d with h | h
  · obtain ⟨k, hk, hlo, hhi⟩ := floorLog2_of_lt ha h
    have hlo' : (a : ℚ) * 2 ^ k < d := by exact_mod_cast hlo
    have hhi' : (d : ℚ) ≤ a * 2 ^ (k + 1) := by exact_mod_cast hhi
    rw [hk, show (-((k : Int) + 1) : Int) = -((k + 1 : Nat) : Int) by push_cast; ring,
      show (-((k + 1 : Nat) : Int) + 1 : Int) = -((k : Nat) : Int) by push_cast; ring, zpow_neg, zpow_neg,
      zpow_natCast, zpow_natCast, inv_mul_le_iff₀ (by positivity), lt_inv_mul_iff₀ (by positivity)]
    exact ⟨by linarith, by linarith⟩
  · obtain ⟨hk, hlo, hhi⟩ := floorLog2_of_le hd h
    rw [hk, ← Nat.cast_succ, zpow_natCast, zpow_natCast]
    exact ⟨by rw [mul_comm]; exact_mod_cast hlo, by rw [mul_comm]; exact_mod_cast hhi⟩

theorem zpow_eq_toNat (x : Int) : (2 : ℚ) ^ x = 2 ^ x.toNat / 2 ^ (-x).toNat := by
  rcases Int.le_total 0 x with h | h
  · obtain ⟨n, rfl⟩ := Int.eq_ofNat_of_zero_le h
    simp
  · obtain ⟨n, hn⟩ := Int.eq_ofNat_of_zero_le (Int.neg_nonneg.mpr h)
    obtain rfl : x = -(n : Int) := by omega
    simp

/-- How many binades the exponent of R135 step 2 is above the smallest. -/
def ulpExp (p : Prec) (a d : Nat) : Nat := (roundExp p a d - p.emin).toNat

theorem ulpExp_cast (p : Prec) (a d : Nat) : (ulpExp p a d : Int) = roundExp p a d - p.emin :=
  Int.toNat_of_nonneg (by have : p.emin ≤ roundExp p a d := le_max_right _ _; omega)

theorem scale_cast (p : Prec) : (p.scale : Int) = p.manBits - p.emin := by cases p <;> rfl

theorem ulpDen_pos {a d : Nat} (hd : 0 < d) : 0 < ulpDen p a d := Nat.mul_pos hd (by positivity)

/-- The quotient that is rounded is the exact value in units of `2^(qe - M_f)` (R135 step 2). -/
theorem ulp_quotient (p : Prec) (a d : Nat) :
    (ulpNum p a d : ℚ) / ulpDen p a d = (a : ℚ) / d * 2 ^ ((p.manBits : Int) - roundExp p a d) := by
  rw [zpow_eq_toNat, neg_sub, ulpNum, ulpDen]
  push_cast
  rw [mul_div_mul_comm]

/-- The same quotient in quanta. -/
theorem ulpNum_mul (p : Prec) (a : Nat) {d : Nat} (hd : 0 < d) :
    ulpNum p a d * (2 ^ ulpExp p a d * d) = a * 2 ^ p.scale * ulpDen p a d := by
  have hq := ulp_quotient p a d
  have hD : (ulpDen p a d : ℚ) ≠ 0 := by exact_mod_cast (ulpDen_pos hd).ne'
  have hd0 : (d : ℚ) ≠ 0 := by exact_mod_cast hd.ne'
  have hpow : (2 : ℚ) ^ ((p.manBits : Int) - roundExp p a d) * 2 ^ ulpExp p a d = 2 ^ p.scale := by
    rw [← zpow_natCast 2 (ulpExp p a d), ← zpow_natCast 2 p.scale, ← zpow_add₀ two_ne_zero, ulpExp_cast,
      scale_cast]
    congr 1
    ring
  have h : (ulpNum p a d : ℚ) * (2 ^ ulpExp p a d * d) = a * 2 ^ p.scale * ulpDen p a d := by
    rw [div_eq_iff hD] at hq
    rw [hq, ← hpow]
    field_simp
  exact_mod_cast h

/-- The quotient has at most `M_f + 1` digits before the point, and exactly as many above the smallest exponent. -/
theorem ulp_quotient_bounds {a d : Nat} (ha : 0 < a) (hd : 0 < d) :
    ulpNum p a d / ulpDen p a d < 2 ^ (p.manBits + 1) ∧
      (0 < ulpExp p a d → 2 ^ p.manBits ≤ ulpNum p a d / ulpDen p a d) := by
  have hD := ulpDen_pos (p := p) (a := a) hd
  have hDq : (0 : ℚ) < ulpDen p a d := by exact_mod_cast hD
  obtain ⟨hlo, hhi⟩ := floorLog2_bounds ha hd
  have hq := ulp_quotient p a d
  have hpos : (0 : ℚ) < 2 ^ ((p.manBits : Int) - roundExp p a d) := by positivity
  constructor
  · rw [Nat.div_lt_iff_lt_mul hD, ← @Nat.cast_lt ℚ]
    push_cast
    rw [← div_lt_iff₀ hDq, hq]
    calc (a : ℚ) / d * 2 ^ ((p.manBits : Int) - roundExp p a d)
        < 2 ^ (floorLog2 a d + 1) * 2 ^ ((p.manBits : Int) - roundExp p a d) := mul_lt_mul_of_pos_right hhi hpos
      _ = 2 ^ (floorLog2 a d + 1 + ((p.manBits : Int) - roundExp p a d)) := (zpow_add₀ two_ne_zero _ _).symm
      _ ≤ 2 ^ ((p.manBits + 1 : Nat) : Int) := by
          refine zpow_le_zpow_right₀ one_le_two ?_
          have : floorLog2 a d ≤ roundExp p a d := le_max_left _ _
          push_cast
          omega
      _ = 2 ^ (p.manBits + 1) := zpow_natCast _ _
  · intro hk
    have he : roundExp p a d = floorLog2 a d := by
      have hc := ulpExp_cast p a d
      have hmax : roundExp p a d = max (floorLog2 a d) p.emin := rfl
      omega
    rw [Nat.le_div_iff_mul_le hD, ← @Nat.cast_le ℚ]
    push_cast
    rw [← le_div_iff₀ hDq, hq, he]
    calc (2 : ℚ) ^ p.manBits = 2 ^ (floorLog2 a d + ((p.manBits : Int) - floorLog2 a d)) := by
          rw [add_sub_cancel, zpow_natCast]
      _ = 2 ^ floorLog2 a d * 2 ^ ((p.manBits : Int) - floorLog2 a d) := zpow_add₀ two_ne_zero _ _
      _ ≤ (a : ℚ) / d * 2 ^ ((p.manBits : Int) - floorLog2 a d) :=
          mul_le_mul_of_nonneg_right hlo (by positivity)

/-- `tiny` of R135 step 2: the exact value is below the first binade. -/
theorem floorLog2_lt_emin_iff {a d : Nat} (ha : 0 < a) (hd : 0 < d) :
    floorLog2 a d < p.emin ↔ a * 2 ^ p.scale < 2 ^ p.manBits * d := by
  obtain ⟨hlo, hhi⟩ := floorLog2_bounds ha hd
  have hdq : (0 : ℚ) < d := by exact_mod_cast hd
  have hval : a * 2 ^ p.scale < 2 ^ p.manBits * d ↔ (a : ℚ) / d < 2 ^ p.emin := by
    have hpow : (2 : ℚ) ^ p.emin * 2 ^ p.scale = 2 ^ p.manBits := by
      rw [← zpow_natCast 2 p.scale, ← zpow_natCast 2 p.manBits, ← zpow_add₀ two_ne_zero, scale_cast]
      congr 1
      ring
    have hscale : (0 : ℚ) < 2 ^ p.scale := by positivity
    rw [div_lt_iff₀ hdq, ← mul_lt_mul_iff_left₀ hscale, mul_right_comm, hpow]
    exact_mod_cast Iff.rfl
  rw [hval]
  constructor
  · intro h
    exact hhi.trans_le (zpow_le_zpow_right₀ one_le_two (by omega))
  · intro h
    exact (zpow_lt_zpow_iff_right₀ one_lt_two).mp (hlo.trans_lt h)

/-! ## The magnitude below the exact value -/

/-- The exact value `a / d` is the magnitude `lo` and a rest `x`, less than the distance to the next magnitude; in units
of `1 / d` of a quantum. -/
structure Below (p : Prec) (a d lo x : Nat) : Prop where
  value : a * 2 ^ p.scale = magOf p lo * d + x
  rest_lt : magOf p lo * d + x < magOf p (lo + 1) * d

/-- The magnitude that the mode chooses: the one below, or the next one by the rest `x` (R135 step 3). -/
def roundMag (p : Prec) (rm : RoundMode) (neg : Bool) (d lo x : Nat) : Nat :=
  if roundsUp rm neg lo x (magOf p (lo + 1) * d - magOf p lo * d) then lo + 1 else lo

/-- A remainder `r` over `D` and a rest `x` over `G` that are in the same proportion vanish together. -/
theorem remainder_pos_iff {r x D G : Nat} (hD : 0 < D) (hG : 0 < G) (h : D * x = r * G) : 0 < r ↔ 0 < x := by
  constructor
  · intro hr
    exact Nat.pos_of_mul_pos_left (h ▸ Nat.mul_pos hr hG)
  · intro hx
    exact Nat.pos_of_mul_pos_right (h ▸ Nat.mul_pos hD hx)

/-- The choice of R135 step 3 does not depend on the unit, and of the quotient it sees the parity only. -/
theorem roundsUp_congr (rm : RoundMode) (neg : Bool) {n m r x D G : Nat} (hD : 0 < D) (hG : 0 < G)
    (h : D * x = r * G) (hpar : n % 2 = m % 2) : roundsUp rm neg n r D = roundsUp rm neg m x G := by
  have hpos := remainder_pos_iff hD hG h
  have hlt : D < 2 * r ↔ G < 2 * x := by
    rw [← Nat.mul_lt_mul_right hG, ← Nat.mul_lt_mul_left hD (b := G)]
    rw [show 2 * r * G = D * (2 * x) by rw [Nat.mul_assoc, ← h]; ring]
  have heq : 2 * r = D ↔ 2 * x = G := by
    rw [← Nat.mul_left_inj hG.ne', ← Nat.mul_right_inj hD.ne' (b := 2 * x)]
    rw [show 2 * r * G = D * (2 * x) by rw [Nat.mul_assoc, ← h]; ring]
  cases rm <;> simp only [roundsUp, hpos, hlt, heq, hpar]

/-- The magnitude of the quotient of R135 step 2 without its remainder. -/
def lowerMag (p : Prec) (a d : Nat) : Nat := ulpExp p a d * 2 ^ p.manBits + ulpNum p a d / ulpDen p a d

section
variable {a d : Nat} (ha : 0 < a) (hd : 0 < d)
include ha hd

/-- The magnitude below and the next one, in quanta: so many units in the last place, and one more. -/
theorem magOf_lowerMag :
    magOf p (lowerMag p a d) = ulpNum p a d / ulpDen p a d * 2 ^ ulpExp p a d ∧
      magOf p (lowerMag p a d + 1) = ulpNum p a d / ulpDen p a d * 2 ^ ulpExp p a d + 2 ^ ulpExp p a d := by
  obtain ⟨hq, hk⟩ := ulp_quotient_bounds (p := p) ha hd
  exact magOf_ulps hq hk

/-- The rest above the magnitude below is to the gap what the remainder is to the divisor. -/
theorem exists_below : ∃ x, Below p a d (lowerMag p a d) x ∧
    ulpDen p a d * x = ulpNum p a d % ulpDen p a d * (2 ^ ulpExp p a d * d) := by
  have hD := ulpDen_pos (p := p) (a := a) hd
  have hval := ulpNum_mul p a hd
  have hdm := Nat.div_add_mod (ulpNum p a d) (ulpDen p a d)
  have hmod := Nat.mod_lt (ulpNum p a d) hD
  obtain ⟨hlo, hhi⟩ := magOf_lowerMag (p := p) ha hd
  generalize ulpNum p a d / ulpDen p a d = q, ulpNum p a d % ulpDen p a d = r, ulpExp p a d = k at *
  have hsplit : ulpDen p a d * (a * 2 ^ p.scale) = ulpDen p a d * (q * 2 ^ k * d) + r * (2 ^ k * d) := by
    rw [Nat.mul_comm, ← hval, ← hdm]
    ring
  have hge : q * 2 ^ k * d ≤ a * 2 ^ p.scale := Nat.le_of_mul_le_mul_left (by omega) hD
  obtain ⟨x, hx⟩ := Nat.exists_eq_add_of_le hge
  have hrx : ulpDen p a d * x = r * (2 ^ k * d) := by
    rw [hx, Nat.mul_add] at hsplit
    omega
  have hxG : x < 2 ^ k * d := by
    refine Nat.lt_of_mul_lt_mul_left (a := ulpDen p a d) ?_
    rw [hrx]
    exact Nat.mul_lt_mul_of_pos_right hmod (by positivity)
  exact ⟨x, ⟨by rw [hx, hlo], by rw [hlo, hhi, Nat.add_mul]; omega⟩, hrx⟩

/-- The choice of R135 step 3 in terms of the rest. -/
theorem roundedMag_eq (rm : RoundMode) (neg : Bool) {x : Nat}
    (hx : ulpDen p a d * x = ulpNum p a d % ulpDen p a d * (2 ^ ulpExp p a d * d)) :
    roundedMag p rm neg a d = roundMag p rm neg d (lowerMag p a d) x := by
  obtain ⟨hlo, hhi⟩ := magOf_lowerMag (p := p) ha hd
  have hgap : magOf p (lowerMag p a d + 1) * d - magOf p (lowerMag p a d) * d = 2 ^ ulpExp p a d * d := by
    rw [hlo, hhi, Nat.add_mul, Nat.add_sub_cancel_left]
  have hpar : ulpNum p a d / ulpDen p a d % 2 = lowerMag p a d % 2 := by
    have : 2 ^ p.manBits % 2 = 0 := by cases p <;> rfl
    rw [lowerMag, Nat.add_mod, Nat.mul_mod, this]
    simp
  rw [roundMag, hgap, ← roundsUp_congr rm neg (ulpDen_pos hd) (by positivity) hx hpar, roundedMag, roundQuotient]
  show ulpExp p a d * _ + _ = _
  split <;> rfl

end

/-- What `round` delivers and signals for a nonzero exact value (R135 to R137). -/
theorem round_eq (p : Prec) (rm : RoundMode) {n : Int} {d : Nat} (zs : Bool) (hn : n ≠ 0) (hd : 0 < d) :
    ∃ lo x, Below p n.natAbs d lo x ∧
      Machine.round p rm n d zs =
        if p.infMag ≤ roundMag p rm (decide (n < 0)) d lo x then
          (overflowed p rm (decide (n < 0)), { ovf := true, inx := true })
        else
          (pack p (decide (n < 0)) (roundMag p rm (decide (n < 0)) d lo x),
            { inx := decide (x ≠ 0),
              udf := decide (x ≠ 0) && decide (n.natAbs * 2 ^ p.scale < 2 ^ p.manBits * d) }) := by
  have ha : 0 < n.natAbs := Int.natAbs_pos.mpr hn
  obtain ⟨x, hb, hx⟩ := exists_below (p := p) ha hd
  have hinx : ulpNum p n.natAbs d % ulpDen p n.natAbs d ≠ 0 ↔ x ≠ 0 := by
    rw [← Nat.pos_iff_ne_zero, ← Nat.pos_iff_ne_zero]
    exact remainder_pos_iff (ulpDen_pos hd) (by positivity) hx
  refine ⟨_, x, hb, ?_⟩
  rw [Machine.round, if_neg hn, roundedMag_eq ha hd rm _ hx]
  simp only [isTiny_eq, floorLog2_lt_emin_iff ha hd, hinx]

/-! ## The choice of the mode -/

/-- A mode that never leaves the magnitude below, at a given sign. -/
def truncates : RoundMode → Bool → Bool
  | .towardZero, _ | .towardPos, true | .towardNeg, false => true
  | .nearestEven, _ | .towardPos, false | .towardNeg, true => false

/-- A mode that leaves the magnitude below for any rest, at a given sign. -/
def expands : RoundMode → Bool → Bool
  | .towardPos, false | .towardNeg, true => true
  | .nearestEven, _ | .towardZero, _ | .towardPos, true | .towardNeg, false => false

/-- The magnitude that is chosen, and what the choice says of the rest `x` in the gap `G` to the next magnitude. -/
theorem roundMag_cases (p : Prec) (rm : RoundMode) (neg : Bool) (d lo x : Nat) {G : Nat}
    (hG : magOf p lo * d + G = magOf p (lo + 1) * d) :
    (roundMag p rm neg d lo x = lo ∧ (expands rm neg = true → x = 0) ∧
      (rm = .nearestEven → 2 * x ≤ G ∧ (2 * x = G → lo % 2 = 0))) ∨
    (roundMag p rm neg d lo x = lo + 1 ∧ (x = 0 → G = 0) ∧ truncates rm neg = false ∧
      (rm = .nearestEven → G ≤ 2 * x ∧ (2 * x = G → lo % 2 = 1))) := by
  have hgap : magOf p (lo + 1) * d - magOf p lo * d = G := by omega
  rw [roundMag, hgap]
  split
  · next h =>
    refine .inr ⟨rfl, ?_⟩
    cases rm <;> cases neg <;> simp [roundsUp, truncates] at h ⊢ <;> omega
  · next h =>
    refine .inl ⟨rfl, ?_⟩
    cases rm <;> cases neg <;> simp [roundsUp, expands] at h ⊢ <;> omega

namespace Below

variable {a d lo x : Nat}

/-- The gap to the next magnitude is more than the rest. -/
theorem exists_gap (h : Below p a d lo x) : ∃ G, x < G ∧ magOf p lo * d + G = magOf p (lo + 1) * d := by
  have hlt := h.rest_lt
  exact ⟨magOf p (lo + 1) * d - magOf p lo * d, by omega, by omega⟩

/-- The chosen magnitude is the exact value where there is no rest, and is on the side that the mode takes. -/
theorem roundMag_side (h : Below p a d lo x) (rm : RoundMode) (neg : Bool) :
    (x ≠ 0 ↔ magOf p (roundMag p rm neg d lo x) * d ≠ a * 2 ^ p.scale) ∧
      (truncates rm neg = true → magOf p (roundMag p rm neg d lo x) * d ≤ a * 2 ^ p.scale) ∧
      (expands rm neg = true → a * 2 ^ p.scale ≤ magOf p (roundMag p rm neg d lo x) * d) := by
  obtain ⟨G, hxG, hG⟩ := h.exists_gap
  rw [h.value]
  rcases roundMag_cases p rm neg d lo x hG with ⟨hm, hx, -⟩ | ⟨hm, hx, ht, -⟩ <;> rw [hm]
  · exact ⟨by omega, fun _ => by omega, fun he => by have := hx he; omega⟩
  · exact ⟨by omega, fun htr => absurd htr (by simp [ht]), fun _ => by omega⟩

/-- No magnitude lies strictly between the two neighbours of the exact value. -/
theorem trichotomy (_h : Below p a d lo x) (hd : 0 < d) (m : Nat) :
    (m < lo ∧ magOf p m * d < magOf p lo * d) ∨ m = lo ∨ m = lo + 1 ∨
      (lo + 1 < m ∧ magOf p (lo + 1) * d < magOf p m * d) := by
  have hmono : ∀ {i j : Nat}, i < j → magOf p i * d < magOf p j * d := fun hij =>
    Nat.mul_lt_mul_of_pos_right (magOf_strictMono p hij) hd
  rcases (by omega : m < lo ∨ m = lo ∨ m = lo + 1 ∨ lo + 1 < m) with hm | hm | hm | hm
  · exact .inl ⟨hm, hmono hm⟩
  · exact .inr (.inl hm)
  · exact .inr (.inr (.inl hm))
  · exact .inr (.inr (.inr ⟨hm, hmono hm⟩))

/-- The chosen magnitude against any other value of the format, `e` in units of `1 / d` of a quantum: `e` is not strictly
between it and the exact value; to nearest `e` is no nearer, and at an equal distance the chosen one is even. -/
theorem roundMag_nearest (h : Below p a d lo x) (hd : 0 < d) (rm : RoundMode) (neg : Bool) {m N A : Nat} {e : Int}
    (hm : roundMag p rm neg d lo x = m) (hN : magOf p m * d = N) (hA : a * 2 ^ p.scale = A) {j : Nat}
    (he : e = (magOf p j * d : Nat) ∨ e = -((magOf p j * d : Nat) : Int)) :
    ¬ (A < e ∧ e < N) ∧ ¬ (N < e ∧ e < A) ∧
      (rm = .nearestEven → ((N : Int) - A).natAbs ≤ (e - A).natAbs ∧
        (e ≠ N → ((N : Int) - A).natAbs = (e - A).natAbs → m % 2 = 0)) := by
  obtain ⟨G, hxG, hG⟩ := h.exists_gap
  have hj : magOf p j * d < magOf p lo * d ∨ magOf p j * d = magOf p lo * d ∨
      magOf p j * d = magOf p (lo + 1) * d ∨ magOf p (lo + 1) * d < magOf p j * d := by
    rcases h.trichotomy hd j with ⟨-, hj⟩ | rfl | rfl | ⟨-, hj⟩ <;> omega
  subst hm hN hA
  rw [h.value]
  rcases roundMag_cases p rm neg d lo x hG with ⟨hm, -, hn⟩ | ⟨hm, -, -, hn⟩ <;> rw [hm] <;>
    generalize magOf p lo * d = P, magOf p (lo + 1) * d = P', magOf p j * d = Y at * <;>
    rcases he with rfl | rfl <;>
    exact ⟨by omega, by omega, fun hrm => ⟨by have := hn hrm; omega, by have := hn hrm; omega⟩⟩

/-- When the chosen magnitude is that of the infinity or above, by the mode (R135 step 5): the last finite magnitude is
odd, so a tie goes to the infinity. -/
theorem overflow_iff (h : Below p a d lo x) (hd : 0 < d) (rm : RoundMode) (neg : Bool) :
    (truncates rm neg = true →
      (p.infMag ≤ roundMag p rm neg d lo x ↔ magOf p p.infMag * d ≤ a * 2 ^ p.scale)) ∧
    (expands rm neg = true →
      (p.infMag ≤ roundMag p rm neg d lo x ↔ magOf p (p.infMag - 1) * d < a * 2 ^ p.scale)) ∧
    (rm = .nearestEven →
      (p.infMag ≤ roundMag p rm neg d lo x ↔
        (magOf p (p.infMag - 1) + magOf p p.infMag) * d ≤ 2 * (a * 2 ^ p.scale))) ∧
    (p.infMag ≤ roundMag p rm neg d lo x → magOf p (p.infMag - 1) * d < a * 2 ^ p.scale) := by
  obtain ⟨G, hxG, hG⟩ := h.exists_gap
  have hodd : p.infMag % 2 = 0 ∧ 0 < p.infMag := by cases p <;> decide
  have hmono : magOf p (p.infMag - 1) * d < magOf p p.infMag * d :=
    Nat.mul_lt_mul_of_pos_right (magOf_strictMono p (by omega)) hd
  -- the neighbours against the last finite magnitude `K` and that of the infinity `I`
  have hside : (p.infMag ≤ lo ∧ magOf p p.infMag * d ≤ magOf p lo * d) ∨
      (lo + 1 = p.infMag ∧ magOf p lo * d = magOf p (p.infMag - 1) * d ∧
        magOf p (lo + 1) * d = magOf p p.infMag * d) ∨
      (lo + 1 < p.infMag ∧ magOf p (lo + 1) * d ≤ magOf p (p.infMag - 1) * d) := by
    have hle : ∀ {i j : Nat}, i ≤ j → magOf p i * d ≤ magOf p j * d := fun hij =>
      Nat.mul_le_mul_right d ((magOf_strictMono p).monotone hij)
    rcases (by omega : p.infMag ≤ lo ∨ lo + 1 = p.infMag ∨ lo + 1 < p.infMag) with hlo | hlo | hlo
    · exact .inl ⟨hlo, hle hlo⟩
    · exact .inr (.inl ⟨hlo, by rw [← hlo, Nat.add_sub_cancel], by rw [hlo]⟩)
    · exact .inr (.inr ⟨hlo, hle (by omega)⟩)
  rw [h.value, Nat.add_mul]
  rcases roundMag_cases p rm neg d lo x hG with ⟨hm, he, hn⟩ | ⟨hm, hx, ht, hn⟩ <;> rw [hm] <;>
    generalize magOf p lo * d = P, magOf p (lo + 1) * d = P', magOf p (p.infMag - 1) * d = K,
      magOf p p.infMag * d = I at *
  · exact ⟨fun _ => by omega, fun h => by have := he h; omega, fun h => by have := hn h; omega, by omega⟩
  · exact ⟨fun h => absurd h (by simp [ht]), fun _ => by omega, fun h => by have := hn h; omega, by omega⟩

end Below

/-! ## Patterns delivered -/

section
variable {m : Nat} (neg : Bool) (h : m < 2 ^ (p.width - 1))
include h

theorem magQuanta_pack : magQuanta (pack p neg m) = magOf p m := by
  rw [magQuanta_eq, magBits_pack neg h]

theorem quanta_pack : quanta (pack p neg m) = if neg then -(magOf p m : Int) else (magOf p m : Int) := by
  rw [quanta_eq, signOf_pack p neg h, magBits_pack neg h]

/-- The low bit of a pattern is that of its magnitude. -/
theorem getLsbD_zero_pack : (pack p neg m).getLsbD 0 = decide (m % 2 = 1) := by
  have heven : (if neg then 2 ^ (p.width - 1) else 0) % 2 = 0 := by cases p <;> cases neg <;> rfl
  rw [BitVec.getLsbD, toNat_pack p neg h, Nat.testBit_zero, Nat.add_mod, heven]
  simp

end

theorem infMag_eq (p : Prec) : p.infMag = (2 * p.bias + 1) * 2 ^ p.manBits := by cases p <;> rfl

/-- The infinity stands, in quanta, where the binade after the last finite one would begin. -/
theorem magOf_infMag (p : Prec) : magOf p p.infMag = p.overflowBound := by
  rw [infMag_eq, magOf_binade, Prec.overflowBound, Nat.add_comm]

theorem magQuanta_maxFiniteOf (p : Prec) (neg : Bool) : magQuanta (maxFiniteOf p neg) = magOf p (p.infMag - 1) :=
  magQuanta_pack neg (by have := infMag_lt p; omega)

/-- What `round` gives where it does not overflow: a magnitude next to the exact value, its sign and its signals. -/
theorem round_finite {rm : RoundMode} {n : Int} {d : Nat} {zs : Bool} (hn : n ≠ 0) (hd : 0 < d)
    (hovf : (Machine.round p rm n d zs).2.ovf = false) :
    ∃ lo x, Below p n.natAbs d lo x ∧ roundMag p rm (decide (n < 0)) d lo x < p.infMag ∧
      Machine.round p rm n d zs =
        (pack p (decide (n < 0)) (roundMag p rm (decide (n < 0)) d lo x),
          { inx := decide (x ≠ 0),
            udf := decide (x ≠ 0) && decide (n.natAbs * 2 ^ p.scale < 2 ^ p.manBits * d) }) := by
  obtain ⟨lo, x, hb, he⟩ := round_eq p rm zs hn hd
  refine ⟨lo, x, hb, ?_⟩
  rw [he] at hovf ⊢
  split at hovf
  · cases hovf
  · next hm => exact ⟨by omega, by rw [if_neg hm]⟩

/-- The value of a pattern with its sign, in units of `1 / d` of a quantum. -/
theorem quanta_mul (x : p.Pattern) (d : Nat) :
    quanta x * d = if signOf x = true then -((magOf p (magBits x) * d : Nat) : Int)
      else ((magOf p (magBits x) * d : Nat) : Int) := by
  rw [quanta_eq]
  split <;> simp

/-- A value of the format, whatever fraction gives it, is delivered as it is, with no signal. -/
theorem round_of_magOf {rm : RoundMode} {n : Int} {d m : Nat} {zs : Bool} (hn : n ≠ 0) (hd : 0 < d)
    (hval : n.natAbs * 2 ^ p.scale = magOf p m * d) (hm : m < p.infMag) :
    Machine.round p rm n d zs = (pack p (decide (n < 0)) m, Kinds.none) := by
  obtain ⟨lo, x, hb, he⟩ := round_eq p rm zs hn hd
  obtain ⟨G, hxG, hG⟩ := hb.exists_gap
  have hsum := hb.value
  rw [hval] at hsum
  obtain rfl : m = lo := by
    rcases hb.trichotomy hd m with ⟨-, h⟩ | h | h | ⟨-, h⟩
    · omega
    · exact h
    · rw [h] at hsum; omega
    · omega
  obtain rfl : x = 0 := by omega
  have hlo : roundMag p rm (decide (n < 0)) d m 0 = m := by
    rcases roundMag_cases p rm (decide (n < 0)) d m 0 hG with ⟨h, -⟩ | ⟨-, h, -⟩
    · exact h
    · have := h rfl; omega
  rw [he, hlo, if_neg (by omega)]
  rfl

/-- The exact value in quanta, with its sign, in units of `1 / d`. -/
theorem num_mul_eq (n : Int) (k : Nat) :
    n * 2 ^ k = if n < 0 then -((n.natAbs * 2 ^ k : Nat) : Int) else ((n.natAbs * 2 ^ k : Nat) : Int) := by
  split
  · next h =>
    rw [Nat.cast_mul, Int.ofNat_natAbs_of_nonpos h.le]
    push_cast
    ring
  · next h =>
    rw [Nat.cast_mul, Int.natAbs_of_nonneg (by omega)]
    push_cast
    rfl

/-! ## Rounding to an integer -/

/-- The floor of a negative quotient is one step further from zero where there is a remainder. -/
theorem fdiv_neg_natCast (m : Nat) {D : Nat} (hD : 0 < D) :
    (-(m : Int)).fdiv D = -((if 0 < m % D then m / D + 1 else m / D : Nat) : Int) := by
  rw [Int.fdiv_eq_ediv_of_nonneg _ (Int.natCast_nonneg D)]
  have hdm : (D : Int) * (m / D : Nat) + (m % D : Nat) = m := by exact_mod_cast Nat.div_add_mod m D
  have hlt := Nat.mod_lt m hD
  refine ((Int.ediv_emod_unique (r := if 0 < m % D then (D : Int) - (m % D : Nat) else 0)
    (by exact_mod_cast hD)).mpr ⟨?_, ?_, ?_⟩).1
  · split
    · push_cast at hdm ⊢
      linear_combination -hdm
    · have hr : m % D = 0 := by omega
      rw [hr] at hdm
      push_cast at hdm ⊢
      linear_combination -hdm
  · split <;> omega
  · split <;> omega

/-- To nearest: within one half, and even at one half (R133). -/
theorem roundQuotient_nearest (neg : Bool) (m : Nat) {D : Nat} (hD : 0 < D) :
    2 * ((m : Int) - roundQuotient .nearestEven neg m D * D).natAbs ≤ D ∧
      (2 * ((m : Int) - roundQuotient .nearestEven neg m D * D).natAbs = D →
        roundQuotient .nearestEven neg m D % 2 = 0) := by
  have hdm : (m : Int) = (m / D : Nat) * D + (m % D : Nat) := by
    rw [Int.mul_comm]; exact_mod_cast (Nat.div_add_mod m D).symm
  have hlt := Nat.mod_lt m hD
  rw [roundQuotient]
  split
  · next h =>
    have hrest : (m : Int) - ((m / D + 1 : Nat) : Int) * D = (m % D : Nat) - (D : Int) := by
      push_cast at hdm ⊢
      linear_combination hdm
    simp only [roundsUp, Bool.or_eq_true, decide_eq_true_eq, Bool.and_eq_true, beq_iff_eq] at h
    rw [hrest]
    exact ⟨by omega, by omega⟩
  · next h =>
    have hrest : (m : Int) - ((m / D : Nat) : Int) * D = (m % D : Nat) := by linear_combination hdm
    simp only [roundsUp, Bool.or_eq_true, decide_eq_true_eq, Bool.and_eq_true, beq_iff_eq] at h
    rw [hrest]
    exact ⟨by omega, by omega⟩

end Sys2Proof.Machine

open Sys2Proof Sys2Proof.Machine

/-- Settles O20: the exact value of a finite pattern is the magnitude of that pattern, with its sign. -/
theorem roundExact : Obligations.RoundExact := by
  refine ⟨fun p rm x d hx hd => ?_, fun p rm d zs => ?_⟩
  · by_cases hz : quanta x = 0
    · rw [hz, Int.zero_mul, Machine.round, if_pos rfl, zeroOf, ← (isZero_iff x).mp ((isZero_iff_quanta x).mpr hz),
        pack_magBits]
    · have hdq : (d : Int) ≠ 0 := by exact_mod_cast hd.ne'
      have habs : (quanta x * d).natAbs = magOf p (magBits x) * d := by
        rw [quanta_mul]
        split <;> omega
      have hneg : decide (quanta x * d < 0) = signOf x := by
        have hne := mul_ne_zero hz hdq
        rw [quanta_mul] at hne ⊢
        cases signOf x <;> simp at hne ⊢ <;> omega
      rw [round_of_magOf (m := magBits x) (mul_ne_zero hz hdq) (by positivity) (by rw [habs]; ring)
        ((isFinite_iff x).mp hx), hneg, pack_magBits]
  · rw [Machine.round, if_pos rfl]
    have hpos : 0 < 2 ^ (p.width - 1) := by positivity
    exact ⟨(isZero_iff _).mpr (magBits_pack zs hpos), signOf_pack p zs hpos, rfl⟩

/-- Settles O21: the delivered magnitude is a neighbour of the exact value, on the side the mode takes. -/
theorem roundDirected : Obligations.RoundDirected := by
  intro p rm n d zs hn hd hovf
  obtain ⟨lo, x, hb, hm, he⟩ := round_finite hn hd hovf
  have hw := hm.trans (infMag_lt p)
  obtain ⟨hinx, hdown, hup⟩ := hb.roundMag_side rm (decide (n < 0))
  rw [he]
  have hq := quanta_mul (pack p (decide (n < 0)) (roundMag p rm (decide (n < 0)) d lo x)) d
  rw [signOf_pack p _ hw, magBits_pack _ hw] at hq
  refine ⟨isFinite_pack p _ hm, signOf_pack p _ hw, ?_, rfl, ?_⟩
  · refine decide_eq_decide.mpr (hinx.trans ?_)
    rw [hq, num_mul_eq]
    by_cases hneg : n < 0 <;>
      simp only [hneg, decide_true, decide_false, if_true, if_false, Bool.false_eq_true] <;> omega
  · rw [hq, num_mul_eq]
    by_cases hneg : n < 0 <;>
      simp only [hneg, decide_true, decide_false, if_true, if_false, Bool.false_eq_true] at hdown hup ⊢ <;>
      refine ⟨?_, ?_, ?_⟩ <;> rintro rfl <;> simp only [truncates, expands, forall_const] at hdown hup <;> omega

/-- Settles O22: the value of a pattern in the direction of the exact value is one of the format's magnitudes or its
negative. -/
theorem roundNearest : Obligations.RoundNearest := by
  intro p rm n d zs y hn hd hovf hy
  obtain ⟨lo, x, hb, hm, he⟩ := round_finite hn hd hovf
  have hw := hm.trans (infMag_lt p)
  rw [he, getLsbD_zero_pack _ hw]
  have hq := quanta_mul (pack p (decide (n < 0)) (roundMag p rm (decide (n < 0)) d lo x)) d
  rw [signOf_pack p _ hw, magBits_pack _ hw] at hq
  have hy' := quanta_mul y d
  have hdi : (d : Int) ≠ 0 := by exact_mod_cast hd.ne'
  have hne : quanta y ≠ quanta (pack p (decide (n < 0)) (roundMag p rm (decide (n < 0)) d lo x)) ↔ 
    quanta y * d ≠ quanta (pack p (decide (n < 0)) (roundMag p rm (decide (n < 0)) d lo x)) * d :=
    not_congr (mul_left_inj' hdi).symm
  have hnear := fun e => hb.roundMag_nearest (e := e) (j := magBits y) hd rm (decide (n < 0)) rfl rfl rfl
  rw [hne, hq, num_mul_eq]
  generalize quanta y * d = v at *
  generalize magOf p (magBits y) * d = Y at *
  by_cases hneg : n < 0
  · simp only [hneg, decide_true, if_true] at hnear ⊢
    obtain ⟨h1, h2, h3⟩ := hnear (-v) (by split at hy' <;> omega)
    exact ⟨by omega, by omega, fun hrm => by have := (h3 hrm).1; omega, 
      fun hrm hne heq => decide_eq_false (by have := (h3 hrm).2; omega)⟩
  · simp only [hneg, decide_false, if_false, Bool.false_eq_true] at hnear ⊢
    obtain ⟨h1, h2, h3⟩ := hnear v (by split at hy' <;> omega)
    exact ⟨by omega, by omega, fun hrm => by have := (h3 hrm).1; omega, 
      fun hrm hne heq => decide_eq_false (by have := (h3 hrm).2; omega)⟩

/-- Settles O23, by the chosen magnitude in each mode. -/
theorem roundOverflow : Obligations.RoundOverflow := by
  intro p rm n d zs hn hd
  obtain ⟨lo, x, hb, he⟩ := round_eq p rm zs hn hd
  obtain ⟨htrunc, hexp, hnear, hlast⟩ := hb.overflow_iff hd rm (decide (n < 0))
  have habs : (n * 2 ^ p.scale).natAbs = n.natAbs * 2 ^ p.scale := by
    rw [num_mul_eq]; split <;> omega
  have hq : quanta (maxFiniteOf p false) = (magOf p (p.infMag - 1) : Nat) := by
    rw [quanta_eq, maxFiniteOf, signOf_pack p _ (by have := infMag_lt p; omega),
      magBits_pack _ (by have := infMag_lt p; omega)]
    rfl
  rw [habs, magQuanta_maxFiniteOf, hq, ← magOf_infMag, he]
  clear he
  generalize decide (n < 0) = neg at *
  generalize roundMag p rm neg d lo x = m at *
  by_cases hm : p.infMag ≤ m
  · rw [if_pos hm]
    simp only [hm, true_iff] at htrunc hexp hnear
    refine ⟨⟨fun _ => ?_, fun _ => rfl⟩, fun _ => ⟨rfl, by exact_mod_cast hlast hm, ?_⟩⟩
    · cases rm <;> cases neg <;> first | exact htrunc rfl | exact hexp rfl | exact hnear rfl
    · cases rm <;> cases neg <;> rfl
  · rw [if_neg hm]
    simp only [hm, false_iff] at htrunc hexp hnear
    refine ⟨⟨nofun, fun h => absurd h ?_⟩, nofun⟩
    cases rm <;> cases neg <;> first | exact htrunc rfl | exact hexp rfl | exact hnear rfl

/-- Settles O25: the value is its magnitude over `2^scale` with its sign. -/
theorem roundToIntCorrect : Obligations.RoundToIntCorrect := by
  intro p x _
  have hD : 0 < 2 ^ p.scale := by positivity
  obtain ⟨hhalf, htie⟩ := roundQuotient_nearest (signOf x) (magQuanta x) hD
  have hcast : (2 : Int) ^ p.scale = (2 ^ p.scale : Nat) := by push_cast; rfl
  simp only [hcast, roundToInt, quanta]
  generalize signOf x = neg, magQuanta x = m, 2 ^ p.scale = D at *
  cases neg with
  | false =>
    simp only [Bool.false_eq_true, if_false, ← Int.ofNat_fdiv, fdiv_neg_natCast m hD, neg_neg]
    refine ⟨?_, ?_, ?_, hhalf, fun h => by exact_mod_cast htie h⟩
    · exact Int.ofNat_tdiv m D
    · rfl
    · simp [roundQuotient, roundsUp]
  | true =>
    simp only [if_true, ← Int.ofNat_fdiv, fdiv_neg_natCast m hD, neg_neg]
    have hneg : ∀ N : Nat, (-(m : Int) - -(N : Int) * D).natAbs = ((m : Int) - N * D).natAbs := fun N => by
      rw [← Int.natAbs_neg]
      congr 1
      ring
    rw [hneg]
    refine ⟨?_, ?_, rfl, hhalf, fun h => by have := htie h; omega⟩
    · exact (congrArg Neg.neg (Int.ofNat_tdiv m D)).trans (Int.neg_tdiv ..).symm
    · simp [roundQuotient, roundsUp]

end

section
/-! PROOFS. SQRT: the integer root with its sticky bit stands on the same side of every rounding boundary as the real
root, so the pattern delivered is the real root rounded (R176). -/

namespace Sys2Proof.Machine

variable {p : Prec}

/-! ## The integer root -/

theorem isqrt_eq_sqrt {k fuel : Nat} (h : k < 4 ^ fuel) : isqrt k fuel = Nat.sqrt k := by
  induction fuel generalizing k with
  | zero =>
    obtain rfl : k = 0 := by simpa using h
    rfl
  | succ fuel ih =>
    rw [isqrt, ih (by rw [pow_succ] at h; omega)]
    obtain ⟨hle, hlt⟩ := Nat.eq_sqrt.mp (rfl : Nat.sqrt (k / 4) = Nat.sqrt (k / 4))
    generalize Nat.sqrt (k / 4) = r at hle hlt
    have hlo : 2 * r * (2 * r) ≤ k := by
      have h4 : 2 * r * (2 * r) = 4 * (r * r) := by ring
      omega
    have hhi : k < (2 * r + 1 + 1) * (2 * r + 1 + 1) := by
      have h4 : (2 * r + 1 + 1) * (2 * r + 1 + 1) = 4 * ((r + 1) * (r + 1)) := by ring
      omega
    split
    · next hodd => exact Nat.eq_sqrt.mpr ⟨hodd, hhi⟩
    · next heven => exact Nat.eq_sqrt.mpr ⟨hlo, Nat.lt_of_not_le heven⟩

theorem stickyRoot_eq (k : Nat) :
    stickyRoot k = 2 * Nat.sqrt k + if Nat.sqrt k * Nat.sqrt k = k then 0 else 1 := by
  have hfuel : k < 4 ^ (k.log2 / 2 + 1) := by
    refine Nat.lt_log2_self.trans_le ?_
    rw [show (4 : Nat) = 2 ^ 2 by rfl, ← pow_mul]
    exact Nat.pow_le_pow_right (by omega) (by omega)
  rw [stickyRoot, isqrt_eq_sqrt hfuel]

/-- Twice an integer compares with the sticky root as the integer does with the real root. -/
theorem two_mul_le_stickyRoot_iff (b k : Nat) : 2 * b ≤ stickyRoot k ↔ b * b ≤ k := by
  rw [← Nat.le_sqrt, stickyRoot_eq]
  split <;> omega

theorem two_mul_eq_stickyRoot_iff (b k : Nat) : 2 * b = stickyRoot k ↔ b * b = k := by
  have hroot : b * b = k → Nat.sqrt k = b := fun h => h ▸ Nat.sqrt_eq b
  rw [stickyRoot_eq]
  split
  · next h =>
    refine ⟨fun hb => ?_, fun hb => by rw [hroot hb]; rfl⟩
    obtain rfl : b = Nat.sqrt k := by omega
    exact h
  · next h =>
    refine ⟨fun hb => by omega, fun hb => absurd ?_ h⟩
    rw [hroot hb, hb]

/-! ## The units of the root -/

/-- Half of what the scale of the operand exceeds the shift of R176 by: the root of the radicand counts `2^rootExp`
quanta. -/
def rootExp : Prec → Nat
  | .single => 49
  | .double => 483

/-- The denominator of the root that `sqrtCore` rounds. -/
def rootDen (p : Prec) : Nat := 2 ^ ((p.scale + sqrtShift p) / 2 + 1)

theorem rootDen_pos (p : Prec) : 0 < rootDen p := by
  unfold rootDen
  positivity

/-- A multiple of `2^rootExp` compares with the sticky root as its square does with the operand. -/
theorem mul_rootDen_iff (x : p.Pattern) {z : Nat} (hz : 2 ^ rootExp p ∣ z) :
    (z * rootDen p ≤ stickyRoot (sqrtRadicand x) * 2 ^ p.scale ↔ z ^ 2 ≤ magQuanta x * 2 ^ p.scale) ∧
      (z * rootDen p = stickyRoot (sqrtRadicand x) * 2 ^ p.scale ↔ z ^ 2 = magQuanta x * 2 ^ p.scale) := by
  obtain ⟨b, rfl⟩ := hz
  have hunit : 2 * 2 ^ p.scale = 2 ^ rootExp p * rootDen p := by
    rw [rootDen, ← pow_add, ← pow_succ']
    exact congrArg (2 ^ ·) (by cases p <;> rfl)
  have hsquare : 2 ^ p.scale = 2 ^ rootExp p * 2 ^ rootExp p * 2 ^ sqrtShift p := by
    rw [← pow_add, ← pow_add]
    exact congrArg (2 ^ ·) (by cases p <;> rfl)
  have hpos : 0 < 2 ^ rootExp p * rootDen p := Nat.mul_pos (by positivity) (rootDen_pos p)
  have hpos' : 0 < 2 ^ rootExp p * 2 ^ rootExp p := by positivity
  have hl : 2 * (2 ^ rootExp p * b * rootDen p) = 2 * b * (2 ^ rootExp p * rootDen p) := by ring
  have hr : 2 * (stickyRoot (sqrtRadicand x) * 2 ^ p.scale) =
      stickyRoot (sqrtRadicand x) * (2 ^ rootExp p * rootDen p) := by rw [← hunit]; ring
  have hl' : (2 ^ rootExp p * b) ^ 2 = b * b * (2 ^ rootExp p * 2 ^ rootExp p) := by ring
  have hr' : magQuanta x * 2 ^ p.scale = sqrtRadicand x * (2 ^ rootExp p * 2 ^ rootExp p) := by
    rw [sqrtRadicand, hsquare]; ring
  constructor
  · rw [← Nat.mul_le_mul_left_iff (show 0 < 2 by omega), hl, hr, Nat.mul_le_mul_right_iff hpos,
      two_mul_le_stickyRoot_iff, hl', hr', Nat.mul_le_mul_right_iff hpos']
  · rw [← Nat.mul_right_inj (show 2 ≠ 0 by omega), hl, hr, Nat.mul_left_inj hpos.ne', two_mul_eq_stickyRoot_iff,
      hl', hr', Nat.mul_left_inj hpos'.ne']

/-! ## The neighbours of the root -/

/-- A magnitude is a whole number, below `2^(M_f + 1)`, of units in the last place. -/
theorem exists_magOf_eq (p : Prec) (m : Nat) :
    ∃ i < 2 ^ (p.manBits + 1), magOf p m = i * 2 ^ (m / 2 ^ p.manBits - 1) := by
  have hlt : m % 2 ^ p.manBits < 2 ^ p.manBits := Nat.mod_lt _ (by positivity)
  rw [pow_succ]
  by_cases h : m / 2 ^ p.manBits = 0
  · exact ⟨m % 2 ^ p.manBits, by omega, by simp [magOf, h]⟩
  · exact ⟨2 ^ p.manBits + m % 2 ^ p.manBits, by omega, by simp [magOf, h]⟩

/-- From the root's first binade on, a magnitude is a multiple of `2^(rootExp + 1)`. -/
theorem two_pow_dvd_magOf {m e : Nat} (h : (e + 1) * 2 ^ p.manBits ≤ m) : 2 ^ e ∣ magOf p m := by
  obtain ⟨i, -, hi⟩ := exists_magOf_eq p m
  have he : e + 1 ≤ m / 2 ^ p.manBits := (Nat.le_div_iff_mul_le (by positivity)).mpr h
  rw [hi]
  exact Dvd.dvd.mul_left (pow_dvd_pow 2 (by omega)) i

/-- No midpoint of two neighbours is the root of a value of the format: its square has too many significant bits. -/
theorem midpoint_sq_ne {lo mx : Nat} (hlo : 2 ^ p.manBits ≤ lo) (hmx : 0 < magOf p mx) (j : Nat) :
    (magOf p lo + magOf p (lo + 1)) ^ 2 ≠ magOf p mx * 2 ^ j := by
  intro heq
  obtain ⟨i, hi, hval⟩ := exists_magOf_eq p mx
  have hfield : lo / 2 ^ p.manBits ≠ 0 := by
    have := Nat.div_pos hlo (by positivity)
    omega
  have hsum : magOf p lo + magOf p (lo + 1) =
      (2 * (2 ^ p.manBits + lo % 2 ^ p.manBits) + 1) * 2 ^ (lo / 2 ^ p.manBits - 1) := by
    rw [magOf_succ, magOf, if_neg hfield]
    ring
  generalize ho : 2 * (2 ^ p.manBits + lo % 2 ^ p.manBits) + 1 = o at hsum
  have hodd : o % 2 = 1 := by omega
  have hdvd : o ^ 2 ∣ i * (2 ^ (mx / 2 ^ p.manBits - 1) * 2 ^ j) := by
    rw [hsum, hval, mul_pow, mul_assoc] at heq
    exact heq ▸ Dvd.intro _ rfl
  have hcop : Nat.Coprime (o ^ 2) (2 ^ (mx / 2 ^ p.manBits - 1) * 2 ^ j) := by
    rw [← pow_add]
    exact Nat.Coprime.pow _ _ (Nat.coprime_two_right.mpr (Nat.odd_iff.mpr hodd))
  have hle := Nat.le_of_dvd (by
    refine Nat.pos_of_ne_zero fun h => ?_
    rw [hval, h, Nat.zero_mul] at hmx
    omega) (hcop.dvd_of_dvd_mul_right hdvd)
  rw [pow_succ] at hi
  have hself : o ≤ o ^ 2 := Nat.le_self_pow (by omega) o
  omega

/-! ## The root of a positive number -/

theorem pack_false_add_one (p : Prec) (m : Nat) : pack p false m + 1 = pack p false (m + 1) := by
  simp only [pack, Bool.false_eq_true, if_false, Nat.zero_add]
  exact (BitVec.ofNat_add m 1).symm

theorem pack_false_sub_one (p : Prec) (m : Nat) : pack p false (m + 1) - 1 = pack p false m := by
  rw [← pack_false_add_one, BitVec.add_sub_cancel]

theorem magQuanta_pos {x : p.Pattern} (hz : isZero x = false) : 0 < magQuanta x := by
  refine Nat.pos_of_ne_zero fun h => ?_
  have h0 : quanta x = 0 := by simp [quanta, h]
  rw [(isZero_iff_quanta x).mpr h0] at hz
  cases hz

/-- The magnitudes between which the real root of the magnitude `mx` lies: the square of the lower one is not above the
operand `V`, that of the next one is above, both are multiples of `2^(rootExp + 1)`, normal and finite, and the midpoint
is not the root. -/
structure RootBetween (p : Prec) (V lo : Nat) : Prop where
  sq_le : magOf p lo ^ 2 ≤ V
  lt_sq : V < magOf p (lo + 1) ^ 2
  midpoint_ne : (magOf p lo + magOf p (lo + 1)) ^ 2 ≠ 4 * V
  le : (rootExp p + 2) * 2 ^ p.manBits ≤ lo
  lt : lo + 1 < p.infMag

/-- The magnitude below the root that `sqrtCore` rounds is the magnitude below the real root. -/
theorem rootBetween_of_below {x : p.Pattern} (hx : isFinite x = true) (hz : isZero x = false) {lo r : Nat}
    (hb : Below p (stickyRoot (sqrtRadicand x)) (rootDen p) lo r) :
    RootBetween p (magQuanta x * 2 ^ p.scale) lo := by
  have hd := rootDen_pos p
  have hX := magQuanta_pos hz
  have hXlt : magQuanta x < 2 ^ (2 * p.bias + p.manBits) := by
    have h := magOf_lt_of_finite hx
    rwa [magOf_infMag, ← magQuanta_eq] at h
  -- the first and the last magnitude that the root of a finite operand can have
  have hfirst : 2 ^ (p.manBits + (rootExp p + 1)) * rootDen p ≤ stickyRoot (sqrtRadicand x) * 2 ^ p.scale := by
    refine (mul_rootDen_iff x (pow_dvd_pow 2 (by omega))).1.mpr ?_
    calc (2 ^ (p.manBits + (rootExp p + 1))) ^ 2 = 2 ^ ((p.manBits + (rootExp p + 1)) * 2) := (pow_mul ..).symm
      _ ≤ 2 ^ p.scale := Nat.pow_le_pow_right (by omega) (by cases p <;> decide)
      _ ≤ magQuanta x * 2 ^ p.scale := Nat.le_mul_of_pos_left _ hX
  have hlast : stickyRoot (sqrtRadicand x) * 2 ^ p.scale < 2 ^ (p.manBits + (2 * p.bias - 1)) * rootDen p := by
    refine Nat.lt_of_not_le fun h => ?_
    have hle := (mul_rootDen_iff x (pow_dvd_pow 2 (by cases p <;> decide))).1.mp h
    refine absurd hle (Nat.not_le.mpr ?_)
    calc magQuanta x * 2 ^ p.scale < 2 ^ (2 * p.bias + p.manBits) * 2 ^ p.scale :=
          Nat.mul_lt_mul_of_pos_right hXlt (by positivity)
      _ = 2 ^ (2 * p.bias + p.manBits + p.scale) := (pow_add ..).symm
      _ ≤ 2 ^ ((p.manBits + (2 * p.bias - 1)) * 2) := Nat.pow_le_pow_right (by omega) (by cases p <;> decide)
      _ = (2 ^ (p.manBits + (2 * p.bias - 1))) ^ 2 := pow_mul ..
  have hval := hb.value
  have hlt := hb.rest_lt
  have hlo : (rootExp p + 2) * 2 ^ p.manBits ≤ lo := by
    rw [← magOf_binade] at hfirst
    rcases hb.trichotomy hd ((rootExp p + 1 + 1) * 2 ^ p.manBits) with ⟨h, -⟩ | h | h | ⟨-, h⟩
    · exact h.le
    · exact h.le
    · rw [h] at hfirst; omega
    · omega
  have hhi : lo < (2 * p.bias - 1 + 1) * 2 ^ p.manBits := by
    rw [← magOf_binade] at hlast
    rcases hb.trichotomy hd ((2 * p.bias - 1 + 1) * 2 ^ p.manBits) with ⟨-, h⟩ | h | h | ⟨h, -⟩
    · omega
    · rw [h] at hlast; omega
    · omega
    · omega
  have hdvd : 2 ^ rootExp p ∣ magOf p lo :=
    two_pow_dvd_magOf (le_trans (Nat.mul_le_mul_right _ (by omega)) hlo)
  have hdvd' : 2 ^ rootExp p ∣ magOf p (lo + 1) :=
    two_pow_dvd_magOf (le_trans (Nat.mul_le_mul_right _ (by omega)) (hlo.trans (Nat.le_succ lo)))
  refine ⟨(mul_rootDen_iff x hdvd).1.mp (by omega), Nat.lt_of_not_le fun h => ?_, ?_, hlo, ?_⟩
  · have := (mul_rootDen_iff x hdvd').1.mpr h
    omega
  · have hfour : 4 * (magQuanta x * 2 ^ p.scale) = magOf p (magBits x) * 2 ^ (p.scale + 2) := by
      rw [magQuanta_eq, pow_add]
      ring
    rw [hfour]
    refine midpoint_sq_ne ?_ (magQuanta_eq x ▸ hX) _
    exact le_trans (Nat.le_mul_of_pos_left _ (by omega)) hlo
  · have hinf : lo + 1 ≤ (2 * p.bias - 1 + 1) * 2 ^ p.manBits := hhi
    rw [infMag_eq]
    exact lt_of_le_of_lt hinf (Nat.mul_lt_mul_of_pos_right (by cases p <;> decide) (by positivity))

namespace RootBetween

variable {V lo : Nat}

/-- The magnitudes about the root are multiples of `2^(rootExp + 1)`. -/
theorem dvd (h : RootBetween p V lo) {m : Nat} (hm : lo ≤ m) : 2 ^ (rootExp p + 1) ∣ magOf p m :=
  two_pow_dvd_magOf (h.le.trans hm)

/-- The magnitude before the lower one, and its midpoint with it, are below the root. -/
theorem prev_lt {k : Nat} (h : RootBetween p V (k + 1)) :
    magOf p k ^ 2 < V ∧ (magOf p (k + 1) + magOf p k) ^ 2 < 4 * V := by
  have hprev : magOf p k < magOf p (k + 1) := magOf_strictMono p (by omega)
  refine ⟨lt_of_lt_of_le (Nat.pow_lt_pow_left hprev (by omega)) h.sq_le, ?_⟩
  calc (magOf p (k + 1) + magOf p k) ^ 2 < (2 * magOf p (k + 1)) ^ 2 := Nat.pow_lt_pow_left (by omega) (by omega)
    _ = 4 * magOf p (k + 1) ^ 2 := by ring
    _ ≤ 4 * V := Nat.mul_le_mul_left 4 h.sq_le

/-- The midpoint of the next magnitude with the one after it is above the root. -/
theorem lt_next (h : RootBetween p V lo) : 4 * V < (magOf p (lo + 1) + magOf p (lo + 1 + 1)) ^ 2 := by
  have hnext : magOf p (lo + 1) < magOf p (lo + 1 + 1) := magOf_strictMono p (by omega)
  calc 4 * V < 4 * magOf p (lo + 1) ^ 2 := Nat.mul_lt_mul_of_pos_left h.lt_sq (by omega)
    _ = (2 * magOf p (lo + 1)) ^ 2 := by ring
    _ < (magOf p (lo + 1) + magOf p (lo + 1 + 1)) ^ 2 := Nat.pow_lt_pow_left (by omega) (by omega)

variable {x : p.Pattern} {r G : Nat}

/-- There is no rest exactly where the lower magnitude is the root. -/
theorem rest_eq_zero_iff (h : RootBetween p (magQuanta x * 2 ^ p.scale) lo)
    (hb : Below p (stickyRoot (sqrtRadicand x)) (rootDen p) lo r) :
    r = 0 ↔ magOf p lo ^ 2 = magQuanta x * 2 ^ p.scale := by
  rw [← (mul_rootDen_iff x ((pow_dvd_pow 2 (Nat.le_succ _)).trans (h.dvd le_rfl))).2, hb.value]
  omega

/-- The rest is in the upper half of the gap exactly where the midpoint is below the root, and never at the middle. -/
theorem rest_half_iff (h : RootBetween p (magQuanta x * 2 ^ p.scale) lo)
    (hb : Below p (stickyRoot (sqrtRadicand x)) (rootDen p) lo r)
    (hG : magOf p lo * rootDen p + G = magOf p (lo + 1) * rootDen p) :
    (G ≤ 2 * r ↔ (magOf p lo + magOf p (lo + 1)) ^ 2 ≤ 4 * (magQuanta x * 2 ^ p.scale)) ∧ 2 * r ≠ G := by
  obtain ⟨w, hw⟩ := Nat.dvd_add (h.dvd le_rfl) (h.dvd (Nat.le_succ lo))
  obtain ⟨hle, heq⟩ := mul_rootDen_iff x (Dvd.intro w rfl)
  have hmid := h.midpoint_ne
  have hval := hb.value
  have hw' : magOf p lo + magOf p (lo + 1) = 2 * (2 ^ rootExp p * w) := by rw [hw]; ring
  have hmul : 2 * (2 ^ rootExp p * w * rootDen p) = magOf p lo * rootDen p + magOf p (lo + 1) * rootDen p := by
    rw [← Nat.add_mul, hw']
    ring
  have hsquare : (2 * (2 ^ rootExp p * w)) ^ 2 = 4 * (2 ^ rootExp p * w) ^ 2 := by ring
  rw [hw', hsquare] at hmid
  rw [hw', hsquare, Nat.mul_le_mul_left_iff (by omega), ← hle, hval]
  refine ⟨by omega, fun htie => hmid (congrArg (4 * ·) (heq.mp ?_))⟩
  omega

end RootBetween

/-- What `sqrtCore` gives for a positive number: the magnitude the mode chooses next to the real root, and INX for a
rest; the comparisons with the exact value of R176 are those of the squares with the operand. -/
theorem sqrtCore_eq (rm : RoundMode) {x : p.Pattern} (hx : isFinite x = true) (hz : isZero x = false)
    (hs : signOf x = false) :
    ∃ lo r, RootBetween p (magQuanta x * 2 ^ p.scale) lo ∧
      Below p (stickyRoot (sqrtRadicand x)) (rootDen p) lo r ∧
      sqrtCore p rm x = (pack p false (roundMag p rm false (rootDen p) lo r), { inx := decide (r ≠ 0) }) := by
  have hcore : sqrtCore p rm x = Machine.round p rm (stickyRoot (sqrtRadicand x) : Int) (rootDen p) false := by
    simp [sqrtCore, hz, hs, isInf_eq_false_of_finite hx, rootDen]
  have hroot : ((stickyRoot (sqrtRadicand x) : Nat) : Int) ≠ 0 := by
    have hk : 0 < sqrtRadicand x := Nat.mul_pos (magQuanta_pos hz) (by positivity)
    have := (two_mul_eq_stickyRoot_iff 0 (sqrtRadicand x)).not.mpr (by omega)
    omega
  obtain ⟨lo, r, hb, he⟩ := round_eq p rm false hroot (rootDen_pos p)
  rw [Int.natAbs_natCast] at hb he
  have hneg : decide (((stickyRoot (sqrtRadicand x) : Nat) : Int) < 0) = false := by simp
  have hbet := rootBetween_of_below hx hz hb
  have hm : roundMag p rm false (rootDen p) lo r ≤ lo + 1 := by
    unfold roundMag
    split <;> omega
  have htiny : ¬ stickyRoot (sqrtRadicand x) * 2 ^ p.scale < 2 ^ p.manBits * rootDen p := by
    have hnorm : (0 + 1) * 2 ^ p.manBits ≤ lo := (Nat.mul_le_mul_right _ (by omega)).trans hbet.le
    have hmono := Nat.mul_le_mul_right (rootDen p) ((magOf_strictMono p).monotone hnorm)
    rw [magOf_binade, Nat.add_zero] at hmono
    rw [hb.value]
    omega
  have hlt := hbet.lt
  refine ⟨lo, r, hbet, hb, ?_⟩
  rw [hcore, he, hneg, if_neg (by omega), decide_eq_false htiny, Bool.and_false]

end Sys2Proof.Machine

open Sys2Proof Sys2Proof.Machine

/-- Settles O24, by the chosen magnitude in each mode. -/
theorem sqrtCorrect : Obligations.SqrtCorrect := by
  intro p rm x hx hz hs
  obtain ⟨lo, r, hbet, hb, he⟩ := sqrtCore_eq rm hx hz hs
  obtain ⟨k, rfl⟩ : ∃ k, lo = k + 1 := ⟨lo - 1, by
    have : 0 < lo := lt_of_lt_of_le (by positivity) hbet.le
    omega⟩
  obtain ⟨G, hrG, hG⟩ := hb.exists_gap
  obtain ⟨hsq0, hbelow⟩ := hbet.prev_lt
  have hrest := hbet.rest_eq_zero_iff hb
  have hhalf := hbet.rest_half_iff hb hG
  have hhi := hbet.lt
  have hq : ∀ m, m ≤ k + 3 → magQuanta (pack p false m) = magOf p m := fun m hm =>
    magQuanta_pack false (by have := infMag_lt p; omega)
  have hw := infMag_lt p
  rw [he]
  rcases roundMag_cases p rm false (rootDen p) (k + 1) r hG with ⟨hm, hexp, hnear⟩ | ⟨hm, hr0, htrunc, hnear⟩
  · simp only [hm, pack_false_add_one, pack_false_sub_one, hq _ (show k ≤ k + 3 by omega),
      hq _ (show k + 1 ≤ k + 3 by omega), hq _ (show k + 1 + 1 ≤ k + 3 by omega)]
    refine ⟨by simp only [ne_eq, hrest], isFinite_pack p false (by omega), signOf_pack p false (by omega),
      fun _ => ⟨hbet.sq_le, hbet.lt_sq⟩, ?_, fun hrm => ⟨?_, hbelow⟩⟩
    · rintro rfl
      exact ⟨(hrest.mp (hexp rfl)).ge, hsq0⟩
    · have := (hnear hrm).1
      omega
  · simp only [hm, pack_false_add_one, pack_false_sub_one, hq _ (show k + 1 ≤ k + 3 by omega),
      hq _ (show k + 1 + 1 ≤ k + 3 by omega), hq _ (show k + 1 + 1 + 1 ≤ k + 3 by omega)]
    have hr : r ≠ 0 := by omega
    refine ⟨?_, isFinite_pack p false (by omega), signOf_pack p false (by omega), ?_,
      fun _ => ⟨hbet.lt_sq.le, lt_of_le_of_ne hbet.sq_le (hrest.not.mp hr)⟩, fun hrm => ⟨hbet.lt_next, ?_⟩⟩
    · rw [decide_eq_true hr, decide_eq_true hbet.lt_sq.ne']
    · rintro (rfl | rfl) <;> cases htrunc
    · rw [Nat.add_comm (magOf p (k + 1 + 1))]
      exact lt_of_le_of_ne (hhalf.1.mp (hnear hrm).1) hbet.midpoint_ne

end

section
/-! PROOFS. The arithmetic instructions with every exception masked: each core by the classes of its operands, and the
end of an instruction (`arith`), which is the same for all of them. -/

namespace Sys2Proof.Machine

variable {p : Prec}

/-! ## The end of an arithmetic instruction -/

/-- A masked instruction that ends in `arith`: a quiet NaN for a NaN operand, the core's result otherwise; `nan`, `snan`
and `sub` tell what the operands are. -/
theorem exec_arith {i : Instr} {list : Kinds} {fd : FReg} {ops : List p.Pattern} {core : Result p} {s : State}
    {nan snan sub : Bool} (he : exec i s = withForm i (arith p list fd ops core s)) (hf : i.wellFormed = true)
    (hm : Masked s) (hl : nan = false → ∀ k, core.2.has k = true → list.has k = true) (hs : list.subo = true)
    (hi : list.inval = true) (hnan : ops.any isNaN = nan) (hsnan : ops.any isSNaN = snan)
    (hsub : ops.any isSub = sub) :
    ∃ t, exec i s = .next t ∧
      (nan = true → FpDone p fd list { inval := snan, subo := sub } (fun r => classOf r = .qnan) s t) ∧
      (∀ r, nan = false → core = r → FpDone p fd list (r.2.union { subo := sub }) (· = r.1) s t) := by
  subst hnan hsnan hsub
  rw [he, withForm_eq hf]
  cases hnan : ops.any isNaN with
  | false =>
    obtain ⟨t, ht, -, hn⟩ := arith_masked (fd := fd) (ops := ops) hm (hl hnan) hs hi
    exact ⟨t, ht, nofun, fun r _ hr => hr ▸ hn hnan⟩
  | true =>
    have hcore : arith p list fd ops core s = arith p list fd ops (core.1, Kinds.none) s := by simp [arith, hnan]
    obtain ⟨t, ht, hq, -⟩ := arith_masked (p := p) (list := list) (fd := fd) (ops := ops)
      (core := (core.1, Kinds.none)) hm (by simp) hs hi
    exact ⟨t, hcore ▸ ht, fun _ => hq hnan, nofun⟩

/-- A set of kinds is in a list that it adds nothing to. -/
theorem Kinds.has_of_union {list sig : Kinds} (h : list.union sig = list) (k : Kind) (hk : sig.has k = true) :
    list.has k = true := by
  rw [← h, Kinds.has_union, hk, Bool.or_true]

/-- SUBO joins a set of kinds that does not have it. -/
theorem Kinds.union_subo {sig : Kinds} (h : sig.subo = false) (b : Bool) :
    sig.union { subo := b } = { sig with subo := b } := by
  simp [Kinds.union, h]

/-- A set without DIV0 and HUGI is in the list of ADD, SUB, MUL and MAC. -/
theorem listArith_has {sig : Kinds} (hd : sig.div0 = false) (hh : sig.hugi = false) :
    ∀ k, sig.has k = true → listArith.has k = true :=
  Kinds.has_of_union (by simp [Kinds.union, listArith, hd, hh])

/-- A set without HUGI is in the list of DIV. -/
theorem listDiv_has {sig : Kinds} (hh : sig.hugi = false) : ∀ k, sig.has k = true → listDiv.has k = true :=
  Kinds.has_of_union (by simp [Kinds.union, listDiv, hh])

/-- A zero or an infinity is neither a NaN nor subnormal. -/
theorem not_nan_not_sub {x : p.Pattern} (h : isZero x = true ∨ isInf x = true) :
    isNaN x = false ∧ isSub x = false := by
  rcases h with h | h
  · exact ⟨isNaN_eq_false_of_finite (isFinite_of_zero h), isSub_eq_false_of_zero h⟩
  · exact ⟨isNaN_eq_false_of_inf h, isSub_eq_false_of_inf h⟩

/-! ## ADD and SUB -/

section
variable (rm : RoundMode) {x y : p.Pattern}

theorem addCore_opposite (hx : isInf x = true) (hy : isInf y = true) (hs : signOf x ≠ signOf y) :
    addCore p rm x y = invalid p := by
  simp [addCore, hx, hy, hs]

theorem addCore_inf_left (hx : isInf x = true) (hs : isInf y = true → signOf x = signOf y) :
    addCore p rm x y = (x, Kinds.none) := by
  cases hy : isInf y
  · simp [addCore, hx, hy]
  · simp [addCore, hx, hs hy]

theorem addCore_inf_right (hx : isInf x = false) (hy : isInf y = true) : addCore p rm x y = (y, Kinds.none) := by
  simp [addCore, hx, hy]

theorem addCore_finite (hx : isInf x = false) (hy : isInf y = false) :
    addCore p rm x y =
      Machine.round p rm (quanta x + quanta y) (2 ^ p.scale) (zeroSumSign rm (signOf x) (signOf y)) := by
  simp [addCore, hx, hy]

/-- A sum signals neither DIV0 nor HUGI nor, of itself, SUBO. -/
theorem addCore_kinds (x y : p.Pattern) : (addCore p rm x y).2.subo = false ∧ (addCore p rm x y).2.hugi = false ∧
    (addCore p rm x y).2.div0 = false := by
  unfold addCore
  split_ifs
  · exact ⟨rfl, rfl, rfl⟩
  · exact ⟨rfl, rfl, rfl⟩
  · exact ⟨rfl, rfl, rfl⟩
  · exact (round_kinds ..).2

end

/-- A masked instruction that adds `x` and `y` (R171), its operands being NaNs as these are. -/
theorem sumDone_of_exec {i : Instr} {fd : FReg} {ops : List p.Pattern} {x y : p.Pattern} {sub : Bool} {s : State}
    (he : exec i s = withForm i (arith p listArith fd ops (addCore p s.rm x y) s)) (hf : i.wellFormed = true)
    (hm : Masked s) (hnan : ops.any isNaN = (isNaN x || isNaN y)) (hsnan : ops.any isSNaN = (isSNaN x || isSNaN y))
    (hsub : ops.any isSub = sub) : ∃ t, exec i s = .next t ∧ SumDone p fd s.rm x y sub s t := by
  obtain ⟨-, hhugi, hdiv0⟩ := addCore_kinds s.rm x y
  obtain ⟨t, ht, hq, hn⟩ := exec_arith he hf hm (fun _ => listArith_has hdiv0 hhugi) rfl rfl hnan hsnan hsub
  refine ⟨t, ht, fun h => hq (by simpa using h), fun hx hy hs => ?_, fun hx hy hs => ?_, fun hx hy => ?_,
    fun hx hy => ?_⟩
  · exact hn _ (by simp [isNaN_eq_false_of_inf, hx, hy]) (addCore_opposite _ hx hy hs)
  · exact hn _ (by simp [isNaN_eq_false_of_inf, hx, hy]) (addCore_inf_left _ hx hs)
  · exact hn _ (by simp [isNaN_eq_false_of_inf, isNaN_eq_false_of_finite, hx, hy])
      (addCore_inf_right _ (isInf_eq_false_of_finite hx) hy)
  · have h := hn _ (by simp [isNaN_eq_false_of_finite, hx, hy])
      (addCore_finite _ (isInf_eq_false_of_finite hx) (isInf_eq_false_of_finite hy))
    rwa [Kinds.union_subo (round_kinds ..).2.1] at h

/-! ## The sign bit -/

theorem getLsbD_signBit (p : Prec) (i : Nat) : p.signBit.getLsbD i = decide (i = p.width - 1) := by
  have hw : 0 < p.width := by cases p <;> decide
  rw [Prec.signBit, BitVec.getLsbD_ofNat, Nat.testBit_two_pow]
  by_cases h : i = p.width - 1
  · simp [h, hw]
  · simp [h, Ne.symm h]

section
variable (x : p.Pattern)

theorem msb_negate : (negate x).msb = !x.msb := by
  simp [negate, BitVec.msb_eq_getLsbD_last, getLsbD_signBit]

theorem msb_magnitude : (magnitude x).msb = false := by
  simp [magnitude, BitVec.msb_eq_getLsbD_last, getLsbD_signBit]

theorem getLsbD_negate {i : Nat} (h : i < p.width - 1) : (negate x).getLsbD i = x.getLsbD i := by
  simp [negate, getLsbD_signBit, h.ne]

theorem getLsbD_magnitude {i : Nat} (h : i < p.width - 1) : (magnitude x).getLsbD i = x.getLsbD i := by
  have hlt : i < p.width := by omega
  rw [magnitude, BitVec.getLsbD_and, BitVec.getLsbD_not, getLsbD_signBit]
  simp [h.ne, hlt]

end

/-- The magnitude bits are the bits below the sign bit. -/
theorem magBits_eq_of_bits {x y : p.Pattern} (h : ∀ i, i < p.width - 1 → y.getLsbD i = x.getLsbD i) :
    magBits y = magBits x := by
  refine Nat.eq_of_testBit_eq fun i => ?_
  simp only [magBits, Nat.testBit_mod_two_pow]
  by_cases hi : i < p.width - 1
  · rw [show y.toNat.testBit i = x.toNat.testBit i from h i hi]
  · simp [hi]

/-- A pattern with the sign bit inverted and every other bit kept is the negated one (R175, R177). -/
theorem eq_negate {x y : p.Pattern} (hs : y.msb = !x.msb)
    (hb : ∀ i, i < p.width - 1 → y.getLsbD i = x.getLsbD i) : y = negate x :=
  eq_of_sign_magBits (hs.trans (msb_negate x).symm)
    ((magBits_eq_of_bits hb).trans (magBits_eq_of_bits fun _ => getLsbD_negate x).symm)

/-- The classes do not look at the sign. -/
theorem classOf_negate (x : p.Pattern) : classOf (negate x) = classOf x := by
  rw [classOf_eq, classOf_eq, magBits_eq_of_bits fun _ => getLsbD_negate x]

/-- ABS and NEG: the new pattern delivered, SUBO telling a subnormal operand. -/
theorem exec_deliver {i : Instr} {list : Kinds} {fd : FReg} {r : Result p} {s : State}
    (he : exec i s = withForm i (deliver p list fd r s)) (hf : i.wellFormed = true) (hm : Masked s)
    (hl : ∀ k, r.2.has k = true → list.has k = true) :
    ∃ t, exec i s = .next t ∧ FpDone p fd list r.2 (· = r.1) s t := by
  rw [he, withForm_eq hf]
  exact deliver_masked hm hl

/-! ## What is delivered is no NaN -/

theorem isNaN_pack (neg : Bool) {m : Nat} (h : m ≤ p.infMag) : isNaN (pack p neg m) = false := by
  rw [isNaN_eq_false_iff, magBits_pack neg (h.trans_lt (infMag_lt p))]
  exact h

theorem isInf_infOf (p : Prec) (neg : Bool) : isInf (infOf p neg) = true := by
  rw [isInf_iff, infOf, magBits_pack neg (infMag_lt p)]

theorem signOf_infOf (p : Prec) (neg : Bool) : signOf (infOf p neg) = neg := signOf_pack p neg (infMag_lt p)

theorem isNaN_dqnan (p : Prec) : isNaN (dqnan p) = true := by cases p <;> decide

theorem ne_dqnan {x : p.Pattern} (h : isNaN x = false) : x ≠ dqnan p := by
  rintro rfl
  rw [isNaN_dqnan] at h
  cases h

/-- Rounding never delivers a NaN. -/
theorem isNaN_round (rm : RoundMode) (n : Int) (d : Nat) (zs : Bool) :
    isNaN (Machine.round p rm n d zs).1 = false := by
  unfold Machine.round
  split_ifs with hn hm
  · exact isNaN_pack zs (Nat.zero_le _)
  · generalize decide (n < 0) = neg
    cases rm <;> cases neg <;> first | exact isNaN_pack _ le_rfl | exact isNaN_pack _ (Nat.sub_le _ 1)
  · exact isNaN_pack _ (by omega)

/-! ## MUL -/

/-- An infinity times a number that is no zero (R174). -/
def InfProduct (x y : p.Pattern) : Prop :=
  isInf x = true ∧ isNaN y = false ∧ isZero y = false ∨ isInf y = true ∧ isNaN x = false ∧ isZero x = false

section
variable (rm : RoundMode) {x y : p.Pattern}

theorem mulCore_invalid (h : isZero x = true ∧ isInf y = true ∨ isInf x = true ∧ isZero y = true) :
    mulCore p rm x y = invalid p := by
  rcases h with ⟨hx, hy⟩ | ⟨hx, hy⟩ <;> simp [mulCore, hx, hy]

theorem mulCore_inf (h : InfProduct x y) :
    mulCore p rm x y = (infOf p (signOf x != signOf y), Kinds.none) := by
  rcases h with ⟨hx, -, hy⟩ | ⟨hy, -, hx⟩
  · simp [mulCore, hx, hy, isZero_eq_false_of_inf hx]
  · simp [mulCore, hx, hy, isZero_eq_false_of_inf hy]

theorem mulCore_finite (hx : isInf x = false) (hy : isInf y = false) :
    mulCore p rm x y = Machine.round p rm (quanta x * quanta y) (2 ^ (2 * p.scale)) (signOf x != signOf y) := by
  simp [mulCore, hx, hy]

/-- A product signals neither DIV0 nor HUGI nor, of itself, SUBO. -/
theorem mulCore_kinds (x y : p.Pattern) : (mulCore p rm x y).2.subo = false ∧ (mulCore p rm x y).2.hugi = false ∧
    (mulCore p rm x y).2.div0 = false := by
  unfold mulCore
  split_ifs
  · exact ⟨rfl, rfl, rfl⟩
  · exact ⟨rfl, rfl, rfl⟩
  · exact (round_kinds ..).2

end

/-! ## DIV -/

section
variable (rm : RoundMode) {x y : p.Pattern}

theorem divCore_invalid (h : isZero x = true ∧ isZero y = true ∨ isInf x = true ∧ isInf y = true) :
    divCore p rm x y = invalid p := by
  rcases h with ⟨hx, hy⟩ | ⟨hx, hy⟩ <;> simp [divCore, hx, hy]

theorem divCore_inf (hx : isInf x = true) (hy : isFinite y = true) :
    divCore p rm x y = (infOf p (signOf x != signOf y), Kinds.none) := by
  simp [divCore, hx, isInf_eq_false_of_finite hy, isZero_eq_false_of_inf hx]

theorem divCore_by_inf (hx : isFinite x = true) (hy : isInf y = true) :
    divCore p rm x y = (zeroOf p (signOf x != signOf y), Kinds.none) := by
  simp [divCore, hy, isInf_eq_false_of_finite hx, isZero_eq_false_of_inf hy]

theorem divCore_by_zero (hx : isFinite x = true) (hz : isZero x = false) (hy : isZero y = true) :
    divCore p rm x y = (infOf p (signOf x != signOf y), { div0 := true }) := by
  simp [divCore, hy, hz, isInf_eq_false_of_finite hx, isInf_eq_false_of_finite (isFinite_of_zero hy)]

/-- The quotient of two values is that of their magnitudes, with the sign of the quotient (R172). -/
theorem divCore_finite (hx : isFinite x = true) (hy : isFinite y = true) (hz : isZero y = false) :
    divCore p rm x y =
      Machine.round p rm (if signOf x = signOf y then (magQuanta x : Int) else -(magQuanta x : Int)) (magQuanta y)
        (signOf x != signOf y) := by
  have hpos := magQuanta_pos hz
  have hnum : quanta x * (quanta y).sign =
      if signOf x = signOf y then (magQuanta x : Int) else -(magQuanta x : Int) := by
    have hsign : ((magQuanta y : Nat) : Int).sign = 1 := Int.sign_eq_one_of_pos (by omega)
    cases hsx : signOf x <;> cases hsy : signOf y <;> simp [quanta, hsx, hsy, hsign]
  have hden : (quanta y).natAbs = magQuanta y := by
    unfold quanta
    split <;> simp
  simp [divCore, isInf_eq_false_of_finite hx, isInf_eq_false_of_finite hy, hz, hnum, hden]

/-- A quotient signals neither HUGI nor, of itself, SUBO. -/
theorem divCore_kinds (x y : p.Pattern) :
    (divCore p rm x y).2.subo = false ∧ (divCore p rm x y).2.hugi = false := by
  unfold divCore
  split_ifs
  · exact ⟨rfl, rfl⟩
  · exact ⟨rfl, rfl⟩
  · exact ⟨rfl, rfl⟩
  · exact ⟨rfl, rfl⟩
  · exact ⟨(round_kinds ..).2.1, (round_kinds ..).2.2.1⟩

end

/-! ## MAC -/

/-- Where both settings of `MAC_FUSED` give one result, it is MAC's. -/
theorem macCore_eq {rm : RoundMode} {x y c : p.Pattern} {r : Result p} (hf : macFusedCore p rm x y c = r)
    (hu : macUnfused p rm x y c = r) : macCore p rm x y c = r := by
  simp [macCore, hf, hu]

section
variable (rm : RoundMode) {x y : p.Pattern} (c : p.Pattern)

theorem macCore_invalid (h : isZero x = true ∧ isInf y = true ∨ isInf x = true ∧ isZero y = true) :
    macCore p rm x y c = invalid p := by
  refine macCore_eq ?_ ?_
  · rcases h with ⟨hx, hy⟩ | ⟨hx, hy⟩ <;> simp [macFusedCore, hx, hy]
  · rw [macUnfused, mulCore_invalid rm h]
    exact if_pos rfl

/-- An infinite product: the sum with the addend is that of ADD, and only its NaN case is told apart. -/
theorem macUnfused_inf (h : InfProduct x y) :
    macUnfused p rm x y c = addCore p rm c (infOf p (signOf x != signOf y)) := by
  have hne : infOf p (signOf x != signOf y) ≠ dqnan p := ne_dqnan (isNaN_eq_false_of_inf (isInf_infOf p _))
  rw [macUnfused, mulCore_inf rm h, if_neg hne]
  refine Prod.ext rfl ?_
  simp [Kinds.union, Kinds.none]

theorem macFusedCore_inf (h : InfProduct x y) :
    macFusedCore p rm x y c =
      if isInf c && signOf c != (signOf x != signOf y) then invalid p
      else (infOf p (signOf x != signOf y), Kinds.none) := by
  rcases h with ⟨hx, -, hy⟩ | ⟨hy, -, hx⟩
  · simp [macFusedCore, hx, hy, isZero_eq_false_of_inf hx]
  · simp [macFusedCore, hx, hy, isZero_eq_false_of_inf hy]

variable {c}

theorem macCore_inf (h : InfProduct x y)
    (hc : isInf c = true → signOf c = (signOf x != signOf y)) :
    macCore p rm x y c = (infOf p (signOf x != signOf y), Kinds.none) := by
  refine macCore_eq ?_ ?_
  · rw [macFusedCore_inf rm c h, if_neg (by simpa using hc)]
  · rw [macUnfused_inf rm c h]
    cases hic : isInf c with
    | true => rw [addCore_inf_left rm hic fun _ => (hc hic).trans (signOf_infOf p _).symm, ← hc hic,
        ← eq_infOf_of_isInf hic]
    | false => exact addCore_inf_right rm hic (isInf_infOf p _)

theorem macCore_opposite (h : InfProduct x y)
    (hic : isInf c = true) (hc : signOf c ≠ (signOf x != signOf y)) : macCore p rm x y c = invalid p := by
  refine macCore_eq ?_ ?_
  · rw [macFusedCore_inf rm c h, if_pos (by simpa [hic] using hc)]
  · rw [macUnfused_inf rm c h]
    exact addCore_opposite rm hic (isInf_infOf p _) (by rwa [signOf_infOf])

/-- A finite product is no NaN once rounded, so the sum with the addend is that of ADD. -/
theorem macUnfused_finite (hx : isFinite x = true) (hy : isFinite y = true) :
    macUnfused p rm x y c = ((addCore p rm c (mulCore p rm x y).1).1,
      (mulCore p rm x y).2.union (addCore p rm c (mulCore p rm x y).1).2) := by
  rw [macUnfused, if_neg]
  rw [mulCore_finite rm (isInf_eq_false_of_finite hx) (isInf_eq_false_of_finite hy)]
  exact ne_dqnan (isNaN_round ..)

theorem macFusedCore_inf_addend (hx : isFinite x = true) (hy : isFinite y = true) (hc : isInf c = true) :
    macFusedCore p rm x y c = (c, Kinds.none) := by
  simp [macFusedCore, isInf_eq_false_of_finite hx, isInf_eq_false_of_finite hy, hc]

theorem macFusedCore_finite (hx : isFinite x = true) (hy : isFinite y = true) (hc : isFinite c = true) :
    macFusedCore p rm x y c = Machine.round p rm (quanta c * 2 ^ p.scale + quanta x * quanta y) (2 ^ (2 * p.scale))
      (if (signOf x != signOf y) = signOf c then signOf c else rm == .towardNeg) := by
  have hzs : zeroSumSign rm (signOf x != signOf y) (signOf c) =
      if (signOf x != signOf y) = signOf c then signOf c else rm == .towardNeg := by
    unfold zeroSumSign
    split
    · next h => exact h
    · rfl
  simp only [macFusedCore, isInf_eq_false_of_finite hx, isInf_eq_false_of_finite hy, isInf_eq_false_of_finite hc, hzs]
  simp

/-- MAC signals neither DIV0 nor HUGI nor, of itself, SUBO. -/
theorem macCore_kinds (x y c : p.Pattern) : (macCore p rm x y c).2.subo = false ∧
    (macCore p rm x y c).2.hugi = false ∧ (macCore p rm x y c).2.div0 = false := by
  have hu : (macUnfused p rm x y c).2.subo = false ∧ (macUnfused p rm x y c).2.hugi = false ∧
      (macUnfused p rm x y c).2.div0 = false := by
    obtain ⟨ha, hb, hc⟩ := mulCore_kinds rm x y
    obtain ⟨ha', hb', hc'⟩ := addCore_kinds rm c (mulCore p rm x y).1
    unfold macUnfused
    split_ifs
    · exact ⟨rfl, rfl, rfl⟩
    · simp [Kinds.union, ha, hb, hc, ha', hb', hc']
  have hf : (macFusedCore p rm x y c).2.subo = false ∧ (macFusedCore p rm x y c).2.hugi = false ∧
      (macFusedCore p rm x y c).2.div0 = false := by
    unfold macFusedCore
    split_ifs
    · exact ⟨rfl, rfl, rfl⟩
    · exact ⟨rfl, rfl, rfl⟩
    · exact ⟨rfl, rfl, rfl⟩
    · exact ⟨rfl, rfl, rfl⟩
    · exact (round_kinds ..).2
  unfold macCore
  split_ifs
  · exact hu
  · exact hf
  · exact hu

end

/-! ## SQRT -/

section
variable (rm : RoundMode) {x : p.Pattern}

theorem sqrtCore_zero (h : isZero x = true) : sqrtCore p rm x = (x, Kinds.none) := by simp [sqrtCore, h]

theorem sqrtCore_neg (h : isZero x = false) (hs : signOf x = true) : sqrtCore p rm x = invalid p := by
  simp [sqrtCore, h, hs]

theorem sqrtCore_inf (h : isInf x = true) (hs : signOf x = false) : sqrtCore p rm x = (x, Kinds.none) := by
  simp [sqrtCore, h, hs, isZero_eq_false_of_inf h]

/-- A root of a positive number signals at most INX. -/
theorem sqrtCore_pos_kinds (hx : isFinite x = true) (hz : isZero x = false) (hs : signOf x = false) :
    (sqrtCore p rm x).2 = { inx := (sqrtCore p rm x).2.inx } := by
  obtain ⟨lo, r, -, -, he⟩ := sqrtCore_eq rm hx hz hs
  rw [he]

/-- A root signals at most INX and INVAL, which SQRT lists. -/
theorem sqrtCore_kinds (h : isNaN x = false) (k : Kind) (hk : (sqrtCore p rm x).2.has k = true) :
    listSqrt.has k = true := by
  have hinval : ∀ k, (invalid p).2.has k = true → listSqrt.has k = true := Kinds.has_of_union rfl
  rcases class_cases x with hx | hx | hx
  · cases hz : isZero x with
    | true => rw [sqrtCore_zero rm hz, Kinds.has_none] at hk; cases hk
    | false =>
      cases hs : signOf x with
      | true => exact hinval k (sqrtCore_neg rm hz hs ▸ hk)
      | false =>
        rw [sqrtCore_pos_kinds rm hx hz hs] at hk
        exact Kinds.has_of_union rfl k hk
  · cases hs : signOf x with
    | true => exact hinval k (sqrtCore_neg rm (isZero_eq_false_of_inf hx) hs ▸ hk)
    | false => rw [sqrtCore_inf rm hx hs, Kinds.has_none] at hk; cases hk
  · rw [h] at hx; cases hx

end

end Sys2Proof.Machine

open Sys2Proof Sys2Proof.Machine

/-- Settles O26, by the bits of the two patterns. -/
theorem absNegResult : Obligations.AbsNegResult := by
  have hlist : ∀ (p : Prec) (x : p.Pattern) (k : Kind), (subKinds [x]).has k = true → listSign.has k = true :=
    fun p x => Kinds.has_of_union rfl
  have hsub : ∀ (p : Prec) (x : p.Pattern), subKinds [x] = { subo := isSub x } := by
    intro p x
    simp [subKinds]
  refine ⟨fun p fs fd s x hf hm hx => ?_, fun p fs fd s x hf hm hx => ?_⟩
  · subst hx
    obtain ⟨t, ht, hd⟩ := exec_deliver (i := .abs p fs fd) (list := listSign) rfl hf hm (hlist p _)
    refine ⟨t, ht, hsub p _ ▸ FpDone.mono hd ?_⟩
    rintro _ rfl
    exact ⟨msb_magnitude _, fun _ => getLsbD_magnitude _⟩
  · subst hx
    obtain ⟨t, ht, hd⟩ := exec_deliver (i := .neg p fs fd) (list := listSign) rfl hf hm (hlist p _)
    refine ⟨t, ht, hsub p _ ▸ FpDone.mono hd ?_⟩
    rintro _ rfl
    exact ⟨msb_negate _, fun _ => getLsbD_negate _⟩

/-- Settles O27, by the cases of the sum. -/
theorem addResult : Obligations.AddResult := by
  intro p fb fs fd s x y hf hm hx hy
  subst hx hy
  exact sumDone_of_exec (i := .add p fb fs fd) rfl hf hm (by simp) (by simp) (by simp)

/-- Settles O28: the sum of Fb and the negated Fs, which is of the class of Fs. -/
theorem subResult : Obligations.SubResult := by
  intro p fb fs fd s x y y' hf hm hx hy hs hb
  obtain rfl := eq_negate hs hb
  subst hx hy
  exact sumDone_of_exec (i := .sub p fb fs fd) rfl hf hm (by simp [isNaN, classOf_negate])
    (by simp [isSNaN, classOf_negate]) (by simp)

/-- Settles O29, by the cases of the product. -/
theorem mulResult : Obligations.MulResult := by
  intro p fb fs fd s x y hf hm hx hy
  subst hx hy
  generalize hx : s.readFP p fb = x, hy : s.readFP p fs = y
  obtain ⟨-, hhugi, hdiv0⟩ := mulCore_kinds s.rm x y
  have he : exec (.mul p fb fs fd) s =
      withForm (.mul p fb fs fd) (arith p listArith fd [x, y] (mulCore p s.rm x y) s) := by subst hx hy; rfl
  obtain ⟨t, ht, hq, hn⟩ := exec_arith (nan := isNaN x || isNaN y) (snan := isSNaN x || isSNaN y)
    (sub := isSub x || isSub y) he hf hm (fun _ => listArith_has hdiv0 hhugi) rfl rfl (by simp) (by simp) (by simp)
  refine ⟨t, ht, fun h => hq (by simpa using h), fun h => ?_, fun h => ?_, fun hx hy => ?_⟩
  · obtain ⟨hnx, hsx⟩ := not_nan_not_sub (x := x) (h.imp And.left And.left)
    obtain ⟨hny, hsy⟩ := not_nan_not_sub (x := y) (h.symm.imp And.right And.right)
    have hr := hn _ (by rw [hnx, hny]; rfl) (mulCore_invalid s.rm h)
    rwa [hsx, hsy] at hr
  · refine hn _ ?_ (mulCore_inf s.rm h)
    rcases h with ⟨hx, hy, -⟩ | ⟨hy, hx, -⟩ <;> simp [hx, hy, isNaN_eq_false_of_inf]
  · have hr := hn _ (by simp [isNaN_eq_false_of_finite, hx, hy])
      (mulCore_finite s.rm (isInf_eq_false_of_finite hx) (isInf_eq_false_of_finite hy))
    rwa [Kinds.union_subo (round_kinds ..).2.1] at hr

/-- Settles O30, by the cases of the quotient. -/
theorem divResult : Obligations.DivResult := by
  intro p fb fs fd s x y hf hm hx hy
  subst hx hy
  generalize hx : s.readFP p fb = x, hy : s.readFP p fs = y
  have he : exec (.div p fb fs fd) s =
      withForm (.div p fb fs fd) (arith p listDiv fd [x, y] (divCore p s.rm x y) s) := by subst hx hy; rfl
  obtain ⟨t, ht, hq, hn⟩ := exec_arith (nan := isNaN x || isNaN y) (snan := isSNaN x || isSNaN y)
    (sub := isSub x || isSub y) he hf hm (fun _ => listDiv_has (divCore_kinds s.rm x y).2) rfl rfl (by simp) (by simp)
    (by simp)
  refine ⟨t, ht, fun h => hq (by simpa using h), fun h => ?_, fun hx hy => ?_, fun hx hy => ?_, fun hx hz hy => ?_,
    fun hx hy hz => ?_⟩
  · obtain ⟨hnx, hsx⟩ := not_nan_not_sub (x := x) (h.imp And.left And.left)
    obtain ⟨hny, hsy⟩ := not_nan_not_sub (x := y) (h.imp And.right And.right)
    have hr := hn _ (by rw [hnx, hny]; rfl) (divCore_invalid s.rm h)
    rwa [hsx, hsy] at hr
  · have hr := hn _ (by simp [isNaN_eq_false_of_inf, isNaN_eq_false_of_finite, hx, hy]) (divCore_inf s.rm hx hy)
    rwa [isSub_eq_false_of_inf hx, Bool.false_or] at hr
  · have hr := hn _ (by simp [isNaN_eq_false_of_inf, isNaN_eq_false_of_finite, hx, hy]) (divCore_by_inf s.rm hx hy)
    rwa [isSub_eq_false_of_inf hy, Bool.or_false] at hr
  · have hr := hn _ (by simp [isNaN_eq_false_of_finite, isFinite_of_zero, hx, hy]) (divCore_by_zero s.rm hx hz hy)
    rwa [isSub_eq_false_of_zero hy, Bool.or_false] at hr
  · have hr := hn _ (by simp [isNaN_eq_false_of_finite, hx, hy]) (divCore_finite s.rm hx hy hz)
    rwa [Kinds.union_subo (round_kinds ..).2.1] at hr

/-- Settles O31, by the classes of the product and of the addend; only a finite product asks `MAC_FUSED`. -/
theorem macResult : Obligations.MacResult := by
  intro p fb fs fd s x y c hf hm hx hy hc
  subst hx hy hc
  generalize hx : s.readFP p fb = x, hy : s.readFP p fs = y, hc : s.readFP p fd = c
  obtain ⟨hsubo, hhugi, hdiv0⟩ := macCore_kinds s.rm x y c
  have he : exec (.mac p fb fs fd) s =
      withForm (.mac p fb fs fd) (arith p listArith fd [x, y, c] (macCore p s.rm x y c) s) := by subst hx hy hc; rfl
  obtain ⟨t, ht, hq, hn⟩ := exec_arith (nan := isNaN x || isNaN y || isNaN c)
    (snan := isSNaN x || isSNaN y || isSNaN c) (sub := isSub x || isSub y || isSub c) he hf hm
    (fun _ => listArith_has hdiv0 hhugi) rfl rfl (by simp [Bool.or_assoc]) (by simp [Bool.or_assoc])
    (by simp [Bool.or_assoc])
  have hinf : InfProduct x y → (isNaN x || isNaN y) = false := by
    rintro (⟨hx, hy, -⟩ | ⟨hy, hx, -⟩) <;> simp [hx, hy, isNaN_eq_false_of_inf]
  refine ⟨t, ht, fun h => hq (by simpa [or_assoc] using h), fun h hc => ?_, fun hx hy hc => ?_, fun hx hy hc => ?_,
    fun h hcn hc => hn _ (by rw [hinf h, hcn]; rfl) (macCore_inf s.rm h hc), fun h hic hc => ?_⟩
  · obtain ⟨hnx, hsx⟩ := not_nan_not_sub (x := x) (h.imp And.left And.left)
    obtain ⟨hny, hsy⟩ := not_nan_not_sub (x := y) (h.symm.imp And.right And.right)
    have hr := hn _ (by rw [hnx, hny, hc]; rfl) (macCore_invalid s.rm c h)
    rwa [hsx, hsy] at hr
  · have hr := hn _ (by simp [isNaN_eq_false_of_finite, hx, hy, hc]) rfl
    rw [Kinds.union_subo hsubo] at hr
    split
    · next hfused => rwa [macCore_fused hfused, macFusedCore_finite s.rm hx hy hc] at hr
    · next hfused => rwa [macCore_unfused (by simpa using hfused), macUnfused_finite s.rm hx hy] at hr
  · have hr := hn _ (by simp [isNaN_eq_false_of_finite, isNaN_eq_false_of_inf, hx, hy, hc]) rfl
    rw [Kinds.union_subo hsubo, isSub_eq_false_of_inf hc, Bool.or_false] at hr
    split
    · next hfused => rwa [macCore_fused hfused, macFusedCore_inf_addend s.rm hx hy hc] at hr
    · next hfused => rwa [macCore_unfused (by simpa using hfused), macUnfused_finite s.rm hx hy] at hr
  · have hr := hn _ (by rw [hinf h, isNaN_eq_false_of_inf hic]; rfl) (macCore_opposite s.rm h hic hc)
    rwa [isSub_eq_false_of_inf hic, Bool.or_false] at hr

/-- Settles O32, by the cases of the root. -/
theorem sqrtResult : Obligations.SqrtResult := by
  intro p fs fd s x hf hm hx
  subst hx
  generalize hx : s.readFP p fs = x
  have he : exec (.sqrt p fs fd) s = withForm (.sqrt p fs fd) (arith p listSqrt fd [x] (sqrtCore p s.rm x) s) := by
    subst hx; rfl
  obtain ⟨t, ht, hq, hn⟩ := exec_arith (nan := isNaN x) (snan := isSNaN x) (sub := isSub x) he hf hm
    (sqrtCore_kinds s.rm) rfl rfl (by simp) (by simp) (by simp)
  refine ⟨t, ht, fun h => ?_, fun hz => ?_, fun hnan hz hs => hn _ hnan (sqrtCore_neg s.rm hz hs), fun hx hs => ?_,
    fun hx hz hs => ?_⟩
  · have hr := hq h
    rwa [isSub_eq_false_of_nan h] at hr
  · have hr := hn _ (isNaN_eq_false_of_finite (isFinite_of_zero hz)) (sqrtCore_zero s.rm hz)
    rwa [isSub_eq_false_of_zero hz] at hr
  · have hr := hn _ (isNaN_eq_false_of_inf hx) (sqrtCore_inf s.rm hx hs)
    rwa [isSub_eq_false_of_inf hx] at hr
  · have hr := hn _ (isNaN_eq_false_of_finite hx) rfl
    rwa [sqrtCore_pos_kinds s.rm hx hz hs, Kinds.union_subo rfl] at hr

end

section
/-! PROOFS. The compare, limit and select instructions, the conversions, COS and SIN, with every exception masked. -/

namespace Sys2Proof.Machine

variable {p : Prec}

/-! ## Compares -/

/-- The flag of a relation after the compare flags were written (R200). -/
theorem getLsbD_compareWord_bit (fsr : Word) (r q : Relation) :
    (compareWord fsr r).getLsbD q.bit = decide (r = q) := by
  have hmask : (0xFFF0FFFF#32).getLsbD q.bit = false := by cases q <;> rfl
  rw [compareWord, BitVec.getLsbD_or, BitVec.getLsbD_and, hmask, Bool.and_false, Bool.false_or]
  cases r <;> cases q <;> rfl

/-- The compare flags are the relations of `CompareOrder` (R200). -/
theorem compareValues_flags (x y : p.Pattern) :
    decide (compareValues x y = .un) = (isNaN x || isNaN y) ∧ decide (compareValues x y = .eq) = fEq x y ∧
      decide (compareValues x y = .lt) = fLt x y ∧ decide (compareValues x y = .gt) = fLt y x := by
  by_cases hn : isNaN x = true ∨ isNaN y = true
  · have hun : compareValues x y = .un := if_pos (by simpa using hn)
    rw [hun, fLt_eq_false_of_nan hn, fLt_eq_false_of_nan hn.symm, fEq_eq_false_of_nan hn]
    simpa using hn
  · obtain ⟨hx, hy⟩ : isNaN x = false ∧ isNaN y = false := by simpa using hn
    have hasymm : fLt x y = true → fLt y x = false := by
      rw [Bool.eq_false_iff, Ne, fLt_iff hx hy, fLt_iff hy hx]
      omega
    simp only [compareValues, fEq, hx, hy]
    cases hl : fLt x y <;> cases hg : fLt y x <;> simp [hl, hg] at hasymm ⊢

@[simp] theorem statusFlag_compareWord (fsr : Word) (r : Relation) (k : Kind) :
    statusFlag (compareWord fsr r) k = statusFlag fsr k :=
  getLsbD_compareWord fsr r (.inl (k.bit_lt.trans (by decide)))

/-- What `Signal` does is a matter of the exception flags and of FEAR alone. -/
theorem Signalled.congr {list sig : Kinds} {s t u : State} (h : Signalled list sig s t)
    (hstatus : ∀ k, statusFlag u.fsr k = statusFlag t.fsr k)
    (hsticky : ∀ k, stickyFlag u.fsr k = stickyFlag t.fsr k) (hfear : u.fear = t.fear) : Signalled list sig s u :=
  ⟨fun k hk => (hstatus k).trans (h.listed k hk), fun k hk => (hstatus k).trans (h.unlisted k hk),
    fun k => (hsticky k).trans (h.sticky k), fun hs => hfear.trans (h.fear hs)⟩

/-- A masked compare (R200 to R202). -/
theorem exec_compare {i : Instr} {sig : Kinds} {x y : p.Pattern} {s : State}
    (he : exec i s = withForm i (compareEnd sig x y s)) (hf : i.wellFormed = true) (hm : Masked s)
    (hl : ∀ k, sig.has k = true → listSelect.has k = true) :
    ∃ t, exec i s = .next t ∧
      FlagsDone (fun i => exceptionBits i || (decide (16 ≤ i) && decide (i ≤ 19))) s t ∧
      Signalled listSelect sig s t ∧
      t.fsr.getLsbD 16 = (isNaN x || isNaN y) ∧ t.fsr.getLsbD 17 = fEq x y ∧ t.fsr.getLsbD 18 = fLt x y ∧
      t.fsr.getLsbD 19 = fLt y x := by
  obtain ⟨hun, heq, hlt, hgt⟩ := compareValues_flags x y
  have hbit := getLsbD_compareWord_bit (statusWord s.fsr listSelect sig) (compareValues x y)
  rw [he, withForm_eq hf]
  refine ⟨_, trapOr_masked hm _ _, ⟨fun n hn => ?_, fun r => rfl, rfl, fun a => rfl, ?_, rfl⟩, ?_,
    (hbit .un).trans hun, (hbit .eq).trans heq, (hbit .lt).trans hlt, (hbit .gt).trans hgt⟩
  · simp only [Bool.or_eq_false_iff, Bool.and_eq_false_iff, decide_eq_false_iff_not] at hn
    exact (getLsbD_compareWord _ _ (by omega)).trans (getLsbD_statusWord _ _ _ hn.1)
  · constructor <;> intros <;> rfl
  · refine Signalled.congr (fpDone_of_write (p := .single) (fd := 0) 0 s hl).signal (fun k => ?_) (fun k => ?_) rfl
    · exact statusFlag_compareWord _ _ k
    · exact stickyFlag_compareWord _ _ k

/-- INVAL and SUBO are in the list of the compare, limit and select instructions. -/
theorem listSelect_has {a b : Bool} :
    ∀ k, Kinds.has { inval := a, subo := b } k = true → listSelect.has k = true :=
  Kinds.has_of_union rfl

/-- SUBO and INVAL of two operands (R138, R139). -/
theorem subKinds_union_snanKinds (x y : p.Pattern) :
    (subKinds [x, y]).union (snanKinds [x, y]) = { inval := isSNaN x || isSNaN y, subo := isSub x || isSub y } := by
  simp [subKinds, snanKinds, Kinds.union]

/-! ## Limit and select -/

theorem not_nan_of_fLt {x y : p.Pattern} (h : fLt x y = true) : isNaN x = false ∧ isNaN y = false := by
  simp only [fLt, Bool.and_eq_true, Bool.not_eq_true'] at h
  exact h.1

/-- FLIM of numbers signals nothing but INVAL. -/
theorem limitCore_kinds (lo hi c : p.Pattern) (k : Kind) (hk : (limitCore p lo hi c).2.has k = true) :
    listSelect.has k = true := by
  unfold limitCore at hk
  split_ifs at hk
  · exact listSelect_has (a := true) (b := false) k hk
  · rw [Kinds.has_none] at hk; cases hk
  · rw [Kinds.has_none] at hk; cases hk
  · rw [Kinds.has_none] at hk; cases hk

/-- A masked select of one of two operands that are no NaN: MAX and MIN. -/
theorem exec_select {i : Instr} {fd : FReg} {x y v : p.Pattern} {s : State}
    (he : exec i s = withForm i (arith p listSelect fd [x, y] (v, Kinds.none) s)) (hf : i.wellFormed = true)
    (hm : Masked s) :
    ∃ t, exec i s = .next t ∧
      (isNaN x = true ∨ isNaN y = true →
        FpDone p fd listSelect { inval := isSNaN x || isSNaN y, subo := isSub x || isSub y }
          (fun r => classOf r = .qnan) s t) ∧
      (isNaN x = false → isNaN y = false →
        FpDone p fd listSelect { subo := isSub x || isSub y } (· = v) s t) := by
  obtain ⟨t, ht, hq, hn⟩ := exec_arith (nan := isNaN x || isNaN y) (snan := isSNaN x || isSNaN y)
    (sub := isSub x || isSub y) he hf hm (fun _ => by simp) rfl rfl (by simp) (by simp) (by simp)
  exact ⟨t, ht, fun h => hq (by simpa using h), fun hx hy => hn _ (by rw [hx, hy]; rfl) rfl⟩

/-- A masked select of the number beside a NaN: MAXNM and MINNM. -/
theorem exec_selectNumber {i : Instr} {fd : FReg} {x y v : p.Pattern} {s : State}
    (he : exec i s = withForm i (selectNumber p fd x y v s)) (hf : i.wellFormed = true) (hm : Masked s) :
    ∃ t, exec i s = .next t ∧
      FpDone p fd listSelect { inval := isSNaN x || isSNaN y, subo := isSub x || isSub y }
        (fun r => if isNaN x = true then (if isNaN y = true then classOf r = .qnan else r = y)
          else if isNaN y = true then r = x else r = v) s t := by
  obtain ⟨t, ht, hd⟩ := exec_deliver he hf hm (by rw [subKinds_union_snanKinds]; exact listSelect_has)
  refine ⟨t, ht, subKinds_union_snanKinds x y ▸ FpDone.mono hd ?_⟩
  rintro _ rfl
  have hquiet : classOf (drawnNaN p s) = .qnan := classOf_quietNaN p _
  cases hx : isNaN x <;> cases hy : isNaN y <;> simp [hquiet]

end Sys2Proof.Machine

open Sys2Proof Sys2Proof.Machine

/-- Settles O34, by the flag of each relation. -/
theorem compareResult : Obligations.CompareResult := by
  refine ⟨fun p fb fs s x y hf hm hx hy => ?_, fun p fb fs s x y hf hm hx hy => ?_⟩
  · subst hx hy
    exact exec_compare (congrArg (fun sig => withForm (.cpq p fb fs) (compareEnd sig _ _ s))
      (subKinds_union_snanKinds _ _)) hf hm listSelect_has
  · subst hx hy
    have hsig : ∀ x y : p.Pattern, (subKinds [x, y]).union { inval := isNaN x || isNaN y } =
        { inval := isNaN x || isNaN y, subo := isSub x || isSub y } := by
      intro x y
      simp [subKinds, Kinds.union]
    exact exec_compare (congrArg (fun sig => withForm (.cps p fb fs) (compareEnd sig _ _ s)) (hsig _ _)) hf hm
      listSelect_has

/-- Settles O36, by the cases of the limit. -/
theorem flimResult : Obligations.FlimResult := by
  intro p fb fs fd s lo hi c hf hm hlo hhi hc
  subst hlo hhi hc
  generalize hlo : s.readFP p fb = lo, hhi : s.readFP p fs = hi, hc : s.readFP p fd = c
  have he : exec (.flim p fb fs fd) s =
      withForm (.flim p fb fs fd) (arith p listSelect fd [lo, hi, c] (limitCore p lo hi c) s) := by
    subst hlo hhi hc; rfl
  obtain ⟨t, ht, hq, hn⟩ := exec_arith (nan := isNaN lo || isNaN hi || isNaN c)
    (snan := isSNaN lo || isSNaN hi || isSNaN c) (sub := isSub lo || isSub hi || isSub c) he hf hm
    (fun _ => limitCore_kinds lo hi c) rfl rfl (by simp [Bool.or_assoc]) (by simp [Bool.or_assoc])
    (by simp [Bool.or_assoc])
  refine ⟨t, ht, fun h => hq (by simpa [or_assoc] using h), fun hbad hc => ?_, fun hlo hok habove => ?_,
    fun hhi hok hle hbelow => ?_, fun hlo hhi hc hok hle hge => ?_⟩
  · obtain ⟨hhi, hlo⟩ := not_nan_of_fLt hbad
    exact hn (invalid p) (by simp [hlo, hhi, hc]) (by simp [limitCore, hbad])
  · obtain ⟨hhi, hc⟩ := not_nan_of_fLt habove
    exact hn (hi, Kinds.none) (by simp [hlo, hhi, hc]) (by simp [limitCore, hok, habove])
  · obtain ⟨hc, hlo⟩ := not_nan_of_fLt hbelow
    exact hn (lo, Kinds.none) (by simp [hlo, hhi, hc]) (by simp [limitCore, hok, hle, hbelow])
  · exact hn (c, Kinds.none) (by simp [hlo, hhi, hc]) (by simp [limitCore, hok, hle, hge])

/-- Settles O37: Fb or Fs by the order of `TotalOrder`. -/
theorem maxMinResult : Obligations.MaxMinResult := by
  intro p fb fs fd s x y hf hm hx hy
  subst hx hy
  exact ⟨exec_select (i := .max p fb fs fd) rfl hf hm, exec_select (i := .min p fb fs fd) rfl hf hm⟩

/-- Settles O38: as MAX and MIN, but for a NaN operand. -/
theorem maxnmMinnmResult : Obligations.MaxnmMinnmResult := by
  intro p fb fs fd s x y sig hf hm hx hy hsig
  subst hx hy hsig
  exact ⟨exec_selectNumber (i := .maxnm p fb fs fd) rfl hf hm,
    exec_selectNumber (i := .minnm p fb fs fd) rfl hf hm⟩

end

section
/-! PROOFS. The conversions between integers and values, and COS and SIN, with every exception masked. -/

namespace Sys2Proof.Machine

variable {p : Prec}

/-! ## From a value to an integer (R230) -/

/-- A quotient is rounded to itself exactly where there is no remainder. -/
theorem roundQuotient_mul_eq_iff (rm : RoundMode) (neg : Bool) (m : Nat) {D : Nat} (hD : 0 < D) :
    roundQuotient rm neg m D * D = m ↔ m % D = 0 := by
  constructor
  · intro h
    rw [← h]
    exact Nat.mul_mod_left _ _
  · intro h
    have hexact : roundQuotient rm neg m D = m / D := by
      rw [roundQuotient, h, if_neg]
      cases rm <;> simp [roundsUp, hD.ne]
    rw [hexact, Nat.div_mul_cancel (Nat.dvd_of_mod_eq_zero h)]

/-- The integer that a value is rounded to is the value itself exactly where it has no fraction. -/
theorem roundToInt_mul_ne_iff (rm : RoundMode) (x : p.Pattern) :
    roundToInt rm x * 2 ^ p.scale ≠ quanta x ↔ magQuanta x % 2 ^ p.scale ≠ 0 := by
  have hD : 0 < 2 ^ p.scale := by positivity
  refine not_congr (Iff.trans ?_ (roundQuotient_mul_eq_iff rm (signOf x) (magQuanta x) hD))
  have hcast : (2 : Int) ^ p.scale = (2 ^ p.scale : Nat) := by push_cast; rfl
  rw [hcast, roundToInt, quanta]
  generalize signOf x = neg, 2 ^ p.scale = D
  cases neg with
  | false => simp only [Bool.false_eq_true, if_false]; exact_mod_cast Iff.rfl
  | true => simp only [if_true, Int.neg_mul, neg_inj]; exact_mod_cast Iff.rfl

theorem roundToInt_zero (rm : RoundMode) {x : p.Pattern} (h : isZero x = true) : roundToInt rm x = 0 := by
  have hm : magQuanta x = 0 := by rw [magQuanta_eq, (isZero_iff x).mp h, magOf_zero]
  have hq : ∀ neg, roundQuotient rm neg 0 (2 ^ p.scale) = 0 := fun neg => by
    have h0 := (roundQuotient_mul_eq_iff rm neg 0 (D := 2 ^ p.scale) (by positivity)).mpr rfl
    exact (Nat.mul_eq_zero.mp h0).resolve_right (by positivity)
  simp [roundToInt, hm, hq]

section
variable (rm : RoundMode) {x : p.Pattern} (n : Nat)

theorem toInt_special (h : isNaN x = true ∨ isInf x = true) :
    toInt rm x n = (BitVec.ofNat n (2 ^ (n - 1)), { inval := true }) := by
  simp [toInt, h]

theorem isFinite_of_sub (h : isSub x = true) : isFinite x = true := by simp [isFinite, h]

theorem toInt_sub (h : isSub x = true) : toInt rm x n = (0, { subo := true, inx := true }) := by
  simp [toInt, h, isNaN_eq_false_of_finite (isFinite_of_sub h), isInf_eq_false_of_finite (isFinite_of_sub h)]

variable {n} (hx : isFinite x = true) (hs : isSub x = false)
include hx hs

theorem toInt_high (hn : (2 : Int) ^ (n - 1) - 1 < roundToInt rm x) :
    toInt rm x n = (BitVec.ofNat n (2 ^ (n - 1) - 1), { hugi := true, inval := true }) := by
  have hpos : (0 : Int) < 2 ^ (n - 1) := by positivity
  have hz : isZero x = false := by
    by_contra hz
    rw [roundToInt_zero rm (by simpa using hz)] at hn
    omega
  simp [toInt, isNaN_eq_false_of_finite hx, isInf_eq_false_of_finite hx, hs, hz, hn]

theorem toInt_low (hn : roundToInt rm x < -(2 : Int) ^ (n - 1)) :
    toInt rm x n = (BitVec.ofNat n (2 ^ (n - 1)), { hugi := true, inval := true }) := by
  have hpos : (0 : Int) < 2 ^ (n - 1) := by positivity
  have hz : isZero x = false := by
    by_contra hz
    rw [roundToInt_zero rm (by simpa using hz)] at hn
    omega
  have hhi : ¬ (2 : Int) ^ (n - 1) - 1 < roundToInt rm x := by omega
  simp [toInt, isNaN_eq_false_of_finite hx, isInf_eq_false_of_finite hx, hs, hz, hn, hhi]

theorem toInt_within (hlo : -(2 : Int) ^ (n - 1) ≤ roundToInt rm x)
    (hhi : roundToInt rm x ≤ (2 : Int) ^ (n - 1) - 1) :
    toInt rm x n =
      (BitVec.ofInt n (roundToInt rm x), { inx := decide (roundToInt rm x * 2 ^ p.scale ≠ quanta x) }) := by
  have hinx : decide (roundToInt rm x * 2 ^ p.scale ≠ quanta x) = decide (magQuanta x % 2 ^ p.scale ≠ 0) :=
    decide_eq_decide.mpr (roundToInt_mul_ne_iff rm x)
  rw [hinx]
  cases hz : isZero x with
  | true =>
    have hm : magQuanta x = 0 := by rw [magQuanta_eq, (isZero_iff x).mp hz, magOf_zero]
    simp [toInt, isNaN_eq_false_of_finite hx, isInf_eq_false_of_finite hx, hs, hz, hm, roundToInt_zero rm hz,
      Kinds.none]
  | false =>
    simp [toInt, isNaN_eq_false_of_finite hx, isInf_eq_false_of_finite hx, hs, hz, Int.not_lt.mpr hhi,
      Int.not_lt.mpr hlo]

end

/-- F2LI and F2DI, masked: the integer and the kinds of R230, for a destination of the precision `q`. -/
theorem exec_toInt (q : Prec) {i : Instr} {fd : FReg} {rm : RoundMode} {x : p.Pattern} {s : State}
    (he : exec i s = withForm i (deliver q listToInt fd (toInt rm x q.width) s)) (hf : i.wellFormed = true)
    (hm : Masked s) :
    ∃ t, exec i s = .next t ∧ ∀ r, toInt rm x q.width = r → FpDone q fd listToInt r.2 (· = r.1) s t := by
  have hl : ∀ k, (toInt rm x q.width).2.has k = true → listToInt.has k = true := by
    unfold toInt
    split_ifs <;> exact Kinds.has_of_union rfl
  obtain ⟨t, ht, hd⟩ := exec_deliver he hf hm hl
  exact ⟨t, ht, fun r hr => hr ▸ hd⟩

/-! ## From an integer to a value (R231) -/

/-- The rounding of an integer of at most 64 bits neither overflows nor is tiny. -/
theorem round_int_kinds (rm : RoundMode) {i : Int} (h : i.natAbs ≤ 2 ^ 63) :
    (Machine.round p rm i 1 false).2 = { inx := (Machine.round p rm i 1 false).2.inx } := by
  by_cases hi : i = 0
  · simp [Machine.round, hi, Kinds.none]
  · obtain ⟨lo, x, hb, he⟩ := round_eq p rm (n := i) (d := 1) false hi one_pos
    obtain ⟨-, -, -, hlast⟩ := hb.overflow_iff one_pos rm (decide (i < 0))
    have hbig : i.natAbs * 2 ^ p.scale ≤ magOf p (p.infMag - 1) :=
      calc i.natAbs * 2 ^ p.scale ≤ 2 ^ 63 * 2 ^ p.scale := Nat.mul_le_mul_right _ h
        _ = 2 ^ (63 + p.scale) := (pow_add ..).symm
        _ ≤ 2 ^ (p.manBits + (2 * p.bias - 1)) := Nat.pow_le_pow_right (by omega) (by cases p <;> decide)
        _ = magOf p ((2 * p.bias - 1 + 1) * 2 ^ p.manBits) := (magOf_binade ..).symm
        _ ≤ magOf p (p.infMag - 1) := (magOf_strictMono p).monotone (by cases p <;> decide)
    have hm : ¬ p.infMag ≤ roundMag p rm (decide (i < 0)) 1 lo x := fun hm => by
      have := hlast hm
      omega
    have htiny : ¬ i.natAbs * 2 ^ p.scale < 2 ^ p.manBits * 1 := by
      rw [Nat.mul_one, Nat.not_lt]
      calc 2 ^ p.manBits ≤ 2 ^ p.scale := Nat.pow_le_pow_right (by omega) (by cases p <;> decide)
        _ ≤ i.natAbs * 2 ^ p.scale := Nat.le_mul_of_pos_left _ (by omega)
    rw [he, if_neg hm, decide_eq_false htiny, Bool.and_false]

theorem natAbs_toInt_le {w : Nat} (x : BitVec (w + 1)) : x.toInt.natAbs ≤ 2 ^ w := by
  have hlo := BitVec.le_toInt x
  have hhi := BitVec.toInt_lt (x := x)
  simp only [Nat.add_sub_cancel] at hlo hhi
  zify
  rw [abs_le]
  exact ⟨hlo, hhi.le⟩

/-- DI2F and LI2F, masked. -/
theorem exec_fromInt {i : Instr} {fd : FReg} {rm : RoundMode} {n : Int} {s : State}
    (he : exec i s = withForm i (deliver p listFromInt fd (fromInt p rm n) s)) (hf : i.wellFormed = true)
    (hm : Masked s) (hn : n.natAbs ≤ 2 ^ 63) :
    ∃ t, exec i s = .next t ∧ FpDone p fd listFromInt { inx := (Machine.round p rm n 1 false).2.inx }
      (· = (Machine.round p rm n 1 false).1) s t := by
  have hk : (fromInt p rm n).2 = { inx := (Machine.round p rm n 1 false).2.inx } := round_int_kinds rm hn
  obtain ⟨t, ht, hd⟩ := exec_deliver he hf hm (by rw [hk]; exact Kinds.has_of_union rfl)
  exact ⟨t, ht, hk ▸ hd⟩

/-- A number below `2^(M_f + 1)`, and any power of two times it, is a magnitude of the format (R130, R132). -/
theorem exists_magOf_mul_scale {a : Nat} (ha : 0 < a) (h : a < 2 ^ (p.manBits + 1)) :
    ∃ m < p.infMag, magOf p m = a * 2 ^ p.scale := by
  have hlog : a.log2 ≤ p.manBits := by
    have := (Nat.log2_lt ha.ne').mpr h
    omega
  have hscale : p.manBits ≤ p.scale := by cases p <;> decide
  have hlo := Nat.log2_self_le ha.ne'
  have hhi := Nat.lt_log2_self (n := a)
  generalize a.log2 = j at hlog hlo hhi
  have hq : a * 2 ^ (p.manBits - j) < 2 ^ (p.manBits + 1) :=
    calc a * 2 ^ (p.manBits - j) < 2 ^ (j + 1) * 2 ^ (p.manBits - j) :=
          Nat.mul_lt_mul_of_pos_right hhi (by positivity)
      _ = 2 ^ (p.manBits + 1) := by rw [← pow_add]; congr 1; omega
  have hk : 2 ^ p.manBits ≤ a * 2 ^ (p.manBits - j) :=
    calc 2 ^ p.manBits = 2 ^ j * 2 ^ (p.manBits - j) := by rw [← pow_add]; congr 1; omega
      _ ≤ a * 2 ^ (p.manBits - j) := Nat.mul_le_mul_right _ hlo
  have hval := (magOf_ulps (k := p.scale - (p.manBits - j)) hq fun _ => hk).1
  refine ⟨_, ?_, hval.trans ?_⟩
  · rw [infMag_eq]
    calc (p.scale - (p.manBits - j)) * 2 ^ p.manBits + a * 2 ^ (p.manBits - j)
        < p.scale * 2 ^ p.manBits + 2 * 2 ^ p.manBits := by
          have hle : (p.scale - (p.manBits - j)) * 2 ^ p.manBits ≤ p.scale * 2 ^ p.manBits :=
            Nat.mul_le_mul_right _ (Nat.sub_le ..)
          rw [pow_succ] at hq
          omega
      _ = (p.scale + 2) * 2 ^ p.manBits := (Nat.add_mul ..).symm
      _ ≤ (2 * p.bias + 1) * 2 ^ p.manBits := Nat.mul_le_mul_right _ (by cases p <;> decide)
  · rw [Nat.mul_assoc, ← pow_add]
    congr 2
    omega

/-- An integer below `2^(M_f + 1)` is delivered exactly, whatever the mode. -/
theorem round_int_exact (rm : RoundMode) {i : Int} (h : i.natAbs < 2 ^ (p.manBits + 1)) :
    quanta (Machine.round p rm i 1 false).1 = i * 2 ^ p.scale ∧
      isFinite (Machine.round p rm i 1 false).1 = true ∧ (Machine.round p rm i 1 false).2 = Kinds.none := by
  by_cases hi : i = 0
  · have hpos : 0 < p.infMag := by have := manBits_bounds p; omega
    rw [hi, Machine.round, if_pos rfl]
    exact ⟨by rw [zeroOf, quanta_pack _ (hpos.trans (infMag_lt p))]; simp, isFinite_pack p _ hpos, rfl⟩
  · obtain ⟨m, hm, hval⟩ := exists_magOf_mul_scale (Int.natAbs_pos.mpr hi) h
    rw [round_of_magOf hi one_pos (by rw [hval, Nat.mul_one]) hm]
    refine ⟨?_, isFinite_pack p _ hm, rfl⟩
    rw [quanta_pack _ (hm.trans (infMag_lt p)), hval, num_mul_eq]
    simp only [decide_eq_true_eq]

/-! ## COS and SIN -/

/-- COS or SIN, masked, for a function that never gives a NaN and signals at most INX and UDF. -/
theorem exec_trig {i : Instr} {fd : FReg} {f : Word → Prec.single.Pattern → Result .single}
    {x : Prec.single.Pattern} {s : State}
    (he : exec i s = withForm i (arith .single listTrig fd [x] (trigCore f s.fcr x) s)) (hf : i.wellFormed = true)
    (hm : Masked s) (hk : (f s.fcr x).2 = { inx := (f s.fcr x).2.inx, udf := (f s.fcr x).2.udf }) :
    ∃ t, exec i s = .next t ∧
      (isNaN x = true → FpDone .single fd listTrig { inval := isSNaN x } (fun r => classOf r = .qnan) s t) ∧
      (isInf x = true → FpDone .single fd listTrig { inval := true } (· = 0x7FC00001#32) s t) ∧
      (isFinite x = true →
        FpDone .single fd listTrig { inx := (f s.fcr x).2.inx, udf := (f s.fcr x).2.udf, subo := isSub x }
          (· = (f s.fcr x).1) s t) := by
  have hl : ∀ k, (trigCore f s.fcr x).2.has k = true → listTrig.has k = true := by
    unfold trigCore
    split
    · exact Kinds.has_of_union rfl
    · rw [hk]
      exact Kinds.has_of_union rfl
  obtain ⟨t, ht, hq, hn⟩ := exec_arith (nan := isNaN x) (snan := isSNaN x) (sub := isSub x) he hf hm (fun _ => hl)
    rfl rfl (by simp) (by simp) (by simp)
  refine ⟨t, ht, fun h => ?_, fun h => ?_, fun h => ?_⟩
  · have hr := hq h
    rwa [isSub_eq_false_of_nan h] at hr
  · have hr := hn (invalid .single) (isNaN_eq_false_of_inf h) (if_pos h)
    rwa [isSub_eq_false_of_inf h] at hr
  · have hr := hn (f s.fcr x) (isNaN_eq_false_of_finite h) (if_neg (by simp [isInf_eq_false_of_finite h]))
    rwa [hk, Kinds.union_subo rfl] at hr

theorem isNaN_trigValue (v : Bool × Fin 0x7F800001) : isNaN (trigValue v) = false :=
  isNaN_pack (p := .single) v.1 (Nat.le_of_lt_succ v.2.isLt)

theorem isNaN_trigCos (fcr : Word) (x : Prec.single.Pattern) : isNaN (trigCos fcr x).1 = false := by
  unfold trigCos
  dsimp only
  split
  · decide
  · exact isNaN_trigValue _

theorem isNaN_trigSin (fcr : Word) (x : Prec.single.Pattern) : isNaN (trigSin fcr x).1 = false := by
  unfold trigSin
  dsimp only
  split
  · decide
  · exact isNaN_trigValue _

/-- Where nothing is signalled nothing traps, whatever FCR holds (R314). -/
theorem trapOr_none (s t : State) : trapOr s Kinds.none t = .next t := by
  simp [trapOr, traps]

end Sys2Proof.Machine

open Sys2Proof Sys2Proof.Machine

/-- Settles O41, by the cases of R230. -/
theorem floatToIntResult : Obligations.FloatToIntResult := by
  refine ⟨fun p rnd fs fd s x i hf hm hx hi => ?_, fun p rnd fs fd s x i hf hm hx hi => ?_⟩
  · subst hx hi
    obtain ⟨t, ht, hd⟩ := exec_toInt .single (i := .f2li p rnd fs fd) (execF2li_eq p rnd fs fd s) hf hm
    refine ⟨t, ht, fun h => hd _ (toInt_special _ 32 h), fun h => hd _ (toInt_sub _ 32 h),
      fun hx hs hhi => hd _ (toInt_high _ hx hs hhi), fun hx hs hlo => hd _ (toInt_low _ hx hs hlo),
      fun hx hs hlo hhi => FpDone.mono (hd _ (toInt_within _ hx hs hlo hhi)) ?_⟩
    rintro _ rfl
    exact BitVec.toInt_ofInt_eq_self (by decide) hlo (Int.lt_of_le_sub_one hhi)
  · subst hx hi
    obtain ⟨t, ht, hd⟩ := exec_toInt .double (i := .f2di p rnd fs fd) (execF2di_eq p rnd fs fd s) hf hm
    refine ⟨t, ht, fun h => hd _ (toInt_special _ 64 h), fun h => hd _ (toInt_sub _ 64 h),
      fun hx hs hhi => hd _ (toInt_high _ hx hs hhi), fun hx hs hlo => hd _ (toInt_low _ hx hs hlo),
      fun hx hs hlo hhi => FpDone.mono (hd _ (toInt_within _ hx hs hlo hhi)) ?_⟩
    rintro _ rfl
    exact BitVec.toInt_ofInt_eq_self (by decide) hlo (Int.lt_of_le_sub_one hhi)

/-- Settles O42: a signed 32-bit or 64-bit integer is within the range of both formats. -/
theorem intToFloatResult : Obligations.IntToFloatResult := by
  refine ⟨fun p rnd fs fd s hf hm => ?_, fun p rnd fs fd s hf hm => ?_⟩
  · exact exec_fromInt (i := .li2f p rnd fs fd) rfl hf hm
      ((natAbs_toInt_le (w := 31) _).trans (Nat.pow_le_pow_right (by omega) (by omega)))
  · exact exec_fromInt (i := .di2f p rnd fs fd) rfl hf hm (natAbs_toInt_le (w := 63) _)

/-- Settles O43: a 32-bit integer has at most 53 significant bits, so nothing is signalled. -/
theorem li2fDoubleExact : Obligations.Li2fDoubleExact := by
  intro rnd fs fd s hfd
  have hf : (Instr.li2f .double rnd fs fd).wellFormed = true := by
    show (pairCheck (!fd.getLsbD 0)).isNone = true
    rw [hfd]
    rfl
  have hi : (s.readF fs).toInt.natAbs < 2 ^ (Prec.double.manBits + 1) :=
    (natAbs_toInt_le (w := 31) _).trans_lt (by decide)
  obtain ⟨hq, hfin, hk⟩ := round_int_exact (convMode rnd s.fcr) hi
  have he : exec (.li2f .double rnd fs fd) s =
      .next (((s.signalled listFromInt Kinds.none).writeFP .double fd
        (Machine.round .double (convMode rnd s.fcr) (s.readF fs).toInt 1 false).1).retire 4) := by
    show withForm (.li2f .double rnd fs fd) (deliver .double listFromInt fd (Machine.round ..) s) = _
    rw [withForm_eq hf, deliver, hk, trapOr_none]
  refine ⟨_, he, FpDone.mono (fpDone_of_write (sig := Kinds.none) _ s (by simp)) ?_⟩
  rintro _ rfl
  exact ⟨hq, hfin⟩

/-- Settles O44: the value of a finite operand is never a NaN, and at the example point it is the printed one. -/
theorem trigResult : Obligations.TrigResult := by
  refine ⟨fun fs fd s x hm hx => ?_, fun fs fd s x hm hx => ?_⟩
  · subst hx
    obtain ⟨t, ht, hnan, hinf, hfin⟩ := exec_trig (i := .cos fs fd) (f := trigCos) rfl rfl hm rfl
    refine ⟨t, ht, hnan, hinf, fun h => ⟨_, _, FpDone.mono (hfin h) ?_⟩⟩
    rintro _ rfl
    exact ⟨isNaN_trigCos .., fun h => if_pos h⟩
  · subst hx
    obtain ⟨t, ht, hnan, hinf, hfin⟩ := exec_trig (i := .sin fs fd) (f := trigSin) rfl rfl hm rfl
    refine ⟨t, ht, hnan, hinf, fun h => ⟨_, _, FpDone.mono (hfin h) ?_⟩⟩
    rintro _ rfl
    exact ⟨isNaN_trigSin .., fun h => if_pos h⟩

end

section
/-! PROOFS. Traps: every instruction that signals ends in one of two ways (`Ending`), which fix the signalled kinds
before FCR's masks and FSR's flags are looked at. -/

namespace Sys2Proof.Machine

variable {p : Prec}

/-! ## How a signalling instruction ends -/

/-- The two ways: a result delivered, or the flags of a compare. -/
inductive Ending where
  | deliver (p : Prec) (list : Kinds) (fd : FReg) (r : Result p)
  | compare (p : Prec) (sig : Kinds) (x y : p.Pattern)

namespace Ending

/-- What the ending does in a state. -/
def run : Ending → State → Outcome
  | .deliver p list fd r, s => Machine.deliver p list fd r s
  | .compare _ sig x y, s => compareEnd sig x y s

/-- The kinds that are signalled. -/
def sig : Ending → Kinds
  | .deliver _ _ _ r => r.2
  | .compare _ sig _ _ => sig

/-- The next state, where nothing traps. -/
def next : Ending → State → State
  | .deliver p list fd r, s => ((s.signalled list r.2).writeFP p fd r.1).retire 4
  | .compare _ sig x y, s =>
    { s.signalled listSelect sig with
      fsr := compareWord (statusWord s.fsr listSelect sig) (compareValues x y) }.retire 4

theorem run_eq (e : Ending) (s : State) : e.run s = trapOr s e.sig (e.next s) := by cases e <;> rfl

end Ending

/-- The instruction ends in the same way in two states. -/
def EndsAlike (i : Instr) (s u : State) : Prop :=
  ∃ e : Ending, exec i s = withForm i (e.run s) ∧ exec i u = withForm i (e.run u)

section
variable {i : Instr} {s u : State} {list : Kinds} {fd : FReg}

theorem EndsAlike.of_deliver {r : Result p} (hs : exec i s = withForm i (deliver p list fd r s))
    (hu : exec i u = withForm i (deliver p list fd r u)) : EndsAlike i s u :=
  ⟨.deliver p list fd r, hs, hu⟩

/-- `arith` draws its NaN at the place that the draw counter names. -/
theorem EndsAlike.of_arith {ops : List p.Pattern} {core : Result p} (hd : u.draws = s.draws)
    (hs : exec i s = withForm i (arith p list fd ops core s))
    (hu : exec i u = withForm i (arith p list fd ops core u)) : EndsAlike i s u := by
  rw [arith_eq] at hs hu
  rw [drawnNaN, hd] at hu
  exact .of_deliver hs hu

end

/-- Every signalling instruction but COS and SIN, which may read FCR (R252), ends alike under other masks and flags and
the same rounding mode. -/
theorem endsAlike {i : Instr} (hi : i.signals = true) (ht : ∀ fs fd, i ≠ .cos fs fd ∧ i ≠ .sin fs fd)
    (s : State) (fcr fsr : Word) (h : roundModeOf fcr = roundModeOf s.fcr) :
    EndsAlike i s { s with fcr := fcr, fsr := fsr } := by
  have hrm : ({ s with fcr := fcr, fsr := fsr } : State).rm = s.rm := h
  have hconv : ∀ rnd, convMode rnd fcr = convMode rnd s.fcr := by
    intro rnd
    cases rnd with
    | fromFcr => exact h
    | fixed m => rfl
  cases i with
  | abs | neg | maxnm | minnm => exact .of_deliver rfl rfl
  | flim | max | min => exact .of_arith rfl rfl rfl
  | cpq p fb fs | cps p fb fs => exact ⟨.compare p _ (s.readFP p fb) (s.readFP p fs), rfl, rfl⟩
  | add | sub | mul | div | mac | sqrt =>
    refine .of_arith rfl rfl ?_
    simp only [exec, execAdd, execSub, execMul, execDiv, execMac, execSqrt, hrm]
    rfl
  | di2f | li2f =>
    refine .of_deliver rfl ?_
    simp only [exec, execDi2f, execLi2f, hconv]
    rfl
  | f2di p rnd fs fd =>
    refine .of_deliver (execF2di_eq p rnd fs fd s) ((execF2di_eq p rnd fs fd _).trans ?_)
    simp only [hconv]
    rfl
  | f2li p rnd fs fd =>
    refine .of_deliver (execF2li_eq p rnd fs fd s) ((execF2li_eq p rnd fs fd _).trans ?_)
    simp only [hconv]
    rfl
  | cos fs fd => exact absurd rfl (ht fs fd).1
  | sin fs fd => exact absurd rfl (ht fs fd).2
  | _ => cases hi

/-- Every signalling instruction ends in one of the two ways. -/
theorem exec_eq_run {i : Instr} (hi : i.signals = true) (s : State) :
    ∃ e : Ending, exec i s = withForm i (e.run s) := by
  by_cases ht : ∀ fs fd, i ≠ .cos fs fd ∧ i ≠ .sin fs fd
  · obtain ⟨e, he, -⟩ := endsAlike hi ht s s.fcr s.fsr rfl
    exact ⟨e, he⟩
  · obtain ⟨fs, fd, h⟩ : ∃ fs fd, i = .cos fs fd ∨ i = .sin fs fd := by
      simpa only [not_forall, not_and_or, not_not] using ht
    obtain ⟨e, he, -⟩ : EndsAlike i s s := by
      rcases h with rfl | rfl
      · exact .of_arith rfl rfl rfl
      · exact .of_arith rfl rfl rfl
    exact ⟨e, he⟩

/-! ## The trap check -/

section
variable {i : Instr} {s : State} {e : Ending}

/-- The trap of an instruction that signals a trap-enabled kind carries all the kinds it signals (R314). -/
theorem exec_traps (he : exec i s = withForm i (e.run s)) (hf : i.wellFormed = true)
    (h : ∃ k, e.sig.has k = true ∧ trapEnabled s.fcr k = true) : exec i s = .fault (.fpuTrap e.sig) := by
  obtain ⟨k, hk, ht⟩ := h
  rw [he, withForm_eq hf, e.run_eq, trapOr, if_pos (traps_of_exists ht hk)]

theorem exec_goes_on (he : exec i s = withForm i (e.run s)) (hf : i.wellFormed = true)
    (h : ∀ k, e.sig.has k = true → trapEnabled s.fcr k = false) : exec i s = .next (e.next s) := by
  rw [he, withForm_eq hf, e.run_eq, trapOr, if_neg]
  intro ht
  obtain ⟨k, hen, hk⟩ := exists_of_traps ht
  rw [h k hk] at hen
  cases hen

end

/-! ## The masked run -/

/-- The bits of the masks that the masked run is made with. -/
theorem getLsbD_stickyMasks {i : Nat} (h : i < 32) :
    (0xFFFF80FF#32).getLsbD i = !(0x00007F00#32).getLsbD i ∧
      ((0x00007F00#32).getLsbD i = true → 7 ≤ i ∧ (0xFFF0FFFF#32).getLsbD i = true) := by
  have hmask : ∀ j : Fin 32, (0xFFFF80FF#32).getLsbD j = !(0x00007F00#32).getLsbD j ∧
      ((0x00007F00#32).getLsbD j = true → 7 ≤ j.val ∧ (0xFFF0FFFF#32).getLsbD j = true) := by decide
  exact hmask ⟨i, h⟩

/-- The earlier sticky flags come to the others, whenever they are set (R142). -/
theorem statusWord_sticky (fsr : Word) (list sig : Kinds) :
    statusWord fsr list sig = statusWord (fsr &&& 0xFFFF80FF#32) list sig ||| (fsr &&& 0x00007F00#32) := by
  apply BitVec.eq_of_getLsbD_eq
  intro i hi
  obtain ⟨hmask, hsticky⟩ := getLsbD_stickyMasks hi
  simp only [statusWord_eq, BitVec.getLsbD_or, BitVec.getLsbD_and, BitVec.getLsbD_not, hmask]
  cases hm : (0x00007F00#32).getLsbD i with
  | false => simp
  | true =>
    rw [Kinds.word_high list (hsticky hm).1]
    cases fsr.getLsbD i <;> simp [hi]

/-- The compare flags are no sticky flags. -/
theorem compareWord_sticky (w fsr : Word) (r : Relation) :
    compareWord (w ||| (fsr &&& 0x00007F00#32)) r = compareWord w r ||| (fsr &&& 0x00007F00#32) := by
  apply BitVec.eq_of_getLsbD_eq
  intro i hi
  obtain ⟨-, hsticky⟩ := getLsbD_stickyMasks hi
  simp only [compareWord, BitVec.getLsbD_or, BitVec.getLsbD_and]
  cases hm : (0x00007F00#32).getLsbD i with
  | false => simp
  | true =>
    rw [(hsticky hm).2]
    cases fsr.getLsbD i <;> simp

/-- Other masks and no earlier sticky flags make no other difference to the next state. -/
theorem Ending.next_eq (e : Ending) (s : State) (fcr : Word) :
    e.next s =
      { e.next { s with fcr := fcr, fsr := s.fsr &&& 0xFFFF80FF#32 } with
        fcr := s.fcr
        fsr := (e.next { s with fcr := fcr, fsr := s.fsr &&& 0xFFFF80FF#32 }).fsr ||| (s.fsr &&& 0x00007F00#32) } := by
  cases e with
  | deliver p list fd r =>
    have hw := statusWord_sticky s.fsr list r.2
    cases p <;> exact congrArg (fun w => ({ Ending.next (.deliver _ list fd r) s with fsr := w } : State)) hw
  | compare p sig x y =>
    have hw := (congrArg (compareWord · (compareValues x y)) (statusWord_sticky s.fsr listSelect sig)).trans
      (compareWord_sticky ..)
    exact congrArg (fun w => ({ Ending.next (.compare p sig x y) s with fsr := w } : State)) hw

/-- The sticky flags of a run that starts without any are the kinds it signals. -/
theorem Ending.stickyFlag_next (e : Ending) (s : State) (fcr : Word) (k : Kind) :
    stickyFlag (e.next { s with fcr := fcr, fsr := s.fsr &&& 0xFFFF80FF#32 }).fsr k = e.sig.has k := by
  have hclear : stickyFlag (s.fsr &&& 0xFFFF80FF#32) k = false := by
    rw [stickyFlag, BitVec.getLsbD_and, show (0xFFFF80FF#32).getLsbD k.stickyBit = false by cases k <;> rfl,
      Bool.and_false]
  cases e with
  | deliver p list fd r => simp [Ending.next, Ending.sig, stickyFlag_statusWord, hclear]
  | compare p sig x y => simp [Ending.next, Ending.sig, stickyFlag_statusWord, hclear]

/-! ## COS and SIN -/

/-- The result that `arith` delivers. -/
def arithResult (ops : List p.Pattern) (core : Result p) (s : State) : Result p :=
  if ops.any isNaN then (drawnNaN p s, (subKinds ops).union (snanKinds ops))
  else (core.1, core.2.union (subKinds ops))

/-- What COS or SIN signals, for a function that signals at most INX and UDF (R250, R251). -/
theorem arithResult_trig {f : Word → Prec.single.Pattern → Result .single} {fcr : Word} {x : Prec.single.Pattern}
    (hk : (f fcr x).2 = { inx := (f fcr x).2.inx, udf := (f fcr x).2.udf }) (s : State) :
    ∃ inx udf, (isFinite x = false → inx = false ∧ udf = false) ∧
      (arithResult [x] (trigCore f fcr x) s).2 =
        { inval := isSNaN x || isInf x, inx := inx, udf := udf, subo := isSub x } := by
  rcases class_cases x with hx | hx | hx
  · have hn := isNaN_eq_false_of_finite hx
    have hi := isInf_eq_false_of_finite hx
    have hcore : trigCore f fcr x = f fcr x := if_neg (by simp [hi])
    refine ⟨(f fcr x).2.inx, (f fcr x).2.udf, fun h => absurd hx (by simp [h]), ?_⟩
    rw [hcore, arithResult, if_neg (by simp [hn]), hk]
    simp [Kinds.union, subKinds, hi, isSNaN_eq_false hn]
  · have hn := isNaN_eq_false_of_inf hx
    refine ⟨false, false, fun _ => ⟨rfl, rfl⟩, ?_⟩
    simp [arithResult, trigCore, hx, hn, invalid, Kinds.union, subKinds]
  · have hi : isInf x = false := by
      by_contra hi
      rw [isNaN_eq_false_of_inf (by simpa using hi)] at hx
      cases hx
    refine ⟨false, false, fun _ => ⟨rfl, rfl⟩, ?_⟩
    simp [arithResult, hx, hi, Kinds.union, subKinds, snanKinds]

/-- COS and SIN: the signalled kinds, and the two ways to go on. -/
theorem exec_trig_signal {i : Instr} {fd : FReg} {f : Word → Prec.single.Pattern → Result .single}
    {x : Prec.single.Pattern} {s : State}
    (he : exec i s = withForm i (arith .single listTrig fd [x] (trigCore f s.fcr x) s)) (hf : i.wellFormed = true)
    (hk : (f s.fcr x).2 = { inx := (f s.fcr x).2.inx, udf := (f s.fcr x).2.udf }) :
    ∃ sig : Kinds, TrigSignal x sig ∧
      ((∃ k, sig.has k = true ∧ trapEnabled s.fcr k = true) → exec i s = .fault (.fpuTrap sig)) ∧
      ((∀ k, sig.has k = true → trapEnabled s.fcr k = false) →
        ∃ t, exec i s = .next t ∧ Signalled listOfTrig sig s t) := by
  obtain ⟨inx, udf, hopen, hsig⟩ := arithResult_trig hk s
  generalize hr : arithResult [x] (trigCore f s.fcr x) s = r at hsig
  have hrun : exec i s = withForm i ((Ending.deliver .single listTrig fd r).run s) := by
    rw [he, arith_eq, ← hr]
    rfl
  have hlist : ∀ k, r.2.has k = true → listTrig.has k = true := by
    rw [hsig]
    exact Kinds.has_of_union rfl
  refine ⟨r.2, ?_, exec_traps hrun hf, fun h => ?_⟩
  · rw [hsig]
    exact ⟨rfl, rfl, hopen, rfl, rfl, rfl⟩
  · exact ⟨_, exec_goes_on hrun hf h, (fpDone_of_write r.1 s hlist).signal⟩

end Sys2Proof.Machine

open Sys2Proof Sys2Proof.Machine

/-- Settles O10: the trap check of a masked state lets every set of kinds pass. -/
theorem maskedNeverTraps : Obligations.MaskedNeverTraps := by
  intro i s sig hm h
  cases hi : i.signals with
  | false => exact not_fpuTrap_of_not_signals hi h
  | true =>
    obtain ⟨e, he⟩ := exec_eq_run hi s
    have hrun := (withForm_fault (he ▸ h)).2
    rw [e.run_eq, trapOr_masked hm] at hrun
    cases hrun

/-- Settles O11: the masked run ends in the same way, so its sticky flags are the kinds that the trap check sees. -/
theorem trapMatchesMaskedRun : Obligations.TrapMatchesMaskedRun := by
  refine ⟨fun i s t hi ht hnext => ?_, fun fs fd s => ?_, fun fs fd s => ?_⟩
  · have hrm : roundModeOf (s.fcr ||| 0x7F) = roundModeOf s.fcr := by
      simp [roundModeOf]
    obtain ⟨e, he, hu⟩ := endsAlike hi ht s (s.fcr ||| 0x7F) (s.fsr &&& 0xFFFF80FF#32) hrm
    obtain ⟨hf, hrun⟩ := withForm_next (hu.symm.trans hnext)
    rw [e.run_eq] at hrun
    obtain ⟨-, rfl⟩ := trapOr_next hrun
    have hsticky := e.stickyFlag_next s (s.fcr ||| 0x7F)
    refine ⟨fun ⟨k, hk, hen⟩ => ?_, fun h => ?_⟩
    · exact ⟨e.sig, exec_traps he hf ⟨k, (hsticky k).symm.trans hk, hen⟩, fun k => (hsticky k).symm⟩
    · rw [exec_goes_on he hf fun k hk => h k ((hsticky k).trans hk)]
      exact congrArg Host.Outcome.next (e.next_eq s (s.fcr ||| 0x7F))
  · exact exec_trig_signal (i := .cos fs fd) (f := trigCos) rfl rfl rfl
  · exact exec_trig_signal (i := .sin fs fd) (f := trigSin) rfl rfl rfl

end

section
/-! PROOFS. The moves between F registers and the constants of MOVC: both write one operand and keep everything else
(`FpWritten`). -/

namespace Sys2Proof

open Machine

/-! ## The write of one operand -/

/-- The operand `fd` of precision `p` was written with `v`, nothing was signalled, nothing else changed, and `pc` is past
the instruction. -/
structure FpWritten (p : Prec) (fd : FReg) (v : p.Pattern) (s t : State) : Prop where
  value : t.readFP p fd = v
  f : ∀ r, p.covers fd r = false → t.readF r = s.readF r
  fsr : t.fsr = s.fsr
  fcr : t.fcr = s.fcr
  fear : t.fear = s.fear
  mem : MemKept s t
  rest : RestKept (fun _ => false) s t
  pc : t.pc = s.pc + 4

theorem FpWritten.of_writeFP {p : Prec} (fd : FReg) (v : p.Pattern) (s : State) :
    FpWritten p fd v s ((s.writeFP p fd v).retire 4) where
  value := by simp
  f r h := by simp [State.readF_writeFP_ne _ _ _ h]
  fsr := by simp
  fcr := by simp
  fear := by simp
  mem a := by simp
  rest := by constructor <;> simp
  pc := by simp

theorem covers_single_eq_false {fd r : FReg} (h : r ≠ fd) : Prec.single.covers fd r = false :=
  beq_eq_false_iff_ne.mpr h

theorem covers_double_eq_false {fd r : FReg} (hlow : r ≠ fd) (hhigh : r ≠ fd + 1) :
    Prec.double.covers fd r = false :=
  Bool.or_eq_false_iff.mpr ⟨beq_eq_false_iff_ne.mpr hlow, beq_eq_false_iff_ne.mpr hhigh⟩

end Sys2Proof

namespace Sys2Proof.Machine

/-- Two pairs are equal exactly when their two registers are (R21). -/
theorem State.readFD_eq_iff {s t : State} {q r : FReg} :
    t.readFD q = s.readFD r ↔ t.readF q = s.readF r ∧ t.readF (q + 1) = s.readF (r + 1) := by
  constructor
  · intro h
    have hlow := congrArg (BitVec.extractLsb' 0 32) h
    have hhigh := congrArg (BitVec.extractLsb' 32 32) h
    rw [State.readFD, State.readFD, BitVec.extractLsb'_append_eq_right, BitVec.extractLsb'_append_eq_right] at hlow
    rw [State.readFD, State.readFD, BitVec.extractLsb'_append_eq_left, BitVec.extractLsb'_append_eq_left] at hhigh
    exact ⟨hlow, hhigh⟩
  · rintro ⟨hlow, hhigh⟩
    rw [State.readFD, State.readFD, hlow, hhigh]

/-! ## The two instructions on well-formed terms -/

theorem admits_double_of_even {r : FReg} (h : r.getLsbD 0 = false) : Prec.double.admits r = true := by
  rw [Prec.admits, FReg.even, h, Bool.not_false]

theorem wellFormed_movF {p : Prec} {fs fd : FReg} (hs : p.admits fs = true) (hd : p.admits fd = true) :
    (Instr.movF p fs fd).wellFormed = true := by
  simp [Instr.wellFormed, Instr.formError, pairCheck, hs, hd]

theorem wellFormed_movc {p : Prec} (index : BitVec 5) {fd : FReg} (hd : p.admits fd = true) :
    (Instr.movc p index fd).wellFormed = true := by
  simp [Instr.wellFormed, Instr.formError, pairCheck, hd]

/-- MOV between F registers writes the bits of its source (R263). -/
theorem exec_movF_writes {p : Prec} {fs fd : FReg} (hs : p.admits fs = true) (hd : p.admits fd = true) (s : State) :
    ∃ t, exec (.movF p fs fd) s = .next t ∧ FpWritten p fd (s.readFP p fs) s t :=
  ⟨_, withForm_eq (wellFormed_movF hs hd) _, .of_writeFP fd _ s⟩

/-- MOVC writes its constant (R264). -/
theorem exec_movc_writes {p : Prec} (index : BitVec 5) {fd : FReg} (hd : p.admits fd = true) (s : State) :
    ∃ t, exec (.movc p index fd) s = .next t ∧ FpWritten p fd (constOf p index) s t :=
  ⟨_, withForm_eq (wellFormed_movc index hd) _, .of_writeFP fd _ s⟩

/-! ## The constants -/

/-- A table of 32 entries has one at every 5-bit index, so the default is never taken. -/
theorem some_getD_eq_getElem? {α : Type} {l : List α} (hl : l.length = 32) (index : BitVec 5) (d : α) :
    some (l.getD index.toNat d) = l[index.toNat]? := by
  have hi : index.toNat < l.length := hl ▸ index.isLt
  rw [List.getD_eq_getElem _ _ hi, List.getElem?_eq_getElem hi]

theorem some_constOf_single (index : BitVec 5) : some (constOf .single index) = constS[index.toNat]? :=
  some_getD_eq_getElem? rfl index 0

theorem some_constOf_double (index : BitVec 5) : some (constOf .double index) = constD[index.toNat]? :=
  some_getD_eq_getElem? rfl index 0

end Sys2Proof.Machine

open Sys2Proof Sys2Proof.Machine

/-- Settles O45: the written operand reads as the source's, and a pair's equality is that of its registers. -/
theorem movCopies : Obligations.MovCopies := by
  refine ⟨fun fs fd s => ?_, fun fs fd s hs hd => ?_⟩
  · obtain ⟨t, he, h⟩ := exec_movF_writes (p := .single) (fs := fs) (fd := fd) rfl rfl s
    exact ⟨t, he, h.value, fun r hr => h.f r (covers_single_eq_false hr), h.fsr, h.fcr, h.fear, h.mem, h.rest, h.pc⟩
  · obtain ⟨t, he, h⟩ := exec_movF_writes (admits_double_of_even hs) (admits_double_of_even hd) s
    obtain ⟨hlow, hhigh⟩ := State.readFD_eq_iff.mp h.value
    exact ⟨t, he, hlow, hhigh, fun r hl hh => h.f r (covers_double_eq_false hl hh), h.fsr, h.fcr, h.fear, h.mem,
      h.rest, h.pc⟩

/-- Settles O46: the written operand reads as the constant, which the model's table gives at every index. -/
theorem movcLoadsConstant : Obligations.MovcLoadsConstant := by
  refine ⟨fun index fd s => ?_, fun index fd s hd => ?_⟩
  · obtain ⟨t, he, h⟩ := exec_movc_writes (p := .single) index (fd := fd) rfl s
    exact ⟨t, he, (congrArg some h.value).trans (some_constOf_single index),
      fun r hr => h.f r (covers_single_eq_false hr), h.fsr, h.fcr, h.fear, h.mem, h.rest, h.pc⟩
  · obtain ⟨t, he, h⟩ := exec_movc_writes index (admits_double_of_even hd) s
    exact ⟨t, he, (congrArg some h.value).trans (some_constOf_double index),
      fun r hl hh => h.f r (covers_double_eq_false hl hh), h.fsr, h.fcr, h.fear, h.mem, h.rest, h.pc⟩

end

section
/-! PROOFS. AND and IOR: each is one write of a special register, whose value is settled half by half. -/

namespace Sys2Proof.Machine

/-! ## The values written -/

/-- AND and IOR replace bits 15:0 of their register (R290, R292). -/
theorem getLsbD_append_low (x : Word) (lo : BitVec 16) {n : Nat} (h : n < 16) :
    (x.extractLsb' 16 16 ++ lo : Word).getLsbD n = lo.getLsbD n :=
  BitVec.getLsbD_append.trans (if_pos h)

/-- The value AND writes (R290): the literal masks bits 15:0. -/
theorem getLsbD_append_and (x : Word) (lit : BitVec 16) (n : Nat) :
    (x.extractLsb' 16 16 ++ (x.extractLsb' 0 16 &&& lit) : Word).getLsbD n =
      (x.getLsbD n && (lit.getLsbD n || decide (16 ≤ n))) := by
  rcases Nat.lt_or_ge n 16 with h | h
  · rw [getLsbD_append_low _ _ h]
    simp [h, Nat.not_le.mpr h]
  · rw [getLsbD_append_high _ _ h, decide_eq_true h, Bool.or_true, Bool.and_true]

/-- The value IOR writes (R292): the literal's bits join bits 15:0. -/
theorem getLsbD_append_or (x : Word) (lit : BitVec 16) (n : Nat) :
    (x.extractLsb' 16 16 ++ (x.extractLsb' 0 16 ||| lit) : Word).getLsbD n = (x.getLsbD n || lit.getLsbD n) := by
  rcases Nat.lt_or_ge n 16 with h | h
  · rw [getLsbD_append_low _ _ h]
    simp [h]
  · rw [getLsbD_append_high _ _ h, BitVec.getLsbD_of_ge lit n h, Bool.or_false]

/-! ## The instructions as writes of a coprocessor register -/

theorem exec_andLit (lit : BitVec 16) (r : SReg) (s : State) :
    exec (.andLit lit r) s = .next ((copWrite s r.asDst ((copRead s r.asDst.asSrc).extractLsb' 16 16 ++
      ((copRead s r.asDst.asSrc).extractLsb' 0 16 &&& lit))).retire 4) := by
  rw [← sregWrite_eq_copWrite, ← sregRead_eq_copRead]
  rfl

theorem exec_iorLit (lit : BitVec 16) (r : SReg) (s : State) :
    exec (.iorLit lit r) s = .next ((copWrite s r.asDst ((copRead s r.asDst.asSrc).extractLsb' 16 16 ++
      ((copRead s r.asDst.asSrc).extractLsb' 0 16 ||| lit))).retire 4) := by
  rw [← sregWrite_eq_copWrite, ← sregRead_eq_copRead]
  rfl

/-- A write of a coprocessor register, and the instruction retired, changes nothing else (R260). -/
theorem copWrite_retire_frame (s : State) (d : CopDst) (v : Word) :
    CopWritten d v s ((copWrite s d v).retire 4) ∧ MemKept s ((copWrite s d v).retire 4) ∧
      RestKept (fun _ => false) s ((copWrite s d v).retire 4) ∧ ((copWrite s d v).retire 4).pc = s.pc + 4 :=
  ⟨.of_copKept (.refl s) d v 4, fun a => by simp, .of_copWrite (.of_retire s 4) d v, by simp⟩

end Sys2Proof.Machine

open Sys2Proof Sys2Proof.Machine

/-- Settles O59: each instruction is one write of a coprocessor register, and the value's bits are known in each half. -/
theorem specialLogic : Obligations.SpecialLogic := by
  refine ⟨fun lit r s => ?_, fun lit r s => ?_⟩
  · obtain ⟨hwritten, hmem, hrest, hpc⟩ := copWrite_retire_frame s r.asDst _
    exact ⟨_, _, exec_andLit lit r s, hwritten, getLsbD_append_and _ lit, hmem, hrest, hpc⟩
  · obtain ⟨hwritten, hmem, hrest, hpc⟩ := copWrite_retire_frame s r.asDst _
    exact ⟨_, _, exec_iorLit lit r s, hwritten, getLsbD_append_or _ lit, hmem, hrest, hpc⟩

end
